-- ==== Sys2Proof/Word.lean ====
section
/-! DEFINITION. The word types of VCAP (00_scope.md R6) and the type of its internal memories (20_memory.md R40). -/

namespace Sys2Proof

/-- `u8` of R6. -/
abbrev Byte := BitVec 8
/-- `u16` of R6. -/
abbrev U16 := BitVec 16
/-- `u32` of R6: arithmetic wraps modulo 2^32. -/
abbrev U32 := BitVec 32
/-- `u64` of R6: arithmetic wraps modulo 2^64. -/
abbrev U64 := BitVec 64
/-- `s16` of R6, read with `BitVec.toInt`. -/
abbrev S16 := BitVec 16
/-- `s32` of R6, read with `BitVec.toInt`; also a Q16.16 value (30_encoding.md R64). -/
abbrev S32 := BitVec 32
/-- A packed pixel, zero-extended to 32 bits where `PIX_T` is 16 (43_frame_resampler.md R171). -/
abbrev Pixel := BitVec 32

/-- One address space of 20_memory.md R40: an array of elements of `w` bits, indexed from 0. -/
abbrev Memory (w : Nat) := Array (BitVec w)

end Sys2Proof
end

