-- ==== Sys2Proof/Syntax.lean ====
section
/-! DEFINITION. The commands of VCAP, one constructor per row of spec/opcode_table.json (30_encoding.md R56, R57). -/

namespace Sys2Proof

/-- A command with its operands. Bytes and words are bit vectors of their field's width; an operand that only selects
an element (`IDX`, `CMP`, `ADDR`) is a number, whose range `Instr.wellFormed` checks. -/
inductive Instr where
  /-- `NOP` (40_config_ops.md R81) -/
  | nop
  /-- `SMP F, C0, C1, A` (42_demodulator.md R130): one video-chip cycle -/
  | smp (f c0 c1 : Byte) (a : S16)
  /-- `SCLK HZ` (R83): set the input clock frequency -/
  | sclk (hz : U32)
  /-- `SMODE N` (R84): set the mode, `true` is NTSC -/
  | smode (n : Bool)
  /-- `SCCP IDX, VAL` (R85): write one staged colour-correction parameter -/
  | sccp (idx : Nat) (val : S32)
  /-- `SYUV N, CMP, IDX, VAL` (R86): write one value of the index-to-YUV table -/
  | syuv (n : Bool) (cmp idx : Nat) (val : S32)
  /-- `CBLD YUV` (R87): commit the parameters and build the colormap -/
  | cbld (yuv : Bool)
  /-- `CMRD ADDR` (R88): read a colormap entry -/
  | cmrd (addr : Nat)
  /-- `CMWR ADDR, DATA` (R89): write a colormap entry -/
  | cmwr (addr : Nat) (data : U32)
  /-- `RDSR IDX` (R90): read the status view -/
  | rdsr (idx : Nat)
  /-- `RST` (R82): reset -/
  | rst
  /-- reserved opcode 0xB (R91) -/
  | reservedB
  /-- reserved opcode 0xC (R91) -/
  | reservedC
  /-- reserved opcode 0xD (R91) -/
  | reservedD
  /-- reserved opcode 0xE (R91) -/
  | reservedE
  /-- reserved opcode 0xF (R91) -/
  | reservedF
deriving DecidableEq, Repr

end Sys2Proof
end

