-- ==== Sys2Proof/WellFormed.lean ====
section
/-! DEFINITION. Which terms of `Instr` an encoding can carry: every selecting operand fits its field (30_encoding.md R56). -/

namespace Sys2Proof

/-- The operands fit the fields of R56: `IDX` 8 bits, `CMP` 2 bits, `ADDR` 13 bits. The other operands are bit vectors
of their field's width. Values that fit but have no effect (R59) are well-formed. -/
def Instr.wellFormed : Instr → Bool
  | .nop => true
  | .smp _ _ _ _ => true
  | .sclk _ => true
  | .smode _ => true
  | .sccp idx _ => decide (idx < 256)
  | .syuv _ cmp idx _ => decide (cmp < 4) && decide (idx < 256)
  | .cbld _ => true
  | .cmrd addr => decide (addr < 8192)
  | .cmwr addr _ => decide (addr < 8192)
  | .rdsr idx => decide (idx < 256)
  | .rst => true
  | .reservedB => true
  | .reservedC => true
  | .reservedD => true
  | .reservedE => true
  | .reservedF => true

end Sys2Proof
end

