-- ==== Sys2Proof/Decode.lean ====
section
/-! DEFINITION. Decoding and encoding of the 64-bit command word (30_encoding.md R55 to R59, R70). Every word is a
command: the opcodes 0xB to 0xF are the reserved commands of 40_config_ops.md R91, and reserved bits are ignored (R58),
so there is no word to reject. -/

namespace Sys2Proof

/-- `cmd[63:60]`, which alone identifies the command (R55). -/
def opcode (w : BitVec 64) : Nat := (w.extractLsb' 60 4).toNat

/-- The command a word stands for, with the fields of R56. -/
def decode (w : BitVec 64) : Instr :=
  match opcode w with
  | 0x0 => .nop
  | 0x1 => .smp (w.extractLsb' 0 8) (w.extractLsb' 8 8) (w.extractLsb' 16 8) (w.extractLsb' 32 16)
  | 0x2 => .sclk (w.extractLsb' 0 32)
  | 0x3 => .smode (w.getLsbD 0)
  | 0x4 => .sccp (w.extractLsb' 32 8).toNat (w.extractLsb' 0 32)
  | 0x5 => .syuv (w.getLsbD 42) (w.extractLsb' 40 2).toNat (w.extractLsb' 32 8).toNat (w.extractLsb' 0 32)
  | 0x6 => .cbld (w.getLsbD 0)
  | 0x7 => .cmrd (w.extractLsb' 32 13).toNat
  | 0x8 => .cmwr (w.extractLsb' 32 13).toNat (w.extractLsb' 0 32)
  | 0x9 => .rdsr (w.extractLsb' 32 8).toNat
  | 0xA => .rst
  | 0xB => .reservedB
  | 0xC => .reservedC
  | 0xD => .reservedD
  | 0xE => .reservedE
  | _ => .reservedF

/-- The decoder on an instruction given as a number: the one word of R55 holds bit 0 at its least significant bit. An
instruction longer than the one word is refused. -/
def decodeTableWord (nbits w : Nat) : Option Instr :=
  if nbits ≤ 64 then some (decode (BitVec.ofNat 64 (w % 2 ^ nbits))) else none

/-- A field's value placed with its bit 0 at bit `lsb` of the command word. -/
def placeField {n : Nat} (v : BitVec n) (lsb : Nat) : BitVec 64 := (v.setWidth 64) <<< lsb

/-- The opcode in `cmd[63:60]`, all other bits 0. -/
def opcodeBits (op : Nat) : BitVec 64 := placeField (BitVec.ofNat 4 op) 60

/-- The assembler's word for a command: operands in the fields of R56, all other bits 0 (R70). -/
def encode : Instr → BitVec 64
  | .nop => opcodeBits 0x0
  | .smp f c0 c1 a => opcodeBits 0x1 ||| placeField a 32 ||| placeField c1 16 ||| placeField c0 8 ||| placeField f 0
  | .sclk hz => opcodeBits 0x2 ||| placeField hz 0
  | .smode n => opcodeBits 0x3 ||| placeField (BitVec.ofBool n) 0
  | .sccp idx val => opcodeBits 0x4 ||| placeField (BitVec.ofNat 8 idx) 32 ||| placeField val 0
  | .syuv n cmp idx val => opcodeBits 0x5 ||| placeField (BitVec.ofBool n) 42 ||| placeField (BitVec.ofNat 2 cmp) 40
      ||| placeField (BitVec.ofNat 8 idx) 32 ||| placeField val 0
  | .cbld yuv => opcodeBits 0x6 ||| placeField (BitVec.ofBool yuv) 0
  | .cmrd addr => opcodeBits 0x7 ||| placeField (BitVec.ofNat 13 addr) 32
  | .cmwr addr data => opcodeBits 0x8 ||| placeField (BitVec.ofNat 13 addr) 32 ||| placeField data 0
  | .rdsr idx => opcodeBits 0x9 ||| placeField (BitVec.ofNat 8 idx) 32
  | .rst => opcodeBits 0xA
  | .reservedB => opcodeBits 0xB
  | .reservedC => opcodeBits 0xC
  | .reservedD => opcodeBits 0xD
  | .reservedE => opcodeBits 0xE
  | .reservedF => opcodeBits 0xF

/-- The bits of the command word that R56 assigns to the opcode or to a field of the command with this opcode; the
others are the reserved bits of R58. -/
def assignedBits (op : Nat) : BitVec 64 :=
  match op with
  | 0x1 => 0xF000FFFF00FFFFFF#64
  | 0x2 => 0xF0000000FFFFFFFF#64
  | 0x3 => 0xF000000000000001#64
  | 0x4 => 0xF00000FFFFFFFFFF#64
  | 0x5 => 0xF00007FFFFFFFFFF#64
  | 0x6 => 0xF000000000000001#64
  | 0x7 => 0xF0001FFF00000000#64
  | 0x8 => 0xF0001FFFFFFFFFFF#64
  | 0x9 => 0xF00000FF00000000#64
  | _ => 0xF000000000000000#64

/-! ## Pseudo-commands of the assembler (R71), as the commands they stand for -/

/-- `SMP1 F, C, A`. -/
def pseudoSmp1 (f c : Byte) (a : S16) : List Instr := [.smp f c 0 a]
/-- `PAL`. -/
def pseudoPal : List Instr := [.smode false]
/-- `NTSC`. -/
def pseudoNtsc : List Instr := [.smode true]
/-- `REP k { ... }`. -/
def pseudoRep (k : Nat) (l : List Instr) : List Instr := (List.replicate k l).flatten
/-- `SETCC v0, ..., v13, YUV`, its fourteen values as a list. -/
def pseudoSetcc (v : List S32) (yuv : Bool) : List Instr :=
  (List.range 14).map (fun idx => .sccp idx (v.getD idx 0)) ++ [.cbld yuv]

end Sys2Proof
end

