-- ==== Sys2Proof/Machine/Memory.lean ====
section
/-! DEFINITION. The operations over one address space (20_memory.md R40, R43). A space has a fixed number of elements
and holds one value for each index, so an array of that length is its only form: equal contents are equal data. -/

namespace Sys2Proof.Machine

/-- The canonical form of a space of `n` elements: it holds exactly `n` values. -/
def Memory.wf {w : Nat} (n : Nat) (m : Memory w) : Bool := m.size == n

/-- The space of `n` elements whose element `i` is `f i`. (Irreducible, so that no unification unrolls a space;
`Memory.read_tabulate` says what it holds.) -/
@[irreducible] def Memory.tabulate {w : Nat} (n : Nat) (f : Nat → BitVec w) : Memory w := ((List.range n).map f).toArray

/-- `buf[all] <- v` for a space of `n` elements. -/
def Memory.fill {w : Nat} (n : Nat) (v : BitVec w) : Memory w := Memory.tabulate n fun _ => v

/-- `buf[i]` (00_scope.md R7). No VCAP operation reads outside a space (R43); such a read would answer 0. -/
def Memory.read {w : Nat} (m : Memory w) (i : Nat) : BitVec w := m.getD i 0

/-- `buf[i] <- v` (R7). No VCAP operation writes outside a space (R43); such a write would change nothing. -/
def Memory.write {w : Nat} (m : Memory w) (i : Nat) (v : BitVec w) : Memory w := m.setIfInBounds i v

/-- `buf[i] <- f i buf[i]` for every element. -/
def Memory.update {w : Nat} (m : Memory w) (f : Nat → BitVec w → BitVec w) : Memory w :=
  Memory.tabulate m.size fun i => f i (Memory.read m i)

/-- `buf[base + x] <- f x` for `x` in `0 .. n-1`. -/
def Memory.writeRange {w : Nat} (m : Memory w) (base n : Nat) (f : Nat → BitVec w) : Memory w :=
  Memory.update m fun i v => if base ≤ i ∧ i < base + n then f (i - base) else v

end Sys2Proof.Machine
end

