-- ==== Sys2Proof/Config.lean ====
section
/-! DEFINITION. The parameter record `Cfg` (00_scope.md R4, R5) with the records it holds, and the free value of the
model. The values of the reference instance stand in Machine/Reference.lean. -/

namespace Sys2Proof

/-- A `real` of the colormap build as the machine holds it (log entry 2): an exact expression. `RealExpr.val`
(Machine/Exact.lean) is the real number it stands for. -/
inductive RealExpr where
  | rat (q : Rat)
  | add (a b : RealExpr)
  | sub (a b : RealExpr)
  | mul (a b : RealExpr)
  | div (a b : RealExpr)
  /-- `x` if `a < b`, else `y` -/
  | ifLt (a b x y : RealExpr)
  | sqrt (a : RealExpr)
  /-- the cosine of an angle in degrees -/
  | cos (a : RealExpr)
  | pow (x e : RealExpr)
deriving DecidableEq, Repr

/-- What is known of a real number: that it lies between two rational numbers, or nothing. -/
inductive Encl where
  | within (lo hi : Rat)
  | unknown
deriving DecidableEq, Repr

/-- FREE VALUE (log entry 3): which way a number rounds that is so close to a rounding boundary that its enclosure does
not decide (41_colormap.md R101, U3). -/
opaque Config.freeRound : RealExpr → Int

/-- The arithmetic of the colormap build over one representation `R` of the `real` of 00_scope.md R6: the sums,
differences, products and quotients of its formulas, and the two more forms they use. -/
class Arith (R : Type) extends Add R, Sub R, Mul R, Div R where
  /-- a constant or a Q16.16 value as a number of the build -/
  ofRat : Rat → R
  /-- `ifLt a b x y`: `x` if `a < b`, else `y` -/
  ifLt : R → R → R → R → R

/-- Adding, subtracting and multiplying zeros gives zero. -/
structure Arith.KeepsZero {R : Type} (a : Arith R) : Prop where
  add_zero : letI := a; a.ofRat 0 + a.ofRat 0 = a.ofRat 0
  sub_zero : letI := a; a.ofRat 0 - a.ofRat 0 = a.ofRat 0
  zero_mul : letI := a; ∀ x : R, a.ofRat 0 * x = a.ofRat 0
  mul_zero : letI := a; ∀ x : R, x * a.ofRat 0 = a.ofRat 0

/-- The record `Numerics` of 41_colormap.md R101, over one representation `R` of the `real`: the only functions VCAP
uses that are not arithmetic, all in the colormap build. -/
structure Numerics (R : Type := RealExpr) where
  /-- sine of an angle in degrees -/
  sin : R → R
  /-- cosine of an angle in degrees -/
  cos : R → R
  /-- square root, used for arguments at least 0 -/
  sqrt : R → R
  /-- `pow x e`, used for `x` at least 0 and `e` above 0 -/
  pow : R → R → R
  /-- rounding to an integer -/
  rnd : R → Int

/-- What every `Numerics` instance must satisfy (R101), over the exact real numbers. -/
structure Numerics.Lawful (n : Numerics ℝ) : Prop where
  sin_zero : n.sin 0 = 0
  cos_zero : n.cos 0 = 1
  sqrt_zero : n.sqrt 0 = 0
  pow_zero : ∀ e, 0 < e → n.pow 0 e = 0
  pow_one_left : ∀ e, 0 < e → n.pow 1 e = 1
  pow_one_right : ∀ x, 0 ≤ x → n.pow x 1 = x
  rnd_int : ∀ k : Int, n.rnd k = k

/-- The state of the reference instance's rate converter (44_audio.md R196). -/
structure RsState where
  inRate : U32
  outRate : U32
  phase : U32
  prev : S16
deriving DecidableEq, Repr

/-- The record `Cfg.Resampler` (44_audio.md R195 (a)): the type `σ` of its states, which is any type, with `init inRate
outRate` and `step state sample`, pure and total. -/
structure Resampler (σ : Type := RsState) where
  init : Nat → Nat → σ
  step : σ → S16 → σ × List S16

/-- The states a converter can be in after `init inRate outRate`. -/
inductive Resampler.Reach {σ : Type} (r : Resampler σ) (inRate outRate : Nat) : σ → Prop where
  | init : Resampler.Reach r inRate outRate (r.init inRate outRate)
  | step (st : σ) (s : S16) : Resampler.Reach r inRate outRate st →
      Resampler.Reach r inRate outRate (r.step st s).1

/-- Clause (b) of R195: a step returns at most `ceil(outRate / inRate) + 1` samples. -/
def Resampler.Lawful {σ : Type} (r : Resampler σ) : Prop :=
  ∀ inRate outRate st s, 1 ≤ inRate → inRate < 2 ^ 32 → 1 ≤ outRate → outRate < 2 ^ 32 →
    r.Reach inRate outRate st → (r.step st s).2.length ≤ (outRate + inRate - 1) / inRate + 1

/-- One entry `BAND[b]` of the band table (41_colormap.md R108). That its phase and scales are rational numbers is a DESIGN
CHOICE (log entry 22). -/
structure BandRow where
  /-- phase shift in degrees -/
  phase : Rat
  yScale : Rat
  uScale : Rat
  vScale : Rat
  ntsc : Bool
  hasBurst : Bool
deriving DecidableEq, Repr

/-- The parameters `X[m]` of R5 for one mode `m`. -/
structure ModeCfg where
  lineLenNom : Nat
  lineLenMin : Nat
  lineLenMax : Nat
  lineStart : Nat
  hsyncPos : Nat
  /-- `VSYNC_THR2[m]` -/
  vsyncThr2 : Int
  /-- `VSYNC_RELOAD[m][0]` -/
  vsyncReloadEven : Int
  /-- `VSYNC_RELOAD[m][1]` -/
  vsyncReloadOdd : Int
  /-- `BAND_SYNC[m]` -/
  bandSync : Nat
  /-- `BAND_BURST[m]` -/
  bandBurst : Nat
deriving DecidableEq, Repr

/-- The record `Cfg` of R5. It is a parameter of the machine, not state (10_state.md R11). `R` is the representation of
the build's real numbers, `σ` the state type of the rate converter. R5 gives the parameters that need not be integers no
number type: that they are rational numbers is a DESIGN CHOICE (log entry 22). -/
structure Cfg (R : Type := RealExpr) (σ : Type := RsState) where
  videoWidth : Nat
  videoHeight : Nat
  frameRate : Nat
  sampleRate : Nat
  lineBufGroups : Nat
  vsyncRun : Nat
  burstMask : Byte
  burstPat : Byte
  clkReset : Nat
  /-- the parameters of mode PAL (`ntsc = 0`) -/
  pal : ModeCfg
  /-- the parameters of mode NTSC (`ntsc = 1`) -/
  ntsc : ModeCfg
  /-- `BAND[18]` -/
  band : List BandRow
  /-- `BAND_INDEX[32]` -/
  bandIndex : List Nat
  /-- `BAND_NOCOLOR[18]` -/
  bandNoColor : List Nat
  burstAmp : Rat
  chromaMax : Rat
  kRV : Rat
  kBU : Rat
  wR : Rat
  wG : Rat
  wB : Rat
  brMin : Rat
  brMax : Rat
  ctMin : Rat
  ctMax : Rat
  gmMin : Rat
  gmMax : Rat
  yOff : Rat
  yScale : Rat
  cOff : Rat
  uScale : Rat
  vScale : Rat
  /-- `PIX_T`, the width of a colormap element in bits: 16 or 32 -/
  pixT : Nat
  /-- the function `(R8, G8, B8) -> G8'` of the RGB16 dither (R107, U4) -/
  greenNudge : Nat → Nat → Nat → Nat
  /-- the arithmetic of the build's real numbers (R6) -/
  arith : Arith R
  numerics : Numerics R
  resampler : Resampler σ
  audioBias : Int

end Sys2Proof
end

