-- ==== Sys2Proof/Machine/Operands.lean ====
section
/-! DEFINITION. The operand forms of VCAP: the flag byte and the group (30_encoding.md R60, R61), the band selection
(R65), Q16.16 values and their clamp (R64), the packed pixels (R66 to R68) and the quantisation to them
(41_colormap.md R106, R107, R114), and mode-dependent parameters. -/

namespace Sys2Proof

variable {R σ : Type}

/-- `X[m]` of 00_scope.md R5: the parameters of the mode. -/
def Cfg.mode (c : Cfg R σ) (ntsc : Bool) : ModeCfg := if ntsc then c.ntsc else c.pal
/-- `VSYNC_RELOAD[m][p]` of R5. -/
def ModeCfg.vsyncReload (m : ModeCfg) (parity : Bool) : Int := if parity then m.vsyncReloadOdd else m.vsyncReloadEven
/-- `APF`, audio samples per output frame (R5). -/
def Cfg.apf (c : Cfg R σ) : Nat := c.sampleRate / c.frameRate
/-- `RING_CAP`, the ring capacity in samples (R5). -/
def Cfg.ringCap (c : Cfg R σ) : Nat := 8 * c.apf
/-- `NY` of 10_state.md section 6: elements of a luma plane. -/
def Cfg.ny (c : Cfg R σ) : Nat := c.videoWidth * c.videoHeight
/-- `NC` of 10_state.md section 6: elements of a chroma plane. -/
def Cfg.nc (c : Cfg R σ) : Nat := (c.videoWidth / 2) * (c.videoHeight / 2)
/-- `BAND[b]` (41_colormap.md R108). -/
def Cfg.bandRow (c : Cfg R σ) (b : Nat) : BandRow :=
  c.band.getD b { phase := 0, yScale := 0, uScale := 0, vScale := 0, ntsc := false, hasBurst := false }

namespace Machine

/-- `clamp(x, lo, hi)` of 00_scope.md R6. -/
def clampInt (x lo hi : Int) : Int := if x < lo then lo else if hi < x then hi else x

/-- A 1-bit value as a number. -/
def bit (b : Bool) : Nat := if b then 1 else 0

/-! ## The flag byte and the group -/

/-- Bit 7, `SYNC` (R61). -/
def flagSync (f : Byte) : Bool := f.getLsbD 7
/-- Bit 6, `BURST` (R61). -/
def flagBurst (f : Byte) : Bool := f.getLsbD 6
/-- Bits 5:2, `CTX` (R61). -/
def flagCtx (f : Byte) : Nat := (f.extractLsb' 2 4).toNat
/-- Bit 1, `PH` (R61). -/
def flagPhase (f : Byte) : Bool := f.getLsbD 1
/-- Bit 0, `HW` (R61). -/
def flagHalfWidth (f : Byte) : Bool := f.getLsbD 0
/-- `n(F)`, the number of meaningful colour bytes (R60). -/
def colourBytes (f : Byte) : Nat := if flagHalfWidth f then 2 else 1
/-- A burst sample: `(F & BURST_MASK) == BURST_PAT` (42_demodulator.md R141). -/
def isBurstSample (c : Cfg R σ) (f : Byte) : Bool := (f &&& c.burstMask) == c.burstPat

/-- `bandOf(m, p)` (30_encoding.md R65). -/
def bandOf (c : Cfg R σ) (ntsc : Bool) (p : Byte) : Nat :=
  if flagSync p then (c.mode ntsc).bandSync
  else if flagBurst p then (c.mode ntsc).bandBurst
  else c.bandIndex.getD (16 * bit ntsc + flagCtx p) 0

/-! ## Q16.16 parameter values -/

/-- The real value of a Q16.16 word (R64). -/
def qValue (x : S32) : Rat := (x.toInt : Rat) / 65536

/-- The integer `floor(b*65536 + 1/2)` of a clamp bound `b` (R64). -/
def qBound (b : Rat) : Int := (b * 65536 + 1 / 2).floor

/-- The least value of colour-correction field `idx` (10_state.md R15), for `idx` up to 13. -/
def ccpLo (c : Cfg R σ) (idx : Nat) : Rat :=
  match idx with
  | 0 | 5 | 8 | 11 => c.brMin
  | 1 | 6 | 9 | 12 => c.ctMin
  | 3 => -180
  | 4 => 0
  | _ => c.gmMin

/-- The greatest value of colour-correction field `idx` (10_state.md R15), for `idx` up to 13. -/
def ccpHi (c : Cfg R σ) (idx : Nat) : Rat :=
  match idx with
  | 0 | 5 | 8 | 11 => c.brMax
  | 1 | 6 | 9 | 12 => c.ctMax
  | 3 => 180
  | 4 => 2
  | _ => c.gmMax

/-- `clamp(sext(VAL), lo(IDX), hi(IDX))` (40_config_ops.md R85). -/
def ccpClamp (c : Cfg R σ) (idx : Nat) (val : S32) : S32 :=
  BitVec.ofInt 32 (clampInt val.toInt (qBound (ccpLo c idx)) (qBound (ccpHi c idx)))

/-! ## Packed pixels -/

/-- A corrected colour, each channel in `[0, 1]` (41_colormap.md section 2), over numbers of type `R`. -/
structure Rgb (R : Type) where
  r : R
  g : R
  b : R
deriving DecidableEq, Repr

/-- A luma and chroma triple over numbers of type `R`. -/
structure Yuv (R : Type) where
  y : R
  u : R
  v : R
deriving DecidableEq, Repr

/-- A rational constant as a number of the build (log entry 22). -/
def realOf (c : Cfg R σ) (q : Rat) : R := c.arith.ofRat q

/-- `clamp(rnd(x), 0, 255)` (R106, R114). -/
def quantise8 (c : Cfg R σ) (x : R) : Nat := (clampInt (c.numerics.rnd x) 0 255).toNat

/-- YUV32: the pixel word with V, U and Y in bits 23:16, 15:8 and 7:0 (30_encoding.md R66). -/
def packYuv32 (y u v : Byte) : Pixel := (0#8) ++ v ++ u ++ y

/-- RGB32: the pixel word with R, G and B in bits 23:16, 15:8 and 7:0 (R67). -/
def packRgb32 (r g b : Byte) : Pixel := (0#8) ++ r ++ g ++ b

/-- RGB16: R, G and B in bits 15:11, 10:5 and 4:0 (R68), zero-extended. -/
def packRgb16 (r : BitVec 5) (g : BitVec 6) (b : BitVec 5) : Pixel := (0#16) ++ r ++ g ++ b

/-- `y(pix)` (41_colormap.md R122). -/
def pixY (p : Pixel) : Byte := p.extractLsb' 0 8
/-- `u(pix)` (R122). -/
def pixU (p : Pixel) : Byte := p.extractLsb' 8 8
/-- `v(pix)` (R122). -/
def pixV (p : Pixel) : Byte := p.extractLsb' 16 8

/-- The three numbers whose roundings are `Y8`, `U8`, `V8` (R114). -/
def yuvLevels (c : Cfg R σ) (k : Rgb R) : Yuv R :=
  letI := c.arith
  let yq := realOf c c.wR * k.r + realOf c c.wG * k.g + realOf c c.wB * k.b
  let uq := (k.b - yq) / realOf c c.kBU
  let vq := (k.r - yq) / realOf c c.kRV
  { y := realOf c c.yOff + realOf c c.yScale * yq
    u := realOf c c.cOff + realOf c c.uScale * uq
    v := realOf c c.cOff + realOf c c.vScale * vq }

/-- The three numbers whose roundings are `R8`, `G8`, `B8` (R106). -/
def rgbLevels (c : Cfg R σ) (k : Rgb R) : Rgb R :=
  letI := c.arith
  { r := realOf c 255 * k.r, g := realOf c 255 * k.g, b := realOf c 255 * k.b }

/-- Quantisation to YUV32 (R114). -/
def quantiseYuv32 (c : Cfg R σ) (k : Rgb R) : Pixel :=
  let l := yuvLevels c k
  packYuv32 (BitVec.ofNat 8 (quantise8 c l.y)) (BitVec.ofNat 8 (quantise8 c l.u)) (BitVec.ofNat 8 (quantise8 c l.v))

/-- Quantisation to RGB32 (R106). -/
def quantiseRgb32 (c : Cfg R σ) (k : Rgb R) : Pixel :=
  let l := rgbLevels c k
  packRgb32 (BitVec.ofNat 8 (quantise8 c l.r)) (BitVec.ofNat 8 (quantise8 c l.g)) (BitVec.ofNat 8 (quantise8 c l.b))

/-- The dither rule of R107, the reference instance's `greenNudge`. -/
def refGreenNudge (r8 g8 b8 : Nat) : Nat :=
  let t := r8 % 8 + b8 % 8
  if 11 ≤ t then min (g8 + 4) 255 else if t ≤ 3 then g8 - 4 else g8

/-- Quantisation to RGB16 (R107): truncation, with the green channel nudged first. -/
def quantiseRgb16 (c : Cfg R σ) (k : Rgb R) : Pixel :=
  let l := rgbLevels c k
  let r8 := quantise8 c l.r
  let g8 := quantise8 c l.g
  let b8 := quantise8 c l.b
  packRgb16 (BitVec.ofNat 5 (r8 / 8)) (BitVec.ofNat 6 (c.greenNudge r8 g8 b8 / 4)) (BitVec.ofNat 5 (b8 / 8))

/-- `pack` of R112: the pixel format of the instance and of `actYuv`. -/
def packPixel (c : Cfg R σ) (actYuv : Bool) (k : Rgb R) : Pixel :=
  if actYuv then quantiseYuv32 c k
  else if c.pixT = 32 then quantiseRgb32 c k
  else quantiseRgb16 c k

/-- The lanes of a packed pixel as (lowest bit, width), lowest first (42_demodulator.md R153). -/
def pixelLanes (c : Cfg R σ) : List (Nat × Nat) :=
  if c.pixT = 32 then [(0, 8), (8, 8), (16, 8), (24, 8)] else [(0, 5), (5, 6), (11, 5)]

/-- One lane of `blend`: `(a_l*(W - f) + b_l*f + W div 2) div W` (R153). -/
def blendLane (a b f w : Nat) : Nat := (a * (w - f) + b * f + w / 2) / w

/-- The value of a pixel's lane. -/
def laneOf (p : Pixel) (lane : Nat × Nat) : Nat := p.toNat / 2 ^ lane.1 % 2 ^ lane.2

/-- `blend(a, b, f, W)`, lane by lane (R153). -/
def blend (c : Cfg R σ) (a b : Pixel) (f w : Nat) : Pixel :=
  BitVec.ofNat 32 ((pixelLanes c).map fun lane => blendLane (laneOf a lane) (laneOf b lane) f w * 2 ^ lane.1).sum

end Machine

end Sys2Proof
end

