-- ==== Sys2Proof/Machine/Colormap.lean ====
section
/-! DEFINITION. The colour-correction transform CC and the colormap build, as functions of their inputs
(41_colormap.md R100 to R113). -/

namespace Sys2Proof.Machine

variable {R σ : Type}

/-- `P.x` of field `idx`: the active parameter as a real (41_colormap.md, head). -/
def param (c : Cfg R σ) (act : Memory 32) (idx : Nat) : R := realOf c (qValue (Memory.read act idx))

/-- Rotation of a chroma vector by an angle in degrees, counter-clockwise (R102, R112). -/
def rotateChroma (c : Cfg R σ) (deg u v : R) : R × R :=
  letI := c.arith
  (u * c.numerics.cos deg - v * c.numerics.sin deg, u * c.numerics.sin deg + v * c.numerics.cos deg)

/-- CC step 1 (R102): hue rotation, then saturation. -/
def ccChroma (c : Cfg R σ) (act : Memory 32) (u v : R) : R × R :=
  letI := c.arith
  let r := rotateChroma c (param c act 3) u v
  (r.1 * param c act 4, r.2 * param c act 4)

/-- CC step 2 (R103): YUV to RGB. -/
def ccRgb (c : Cfg R σ) (y u v : R) : Rgb R :=
  letI := c.arith
  let r := y + realOf c c.kRV * v
  let b := y + realOf c c.kBU * u
  { r := r, g := (y - realOf c c.wR * r - realOf c c.wB * b) / realOf c c.wG, b := b }

/-- CC step 3 (R104) on one channel, whose own brightness, contrast and gamma are the fields `ch`, `ch + 1`, `ch + 2`. -/
def ccChannel (c : Cfg R σ) (act : Memory 32) (ch : Nat) (x : R) : R :=
  letI := c.arith
  let half := realOf c (1 / 2)
  let c1 := (x - half) * (param c act 1 * param c act (ch + 1)) + half
  let c2 := c1 + param c act 0 + param c act ch
  let c3 := Arith.ifLt c2 (realOf c 0) (realOf c 0) c2
  let c4 := c.numerics.pow c3 (realOf c 1 / (param c act 2 * param c act (ch + 2)))
  Arith.ifLt (realOf c 1) c4 (realOf c 1) c4

/-- The Color-Correction transform `CC(Y, U, V)` (R102 to R105). -/
def cc (c : Cfg R σ) (act : Memory 32) (y u v : R) : Rgb R :=
  let uv := ccChroma c act u v
  let k := ccRgb c y uv.1 uv.2
  { r := ccChannel c act 5 k.r, g := ccChannel c act 8 k.g, b := ccChannel c act 11 k.b }

/-- The place of `idxYUV[n][i][cmp]` in the table of 10_state.md R16. -/
def idxYuvAt (ntsc : Bool) (i cmp : Nat) : Nat := (256 * bit ntsc + i) * 3 + cmp

/-- The base triple (R111). -/
def baseTriple (c : Cfg R σ) (idxYuv : Memory 32) (ntsc : Bool) (i : Nat) : Yuv R where
  y := realOf c (qValue (Memory.read idxYuv (idxYuvAt ntsc i 0)))
  u := realOf c (qValue (Memory.read idxYuv (idxYuvAt ntsc i 1)))
  v := realOf c (qValue (Memory.read idxYuv (idxYuvAt ntsc i 2)))

/-- Burst injection (R112): at 180 degrees in an NTSC band, 135 in a PAL band. -/
def injectBurst (c : Cfg R σ) (row : BandRow) (u v : R) : R × R :=
  letI := c.arith
  if row.hasBurst then
    let bp := realOf c (if row.ntsc then 180 else 135)
    (u + realOf c c.burstAmp * c.numerics.cos bp, v + realOf c c.burstAmp * c.numerics.sin bp)
  else (u, v)

/-- Chroma limiting, in every band (R112). -/
def limitChroma (c : Cfg R σ) (u v : R) : R × R :=
  letI := c.arith
  let top := realOf c c.chromaMax
  let mag := c.numerics.sqrt (u * u + v * v)
  (Arith.ifLt top mag (u * top / mag) u, Arith.ifLt top mag (v * top / mag) v)

/-- The colour of band `row` and index `i`, before the pixel format (R112, in the order of R100; log entry 10). -/
def bandColour (c : Cfg R σ) (act idxYuv : Memory 32) (row : BandRow) (i : Nat) : Rgb R :=
  letI := c.arith
  let base := baseTriple c idxYuv row.ntsc i
  let inj := injectBurst c row base.u base.v
  let lim := limitChroma c inj.1 inj.2
  let rot := rotateChroma c (realOf c row.phase) lim.1 lim.2
  cc c act (base.y * realOf c row.yScale) (rot.1 * realOf c row.uScale) (rot.2 * realOf c row.vScale)

/-- The entry of band `b` and colour index `i` (R112). -/
def colormapEntry (c : Cfg R σ) (act : Memory 32) (actYuv : Bool) (idxYuv : Memory 32) (b i : Nat) : Pixel :=
  packPixel c actYuv (bandColour c act idxYuv (c.bandRow b) i)

/-- CM_BUILD, data (R112): all 4608 entries, at `b*256 + i`. -/
def buildData (c : Cfg R σ) (act : Memory 32) (actYuv : Bool) (idxYuv : Memory 32) : Memory 32 :=
  Memory.tabulate 4608 fun k => colormapEntry c act actYuv idxYuv (k / 256) (k % 256)

/-- CM_BUILD, table (R113): the band of every pattern. -/
def buildTable (c : Cfg R σ) (ntsc : Bool) : Memory 5 :=
  Memory.tabulate 256 fun p => BitVec.ofNat 5 (bandOf c ntsc (BitVec.ofNat 8 p))

end Sys2Proof.Machine
end

