-- ==== Sys2Proof/Machine/Planar.lean ====
section
/-! DEFINITION. Planar 4:2:0 pictures and PLANAR (43_frame_resampler.md R171, R172; 10_state.md R34). -/

namespace Sys2Proof.Machine

variable {R σ : Type}

/-- The three planes of a picture: `NY` luma elements and twice `NC` chroma elements of `w` bits (R34). -/
structure Planes (w : Nat) where
  y : Memory w
  v : Memory w
  u : Memory w
deriving DecidableEq, Repr

/-- Every element of every plane is `x`. -/
def Planes.fill {w : Nat} (c : Cfg R σ) (x : BitVec w) : Planes w where
  y := Memory.fill c.ny x
  v := Memory.fill c.nc x
  u := Memory.fill c.nc x

/-- The planes have the sizes of R34. -/
def Planes.wf {w : Nat} (c : Cfg R σ) (p : Planes w) : Bool :=
  Memory.wf c.ny p.y && Memory.wf c.nc p.v && Memory.wf c.nc p.u

/-- The rounded mean of four chroma bytes (R171). -/
def mean4 (a b cc d : Byte) : Byte := BitVec.ofNat 8 ((a.toNat + b.toNat + cc.toNat + d.toNat + 2) / 4)

/-- A chroma element of PLANAR: the mean of the channel over the 2×2 block of element `k` (R171). -/
def chromaAt (c : Cfg R σ) (buf : Memory 32) (channel : Pixel → Byte) (k : Nat) : Byte :=
  let w := c.videoWidth
  let r := k / (w / 2)
  let x := k % (w / 2)
  mean4 (channel (Memory.read buf ((2 * r) * w + 2 * x))) (channel (Memory.read buf ((2 * r) * w + 2 * x + 1)))
    (channel (Memory.read buf ((2 * r + 1) * w + 2 * x))) (channel (Memory.read buf ((2 * r + 1) * w + 2 * x + 1)))

/-- PLANAR(buf) (R171). -/
def planar (c : Cfg R σ) (buf : Memory 32) : Planes 8 where
  y := Memory.tabulate c.ny fun k => pixY (Memory.read buf k)
  v := Memory.tabulate c.nc (chromaAt c buf pixV)
  u := Memory.tabulate c.nc (chromaAt c buf pixU)

end Sys2Proof.Machine
end

