-- ==== Sys2Proof/Machine/Numerics.lean ====
section
/-! DEFINITION. The real numbers of the colormap build as the machine computes them (00_scope.md R6; 41_colormap.md
R101; log entries 2 and 3): exact expressions, rational wherever they can be, which are compared and rounded by enclosing
them between rational numbers. Laws/Enclosure.lean proves that every operation here means the exact one of
Machine/Exact.lean, and that the enclosures enclose. -/

namespace Sys2Proof

/-! ## Enclosures: arithmetic -/

/-- A number known exactly. -/
def Encl.exactly (q : Rat) : Encl := .within q q

/-- The least enclosure of both. -/
def Encl.hull : Encl → Encl → Encl
  | .within a b, .within c d => .within (min a c) (max b d)
  | _, _ => .unknown

def Encl.add : Encl → Encl → Encl
  | .within a b, .within c d => .within (a + c) (b + d)
  | _, _ => .unknown

def Encl.sub : Encl → Encl → Encl
  | .within a b, .within c d => .within (a - d) (b - c)
  | _, _ => .unknown

/-- A product; with a factor that is exactly 0 it is 0, whatever the other factor. -/
def Encl.mul (x y : Encl) : Encl :=
  if x = .exactly 0 ∨ y = .exactly 0 then .exactly 0
  else
    match x, y with
    | .within a b, .within c d =>
      .within (min (min (a * c) (a * d)) (min (b * c) (b * d))) (max (max (a * c) (a * d)) (max (b * c) (b * d)))
    | _, _ => .unknown

/-- The inverse of a number known not to be 0. -/
def Encl.inv : Encl → Encl
  | .within a b => if 0 < a ∨ b < 0 then .within (1 / b) (1 / a) else .unknown
  | .unknown => .unknown

def Encl.div (x y : Encl) : Encl := x.mul y.inv

namespace Machine

/-! ## Enclosures: square roots -/

/-- Newton's iteration for the square root of `n`, downwards from `x`, for as long as it falls and at most so often. -/
def newtonSqrt (n : Nat) : Nat → Nat → Nat
  | 0, x => x
  | k + 1, x => if (x + n / x) / 2 < x then newtonSqrt n k ((x + n / x) / 2) else x

/-- How fine the enclosures of irrational numbers are: multiples of `2^-gridBits`. -/
def gridBits : Nat := 96

/-- An enclosure of the square root of `x ≥ 0` on the grid. The test makes it right however the candidate is found. -/
def gridSqrt (x : Rat) : Encl :=
  let n := (x * 4 ^ gridBits).floor.toNat
  let r := newtonSqrt n 40 (2 ^ (Nat.log2 n / 2 + 1))
  if r * r ≤ n ∧ n < (r + 1) * (r + 1) then .within ((r : Rat) / 2 ^ gridBits) (((r + 1 : Nat) : Rat) / 2 ^ gridBits)
  else .unknown

/-- The bits `2^(k-1) … 2^0` of the greatest `r` with `r^q ≤ n`, added to `r`. -/
def rootBits (q n : Nat) : Nat → Nat → Nat
  | 0, r => r
  | k + 1, r => if (r + 2 ^ k) ^ q ≤ n then rootBits q n k (r + 2 ^ k) else rootBits q n k r

/-- The floor of the `q`-th root of `n`, for `q` at least 1. -/
def floorRoot (q n : Nat) : Nat := rootBits q n (Nat.log2 n / q + 1) 0

/-- The `q`-th root of `x ≥ 0` where it is rational. A rational other than 0 and 1 that is a `q`-th power has a
numerator or a denominator of at least `2^q`, so a larger `q` is answered at once. -/
def ratRoot (q : Nat) (x : Rat) : Option Rat :=
  if x = 0 then some 0
  else if x = 1 then some 1
  else if Nat.log2 x.num.toNat < q && Nat.log2 x.den < q then none
  else
    let a := floorRoot q x.num.toNat
    let b := floorRoot q x.den
    if a ^ q = x.num.toNat ∧ b ^ q = x.den then some ((a : Rat) / (b : Rat)) else none

/-- The square root, which grows with its argument; 0 below 0 (R101). -/
def enclSqrt : Encl → Encl
  | .within a b => (gridSqrt (max a 0)).hull (gridSqrt (max b 0))
  | .unknown => .unknown

/-- The least enclosure whose ends are on the grid. -/
def coarsen : Encl → Encl
  | .within a b => .within ((a * 2 ^ gridBits).floor / 2 ^ gridBits) ((b * 2 ^ gridBits).ceil / 2 ^ gridBits)
  | .unknown => .unknown

/-! ## Enclosures: cosines -/

/-- How many bits of an angle, in half turns, and of an exponent the two loops below use. -/
def loopBits : Nat := 48

/-- Cosine and sine of the angle `C, S` plus the lowest `k` bits of `m`, where `c` is the cosine of the angle of bit `k`:
each turn halves that angle, and adds it where the bit is set. -/
def turnLoop (m : Nat) : Nat → Encl → Encl × Encl → Encl × Encl
  | 0, _, cs => cs
  | k + 1, c, cs =>
    let half := Encl.exactly (1 / 2)
    let c' := enclSqrt (((Encl.exactly 1).add c).mul half)
    let s' := enclSqrt (((Encl.exactly 1).sub c).mul half)
    turnLoop m k c'
      (if m.testBit k then
        (coarsen ((cs.1.mul c').sub (cs.2.mul s')), coarsen ((cs.2.mul c').add (cs.1.mul s')))
      else cs)

/-- The cosine of an angle in degrees where it is a rational number: at the multiples of 60 and 90. -/
def ratCos (d : Rat) : Option Rat :=
  if d.den = 1 then
    match (d.num % 360).toNat with
    | 0 => some 1
    | 60 => some (1 / 2)
    | 90 => some 0
    | 120 => some (-1 / 2)
    | 180 => some (-1)
    | 240 => some (-1 / 2)
    | 270 => some 0
    | 300 => some (1 / 2)
    | _ => none
  else none

/-- Whether the cosine of an angle in degrees is the root of 1/2 (`some true`), or its opposite (`some false`). -/
def diagCos (d : Rat) : Option Bool :=
  if d.den = 1 then
    match (d.num % 360).toNat with
    | 45 => some true
    | 135 => some false
    | 225 => some false
    | 315 => some true
    | _ => none
  else none

/-- The angle of `d` degrees in units of `2^-loopBits` half turns, less whole turns, rounded down. -/
def angleUnits (d : Rat) : Nat := ((d / 180 - 2 * (d / 360).floor) * 2 ^ loopBits).floor.toNat

/-- An enclosure of the cosine of `d` degrees at any angle. The angle of the loop is less than `2^-loopBits` half turns
below. -/
def loopCos (d : Rat) : Encl :=
  let start : Encl := if 2 ^ loopBits ≤ angleUnits d then .exactly (-1) else .exactly 1
  (turnLoop (angleUnits d) loopBits (.exactly (-1)) (start, .exactly 0)).1.add
    (.within (-4 / 2 ^ loopBits) (4 / 2 ^ loopBits))

/-- The cosine (R101); every angle of the build is known exactly. -/
def enclCos : Encl → Encl
  | .within a b => if a = b then loopCos a else .unknown
  | .unknown => .unknown

/-! ## Enclosures: powers -/

/-- `acc` times `x` to the lowest `k` bits of `m`, and times any power up to the one after: `r` is the root of `x` of bit
`k`. -/
def powLoop (m : Nat) : Nat → Encl → Encl → Encl
  | 0, r, acc => acc.hull (coarsen (acc.mul r))
  | k + 1, r, acc =>
    let r' := enclSqrt r
    powLoop m k r' (if m.testBit k then coarsen (acc.mul r') else acc)

/-- An enclosure of `x^e` for rational `x ≥ 0` and `e > 0`. -/
def ratPow (x e : Rat) : Encl :=
  if x = 0 then .exactly 0
  else
    let m := (e * 2 ^ loopBits).floor.toNat
    powLoop m loopBits (.exactly x) (coarsen (.exactly (x ^ (m / 2 ^ loopBits))))

/-- The power of a base at least 0 (R101), which grows with its base; every exponent of the build is known exactly. -/
def enclPow : Encl → Encl → Encl
  | .within a b, .within e e' =>
    if e = e' ∧ 0 < e then (ratPow (max a 0) e).hull (ratPow (max b 0) e) else .unknown
  | _, _ => .unknown

/-! ## What is known of an expression -/

/-- The enclosure of an expression, operation by operation. -/
def encl : RealExpr → Encl
  | .rat q => .exactly q
  | .add a b => (encl a).add (encl b)
  | .sub a b => (encl a).sub (encl b)
  | .mul a b => (encl a).mul (encl b)
  | .div a b => (encl a).div (encl b)
  | .ifLt _ _ x y => (encl x).hull (encl y)
  | .sqrt a => enclSqrt (encl a)
  | .cos a => enclCos (encl a)
  | .pow x e => enclPow (encl x) (encl e)

/-- A linear form: a rational number plus rational multiples of expressions. -/
structure LinForm where
  const : Rat
  terms : List (Rat × RealExpr)
deriving DecidableEq, Repr

/-- Add `k` times the expression `e` to the terms, to its own term where it has one. -/
def addTerm (k : Rat) (e : RealExpr) : List (Rat × RealExpr) → List (Rat × RealExpr)
  | [] => [(k, e)]
  | (q, f) :: rest => if e = f then (q + k, f) :: rest else (q, f) :: addTerm k e rest

/-- Add `k` times an expression to a linear form: sums and rational multiples are spread over the form. -/
def addScaled : RealExpr → Rat → LinForm → LinForm
  | .rat q, k, l => { l with const := l.const + k * q }
  | .add a b, k, l => addScaled b k (addScaled a k l)
  | .sub a b, k, l => addScaled b (-k) (addScaled a k l)
  | .mul (.rat q) b, k, l => addScaled b (k * q) l
  | .mul a (.rat q), k, l => addScaled a (k * q) l
  | .div a (.rat q), k, l => addScaled a (k / q) l
  | e, k, l => { l with terms := addTerm k e l.terms }

/-- The enclosure of a linear form. -/
def LinForm.encl (l : LinForm) : Encl :=
  l.terms.foldl (fun acc t => acc.add ((Encl.exactly t.1).mul (Machine.encl t.2))) (.exactly l.const)

/-- What is known of an expression: the enclosure of its linear form, in which equal irrational parts cancel. -/
def known (e : RealExpr) : Encl := (addScaled e 1 { const := 0, terms := [] }).encl

/-! ## Expressions -/

def realAdd : RealExpr → RealExpr → RealExpr
  | .rat a, .rat b => .rat (a + b)
  | a, b => .add a b

def realSub : RealExpr → RealExpr → RealExpr
  | .rat a, .rat b => .rat (a - b)
  | a, b => .sub a b

def realMul (x y : RealExpr) : RealExpr :=
  if x = .rat 0 ∨ y = .rat 0 then .rat 0
  else
    match x, y with
    | .rat a, .rat b => .rat (a * b)
    | _, _ => .mul x y

def realDiv : RealExpr → RealExpr → RealExpr
  | .rat a, .rat b => .rat (a / b)
  | a, b => .div a b

/-- A choice, made where what is known of the difference decides it. -/
def realIfLt (a b x y : RealExpr) : RealExpr :=
  match known (realSub a b) with
  | .within lo hi => if hi < 0 then x else if 0 ≤ lo then y else .ifLt a b x y
  | .unknown => .ifLt a b x y

/-- The arithmetic of the machine's real numbers. -/
@[reducible] def realArith : Arith RealExpr where
  add := realAdd
  sub := realSub
  mul := realMul
  div := realDiv
  ofRat := .rat
  ifLt := realIfLt

/-- The square root (R101), rational where it can be. -/
def realSqrt : RealExpr → RealExpr
  | .rat q =>
    match ratRoot 2 (max q 0) with
    | some r => .rat r
    | none => .sqrt (.rat q)
  | a => .sqrt a

/-- The cosine (R101), without a cosine at the multiples of 45, 60 and 90 degrees. -/
def realCos : RealExpr → RealExpr
  | .rat d =>
    match ratCos d, diagCos d with
    | some r, _ => .rat r
    | none, some true => .sqrt (.rat (1 / 2))
    | none, some false => .sub (.rat 0) (.sqrt (.rat (1 / 2)))
    | none, none => .cos (.rat d)
  | a => .cos a

/-- The sine (R101): the cosine a quarter turn back. -/
def realSin (a : RealExpr) : RealExpr := realCos (realSub a (.rat 90))

/-- The power of a base at least 0 (R101), rational where it can be. -/
def realPow (x e : RealExpr) : RealExpr :=
  if e = .rat 1 then x
  else
    match x, e with
    | .rat q, .rat p =>
      if 0 < p ∧ (q = 0 ∨ q = 1) then .rat q
      else if 0 < p ∧ 0 < q then
        match ratRoot p.den q with
        | some r => .rat (r ^ p.num.toNat)
        | none => .pow x e
      else .pow x e
    | _, _ => .pow x e

/-! ## Rounding -/

/-- `rnd(x) = floor(x + 1/2)` of the reference instance (R101), on a rational number. -/
def ratRnd (x : Rat) : Int := (x + 1 / 2).floor

/-- Rounding: where both ends of what is known round to one integer, that integer; elsewhere a free value between the
two (log entry 3). -/
def realRnd (e : RealExpr) : Int :=
  match known e with
  | .within a b => if ratRnd a = ratRnd b then ratRnd a else max (ratRnd a) (min (Config.freeRound e) (ratRnd b))
  | .unknown => Config.freeRound e

/-- What is known of the number decides how it rounds. -/
def roundingDecided (e : RealExpr) : Bool :=
  match known e with
  | .within a b => ratRnd a == ratRnd b
  | .unknown => false

/-- The functions of R101 on the machine's real numbers. -/
def realNumerics : Numerics where
  sin := realSin
  cos := realCos
  sqrt := realSqrt
  pow := realPow
  rnd := realRnd

end Machine

end Sys2Proof
end

