-- ==== Sys2Proof/Machine/Resampler.lean ====
section
/-! DEFINITION. The reference rate converter `Cfg0.Resampler` (44_audio.md R196). -/

namespace Sys2Proof.Machine

/-- `init(inRate, outRate)` (R196). -/
def refResamplerInit (inRate outRate : Nat) : RsState where
  inRate := BitVec.ofNat 32 inRate
  outRate := BitVec.ofNat 32 outRate
  phase := 0
  prev := 0

/-- One output sample, `ph` units before the input sample `s` (R196): linear interpolation between `prev` and `s`,
rounded toward minus infinity after the half. -/
def refResamplerOut (outRate : Nat) (prev s : S16) (ph : Nat) : S16 :=
  BitVec.ofInt 16 (Int.fdiv (s.toInt * ((outRate : Int) - ph) + prev.toInt * ph + (outRate / 2 : Nat)) outRate)

/-- `step(st, s)` (R196). The loop runs once for each whole `inRate` in `phase + outRate`; its turn `k` works at
`ph = phase + outRate - (k+1)*inRate`. -/
def refResamplerStep (st : RsState) (s : S16) : RsState × List S16 :=
  let total := st.phase.toNat + st.outRate.toNat
  ({ st with phase := BitVec.ofNat 32 (total % st.inRate.toNat), prev := s },
    (List.range (total / st.inRate.toNat)).map fun k =>
      refResamplerOut st.outRate.toNat st.prev s (total - (k + 1) * st.inRate.toNat))

/-- The reference instance's converter. -/
def refResampler : Resampler where
  init := refResamplerInit
  step := refResamplerStep

end Sys2Proof.Machine
end

