-- ==== Sys2Proof/Machine/Reference.lean ====
section
/-! DEFINITION. The constraints on a configuration and the reference instance `Cfg0` (00_scope.md R5; 41_colormap.md
R108 to R110), which `Machine.exec` runs (log entry 1). -/

namespace Sys2Proof

variable {R σ : Type}

/-- The constraints of R5 on the parameters of one mode. -/
def ModeCfg.wf (m : ModeCfg) (c : Cfg R σ) : Bool :=
  decide (c.videoWidth = 4 * (m.lineLenNom - m.lineStart)) &&
  decide (m.lineLenMin ≤ m.lineLenNom) && decide (m.lineLenNom ≤ m.lineLenMax) &&
  decide (m.lineStart + 1 ≤ m.lineLenMin) && decide (4 ≤ m.lineLenMin) &&
  decide (m.lineLenMax ≤ c.lineBufGroups + m.lineStart) &&
  decide (m.hsyncPos < m.lineStart) && decide (1 ≤ m.hsyncPos) &&
  decide (0 < m.vsyncThr2) && decide (m.vsyncReloadEven < 0) && decide (m.vsyncReloadOdd < 0) &&
  decide (m.bandSync < 18) && decide (m.bandBurst < 18)

/-- The constraints of R5 and R108 that a computation can check. -/
def Cfg.wf (c : Cfg R σ) : Bool :=
  c.pal.wf c && c.ntsc.wf c &&
  decide (c.videoWidth % 2 = 0) && decide (c.videoHeight % 2 = 0) &&
  decide (0 < c.sampleRate) && decide (0 < c.frameRate) && decide (c.sampleRate % c.frameRate = 0) &&
  decide (c.vsyncRun = 26) && decide (8 ≤ c.clkReset) && decide (c.chromaMax = 21 / 100) &&
  decide (c.wG ≠ 0) && decide (0 < c.gmMin) && (decide (c.pixT = 16) || decide (c.pixT = 32)) &&
  decide (c.band.length = 18) && decide (c.bandIndex.length = 32) && decide (c.bandNoColor.length = 18) &&
  c.bandIndex.all (fun b => decide (b < 18)) && c.bandNoColor.all (fun b => decide (b < 18)) &&
  decide ((c.bandRow 7).yScale = 0) && decide ((c.bandRow 7).uScale = 0) && decide ((c.bandRow 7).vScale = 0) &&
  !(c.bandRow 7).hasBurst

namespace Machine

/-- One row of the reference band table. -/
def refBand (phase yScale uScale vScale : Rat) (ntsc hasBurst : Bool) : BandRow :=
  { phase, yScale, uScale, vScale, ntsc, hasBurst }

/-- `BAND[0..17]` of the reference instance (R108). -/
def refBands : List BandRow :=
  [ refBand 0 1 1 1 false false, refBand 0 1 1 (-1) false false, refBand 90 1 1 1 false false,
    refBand 180 1 1 1 false false, refBand 270 1 1 1 false false, refBand 0 1 (1 / 2) (1 / 2) false false,
    refBand 0 1 0 0 false false, refBand 0 0 0 0 false false, refBand 0 0 1 1 false true,
    refBand 0 1 1 1 true false, refBand 45 1 1 1 true false, refBand 90 1 1 1 true false,
    refBand 180 1 1 1 true false, refBand 270 1 1 1 true false, refBand 0 1 (1 / 2) (1 / 2) true false,
    refBand 0 1 0 0 true false, refBand 0 0 0 0 true false, refBand 0 0 1 1 true true ]

/-- `BAND_INDEX[j] = (j & 7) + 9*(j >> 4)` (R109). -/
def refBandIndex : List Nat := (List.range 32).map fun j => j % 8 + 9 * (j / 16)

/-- `BAND_NOCOLOR[b]` (R110). -/
def refBandNoColor : List Nat :=
  (List.range 18).map fun b => if b ≤ 5 then 6 else if 9 ≤ b ∧ b ≤ 14 then 15 else b

/-- The reference parameters of mode PAL (R5, R109). -/
def refPal : ModeCfg where
  lineLenNom := 114
  lineLenMin := 110
  lineLenMax := 118
  lineStart := 18
  hsyncPos := 6
  vsyncThr2 := 250
  vsyncReloadEven := -20
  vsyncReloadOdd := -21
  bandSync := 7
  bandBurst := 8

/-- The reference parameters of mode NTSC (R5, R109). -/
def refNtsc : ModeCfg where
  lineLenNom := 114
  lineLenMin := 111
  lineLenMax := 117
  lineStart := 18
  hsyncPos := 6
  vsyncThr2 := 210
  vsyncReloadEven := -18
  vsyncReloadOdd := -19
  bandSync := 7
  bandBurst := 17

/-- The reference instance (R5), over the real numbers' representation `R` with its arithmetic and functions. -/
def refCfg (arith : Arith R) (numerics : Numerics R) : Cfg R where
  videoWidth := 384
  videoHeight := 288
  frameRate := 50
  sampleRate := 48000
  lineBufGroups := 128
  vsyncRun := 26
  burstMask := 0xC0
  burstPat := 0x40
  clkReset := 1773448
  pal := refPal
  ntsc := refNtsc
  band := refBands
  bandIndex := refBandIndex
  bandNoColor := refBandNoColor
  burstAmp := 1 / 5
  chromaMax := 21 / 100
  kRV := 1000 / 877
  kBU := 1000 / 492
  wR := 299 / 1000
  wG := 587 / 1000
  wB := 114 / 1000
  brMin := -1 / 2
  brMax := 1 / 2
  ctMin := 1 / 2
  ctMax := 2
  gmMin := 1 / 4
  gmMax := 4
  yOff := 16
  yScale := 219
  cOff := 128
  uScale := 224000 / 872
  vScale := 224000 / 1230
  pixT := 32
  greenNudge := refGreenNudge
  arith := arith
  numerics := numerics
  resampler := refResampler
  audioBias := 4

/-- The reference instance `Cfg0` (R5), over the machine's real numbers (log entries 2 and 3). -/
def cfg0 : Cfg := refCfg realArith realNumerics

end Machine

end Sys2Proof
end

