-- ==== Sys2Proof/Machine/State.lean ====
section
/-! DEFINITION. The state of VCAP (10_state.md R12 to R36), its ports (R37, R38), the outcomes of a step, and reset
(70_reset_and_hazards.md R231). -/

namespace Sys2Proof.Machine

/-- Why a step faults: never. VCAP raises no exception and has no cause code (60_exceptions.md R210), so this type has
no constructor, which is safe: no outcome of the machine is hidden behind it. -/
inductive Fault where
deriving DecidableEq, Repr

/-- Why a step is refused. -/
inductive Refusal where
  /-- Raised by `exec` for a command of the opcode table that has no meaning yet; safe. No arm of `exec` raises it:
  every command has its meaning. -/
  | notModelled (mnemonic : String)
deriving DecidableEq, Repr

/-- What the host can do to VCAP. -/
inductive HostInput where
  /-- present a command word on the command port (R37) -/
  | command (word : BitVec 64)
  /-- assert the hardware reset input (70_reset_and_hazards.md R230) -/
  | resetInput
deriving DecidableEq, Repr

/-- What VCAP sends to the sink (R38; 30_encoding.md R69). -/
inductive Event where
  /-- one output frame: the planes Y, V, U in row-major order, then `APF` audio samples, oldest first -/
  | frameOut (y v u : Memory 8) (audio : Memory 16)
  /-- the answer of CMRD or RDSR -/
  | readData (v : U32)
deriving DecidableEq, Repr

/-- The sync state (R21 to R31): what SMODE resets. -/
structure SyncState where
  /-- R21 -/
  syncLengthCnt : U32
  /-- R22 -/
  hsyncCnt : U32
  /-- R23 -/
  hsyncPeriodInt : U32
  /-- R24, unsigned Q16.16 -/
  lineLengthFilter : U32
  /-- R25 -/
  lineLength : U32
  /-- R26 -/
  lineCnt : U32
  /-- R27 -/
  lineBuf : Memory 8
  /-- R27 -/
  lineBufBytes : U16
  /-- R27 -/
  lineBufGroups : U16
  /-- R28: bit 0 `odd`, bit 1 `burst` -/
  lineFlags : BitVec 2
  /-- R29, signed -/
  vsyncCnt : S32
  /-- R30: `true` is the odd field -/
  fieldParity : Bool
  /-- R31, signed -/
  curLine : S32
deriving DecidableEq, Repr

/-- The audio path (R32, R36), with a rate converter whose states are of type `σ`. -/
structure AudioState (σ : Type := RsState) where
  /-- R32, signed -/
  audioSum : S32
  /-- R32 -/
  audioCnt : BitVec 3
  /-- R36: the rate converter, of the type `Cfg.Resampler.State` -/
  rs : σ
  /-- R36 -/
  ring : Memory 16
  /-- R36: an index -/
  ringRd : Nat
  /-- R36: an index -/
  ringWr : Nat
  /-- R36: the live samples, 0 to `RING_CAP` -/
  ringCount : Nat
  /-- R36: accepted samples since the last boundary -/
  accCnt : Nat
deriving DecidableEq, Repr

/-- The frame buffers other than `videoBuf` (R34) and the Frame Resampler registers (R35). -/
structure FrameState where
  frameBuf0 : Planes 8
  frameBuf1 : Planes 8
  interpBuf : Planes 32
  outBuf : Planes 8
  frame0Time : U64
  frame1Time : U64
  interpTime : U64
  outTime : U64
  /-- eight slots of boundary cycles, the oldest in slot 0 -/
  bndFifo : Memory 64
  /-- how many slots are pending, 0 to 8 -/
  bndCount : Nat
  framesOut : U32
deriving DecidableEq, Repr

/-- The machine: the state the spec gives VCAP, and its two ports, which are the model's own (log entry 6). `σ` is the
state type of the configuration's rate converter; `State` alone is that of the reference instance. -/
structure State (σ : Type := RsState) where
  /-- R13 -/
  clockFreq : U32
  /-- R14: `true` is NTSC -/
  ntsc : Bool
  /-- R15: 14 staged parameters -/
  ccp : Memory 32
  /-- R16: 1536 values, `idxYUV[n][i][c]` at `(256*n + i)*3 + c` -/
  idxYuv : Memory 32
  /-- R17: 14 active parameters -/
  act : Memory 32
  /-- R17 -/
  actYuv : Bool
  /-- R18: 4608 pixels -/
  colormapData : Memory 32
  /-- R19: 256 band numbers -/
  colormapTable : Memory 5
  /-- R21 to R31 -/
  sync : SyncState
  /-- R32, R36 -/
  audio : AudioState σ
  /-- R33 -/
  cycleCnt : U64
  /-- R34: `NY` pixels -/
  videoBuf : Memory 32
  /-- R34, R35 -/
  frame : FrameState
  /-- MODEL's own: what the host will present next, oldest first (R12, R37) -/
  input : List HostInput
  /-- MODEL's own: the events emitted so far, oldest first (R38) -/
  events : List Event
deriving DecidableEq, Repr

variable {R σ : Type}

/-- The neutral colour-correction parameters (R15): 1.0 for contrast, gamma and saturation, 0.0 for the others. -/
def neutralCcp : Memory 32 :=
  #[0, 65536, 65536, 0, 65536, 0, 65536, 65536, 0, 65536, 65536, 0, 65536, 65536]

/-- The identity greyscale of R16: `Y = (i*65536 + 127) div 255`, `U = V = 0`, in both modes. -/
def identityIdxYuv : Memory 32 :=
  Memory.tabulate 1536 fun k => if k % 3 = 0 then BitVec.ofNat 32 ((k / 3 % 256 * 65536 + 127) / 255) else 0

/-- The sync state that a mode change and reset leave (R21 to R31; 40_config_ops.md R84), over the bytes `buf` of the
line buffer. -/
def SyncState.initial (c : Cfg R σ) (ntsc : Bool) (buf : Memory 8) : SyncState :=
  let m := c.mode ntsc
  { syncLengthCnt := 0
    hsyncCnt := 0
    hsyncPeriodInt := BitVec.ofNat 32 m.lineLenNom
    lineLengthFilter := BitVec.ofNat 32 (m.lineLenNom * 65536)
    lineLength := BitVec.ofNat 32 m.lineLenNom
    lineCnt := 0
    lineBuf := buf
    lineBufBytes := 0
    lineBufGroups := 0
    lineFlags := 0
    vsyncCnt := BitVec.ofInt 32 m.vsyncThr2
    fieldParity := false
    curLine := 0 }

/-- The audio path after reset (R32, R36). DESIGN CHOICE (log entry 7): the ring's unspecified content is zeros. -/
def AudioState.initial (c : Cfg R σ) : AudioState σ where
  audioSum := 0
  audioCnt := 0
  rs := c.resampler.init (c.clkReset / 8) c.sampleRate
  ring := Memory.fill c.ringCap 0
  ringRd := 0
  ringWr := 0
  ringCount := 0
  accCnt := 0

/-- The Frame Resampler after reset (R34, R35), both generations holding the picture `video`. DESIGN CHOICE (log entry
7): the unspecified slots of the boundary FIFO are zeros. -/
def FrameState.initial (c : Cfg R σ) (video : Memory 32) : FrameState where
  frameBuf0 := planar c video
  frameBuf1 := planar c video
  interpBuf := Planes.fill c 0
  outBuf := Planes.fill c 0
  frame0Time := 0
  frame1Time := 0
  interpTime := 0
  outTime := 0
  bndFifo := Memory.fill 8 0
  bndCount := 0
  framesOut := 0

/-- The colormap of reset (70_reset_and_hazards.md R232). -/
def resetColormap (c : Cfg R σ) : Memory 32 := buildData c neutralCcp (decide (c.pixT = 32)) identityIdxYuv

/-- `videoBuf` after reset: every element the blanking pixel (R34). -/
def resetVideo (c : Cfg R σ) : Memory 32 := Memory.fill c.ny (Memory.read (resetColormap c) (7 * 256))

/-- RESET() (70_reset_and_hazards.md R231) under a configuration, with nothing presented and nothing emitted. DESIGN
CHOICE (log entry 7): the line buffer's unspecified content is zeros. -/
def State.resetOf (c : Cfg R σ) : State σ where
  clockFreq := BitVec.ofNat 32 c.clkReset
  ntsc := false
  ccp := neutralCcp
  idxYuv := identityIdxYuv
  act := neutralCcp
  actYuv := decide (c.pixT = 32)
  colormapData := resetColormap c
  colormapTable := buildTable c false
  sync := SyncState.initial c false (Memory.fill (3 * c.lineBufGroups) 0)
  audio := AudioState.initial c
  cycleCnt := 0
  videoBuf := resetVideo c
  frame := FrameState.initial c (resetVideo c)
  input := []
  events := []

/-- The machine right after reset, under the reference instance. -/
def State.reset : State := State.resetOf cfg0

end Sys2Proof.Machine
end

