-- ==== Sys2Proof/Machine/Ops.lean ====
section
/-! DEFINITION. The named operations the commands share: the output port, the colormap build and lookup, the status
view, and reset. VCAP has no exception to take or return from (60_exceptions.md R210, R217). -/

namespace Sys2Proof.Machine

variable {R σ : Type}

/-- `emit <Event>(payload)` (00_scope.md R7). -/
def emit (e : Event) (s : State σ) : State σ := { s with events := s.events ++ [e] }

/-- CM_BUILD() (41_colormap.md R112, R113) from `act`, `actYuv`, `idxYUV` and `ntsc`. -/
def cmBuild (c : Cfg R σ) (s : State σ) : State σ :=
  { s with
    colormapData := buildData c s.act s.actYuv s.idxYuv
    colormapTable := buildTable c s.ntsc }

/-- The band of pattern `p`, replaced by its "no color" band when the line carried no burst (R110, R117). -/
def cmBand (c : Cfg R σ) (s : State σ) (p : Byte) (nc : Bool) : Nat :=
  let b := (Memory.read s.colormapTable p.toNat).toNat
  if nc then c.bandNoColor.getD b 0 else b

/-- `cmPix(p, i, nc)` (R117). -/
def cmPix (c : Cfg R σ) (s : State σ) (p i : Byte) (nc : Bool) : Pixel :=
  Memory.read s.colormapData (cmBand c s p nc * 256 + i.toNat)

/-- DEC4(k, nc) (R118): four pixels and the bytes consumed. -/
def dec4 (c : Cfg R σ) (s : State σ) (k : Nat) (nc : Bool) : List Pixel × Nat :=
  let f := Memory.read s.sync.lineBuf k
  let n := colourBytes f
  let i0 := Memory.read s.sync.lineBuf (k + 1)
  let i1 := if n = 2 then Memory.read s.sync.lineBuf (k + 2) else i0
  ([cmPix c s f i0 nc, cmPix c s f i0 nc, cmPix c s f i1 nc, cmPix c s f i1 nc], 1 + n)

/-- A colormap word as the instance stores it: `DATA[PIX_T-1:0]` (40_config_ops.md R89). -/
def storedPixel (c : Cfg R σ) (data : U32) : Pixel := BitVec.ofNat 32 (data.toNat % 2 ^ c.pixT)

/-- `status[idx]` (10_state.md R39). -/
def statusView (s : State σ) (idx : Nat) : U32 :=
  match idx with
  | 0 => s.clockFreq
  | 1 => BitVec.ofNat 32 (2 * bit s.actYuv + bit s.ntsc)
  | 2 => s.sync.hsyncCnt
  | 3 => s.sync.lineLength
  | 4 => s.sync.lineCnt
  | 5 => s.sync.vsyncCnt
  | 6 => s.sync.curLine
  | 7 => BitVec.ofNat 32 (2 * s.sync.lineFlags.toNat + bit s.sync.fieldParity)
  | 8 => BitVec.ofNat 32 s.audio.ringCount
  | 9 => s.frame.framesOut
  | 10 => s.cycleCnt.extractLsb' 0 32
  | 11 => s.cycleCnt.extractLsb' 32 32
  | 12 => s.sync.syncLengthCnt
  | 13 => s.sync.hsyncPeriodInt
  | 14 => s.sync.lineLengthFilter
  | 15 => BitVec.ofNat 32 s.frame.bndCount
  | _ => 0

/-- RESET() as RST and the hardware reset input have it (40_config_ops.md R82; 70_reset_and_hazards.md R230, R231):
all state takes its reset value; what the host will present and what was emitted are not VCAP's state. -/
def resetMachine (c : Cfg R σ) (s : State σ) : State σ :=
  { State.resetOf c with input := s.input, events := s.events }

/-- The hardware reset input (R230): the effect of RST. -/
def hardwareReset (s : State) : State := resetMachine cfg0 s

end Sys2Proof.Machine
end

