-- ==== Sys2Proof/Machine/ConfigOps.lean ====
section
/-! DEFINITION. The configuration and access commands and the reserved opcodes (40_config_ops.md R80 to R91). Each
effect is a function under a configuration; the meaning applies it under the reference instance. -/

namespace Sys2Proof.Machine

variable {R σ : Type}

/-- SCLK's effect (R83). -/
def setClock (c : Cfg R σ) (hz : U32) (s : State σ) : State σ :=
  if 8 ≤ hz.toNat then
    { s with clockFreq := hz, audio := { s.audio with rs := c.resampler.init (hz.toNat / 8) c.sampleRate } }
  else s

/-- SMODE's effect (R84). -/
def setMode (c : Cfg R σ) (n : Bool) (s : State σ) : State σ :=
  if n = s.ntsc then s
  else cmBuild c { s with ntsc := n, sync := SyncState.initial c n s.sync.lineBuf }

/-- SCCP's effect (R85). -/
def stageParam (c : Cfg R σ) (idx : Nat) (val : S32) (s : State σ) : State σ :=
  if idx ≤ 13 then { s with ccp := Memory.write s.ccp idx (ccpClamp c idx val) } else s

/-- SYUV's effect (R86). -/
def writeIdxYuv (n : Bool) (cmp idx : Nat) (val : S32) (s : State σ) : State σ :=
  if cmp ≤ 2 then { s with idxYuv := Memory.write s.idxYuv (idxYuvAt n idx cmp) val } else s

/-- CBLD's effect (R87). -/
def commitParams (c : Cfg R σ) (yuv : Bool) (s : State σ) : State σ :=
  cmBuild c { s with act := s.ccp, actYuv := yuv && decide (c.pixT = 32) }

/-- The answer of CMRD (R88). -/
def colormapAnswer (s : State σ) (addr : Nat) : U32 := if addr < 4608 then Memory.read s.colormapData addr else 0

/-- CMWR's effect (R89). -/
def writeColormap (c : Cfg R σ) (addr : Nat) (data : U32) (s : State σ) : State σ :=
  if addr < 4608 then { s with colormapData := Memory.write s.colormapData addr (storedPixel c data) } else s

/-- `NOP` (R81): nothing. -/
def execNop (s : State) : Host.Outcome State Fault Refusal := .next s
/-- `SCLK HZ` (R83). -/
def execSclk (hz : U32) (s : State) : Host.Outcome State Fault Refusal := .next (setClock cfg0 hz s)
/-- `SMODE N` (R84). -/
def execSmode (n : Bool) (s : State) : Host.Outcome State Fault Refusal := .next (setMode cfg0 n s)
/-- `SCCP IDX, VAL` (R85). -/
def execSccp (idx : Nat) (val : S32) (s : State) : Host.Outcome State Fault Refusal := .next (stageParam cfg0 idx val s)
/-- `SYUV N, CMP, IDX, VAL` (R86). -/
def execSyuv (n : Bool) (cmp idx : Nat) (val : S32) (s : State) : Host.Outcome State Fault Refusal :=
  .next (writeIdxYuv n cmp idx val s)
/-- `CBLD YUV` (R87). -/
def execCbld (yuv : Bool) (s : State) : Host.Outcome State Fault Refusal := .next (commitParams cfg0 yuv s)
/-- `CMRD ADDR` (R88). -/
def execCmrd (addr : Nat) (s : State) : Host.Outcome State Fault Refusal :=
  .next (emit (.readData (colormapAnswer s addr)) s)
/-- `CMWR ADDR, DATA` (R89). -/
def execCmwr (addr : Nat) (data : U32) (s : State) : Host.Outcome State Fault Refusal :=
  .next (writeColormap cfg0 addr data s)
/-- `RDSR IDX` (R90). -/
def execRdsr (idx : Nat) (s : State) : Host.Outcome State Fault Refusal := .next (emit (.readData (statusView s idx)) s)
/-- `RST` (R82). -/
def execRst (s : State) : Host.Outcome State Fault Refusal := .next (resetMachine cfg0 s)
/-- Reserved opcode 0xB (R91): as NOP. -/
def execReservedB (s : State) : Host.Outcome State Fault Refusal := .next s
/-- Reserved opcode 0xC (R91): as NOP. -/
def execReservedC (s : State) : Host.Outcome State Fault Refusal := .next s
/-- Reserved opcode 0xD (R91): as NOP. -/
def execReservedD (s : State) : Host.Outcome State Fault Refusal := .next s
/-- Reserved opcode 0xE (R91): as NOP. -/
def execReservedE (s : State) : Host.Outcome State Fault Refusal := .next s
/-- Reserved opcode 0xF (R91): as NOP. -/
def execReservedF (s : State) : Host.Outcome State Fault Refusal := .next s

end Sys2Proof.Machine
end

