-- ==== Sys2Proof/Machine/Flags.lean ====
section
/-! DEFINITION. The flags of VCAP: `lineFlags` (10_state.md R28) and the field parity (42_demodulator.md R136). -/

namespace Sys2Proof.Machine

/-- `lineFlags.odd`, bit 0 (R28). -/
def oddFlag (fl : BitVec 2) : Bool := fl.getLsbD 0
/-- `lineFlags.burst`, bit 1 (R28). -/
def burstFlag (fl : BitVec 2) : Bool := fl.getLsbD 1
/-- `lineFlags.odd <- 1` (42_demodulator.md R142). -/
def setOddFlag (fl : BitVec 2) : BitVec 2 := fl ||| 1#2
/-- `lineFlags.burst <- 1` (R141). -/
def setBurstFlag (fl : BitVec 2) : BitVec 2 := fl ||| 2#2

/-- `d` of FIELD_START: the line phase relative to where a horizontal sync is expected (R136). -/
def parityPhase (lineCnt lineLength hsyncPos : Nat) : Int :=
  ((lineCnt : Int) + lineLength - hsyncPos) % lineLength

/-- The field parity FIELD_START latches: 1 when the phase is in the middle half of the line (R136). -/
def parityOf (lineCnt lineLength hsyncPos : Nat) : Bool :=
  let d := parityPhase lineCnt lineLength hsyncPos
  decide ((lineLength / 4 : Nat) ≤ d) && decide (d < (3 * lineLength / 4 : Nat))

end Sys2Proof.Machine
end

