-- ==== Sys2Proof/Machine/Audio.lean ====
section
/-! DEFINITION. The audio path: the 8-cycle fold (42_demodulator.md R131) and the micro-operations AUDIO_IN, AUDIO_OUT
and AUDIO_POP (44_audio.md R193, R199, R203). -/

namespace Sys2Proof.Machine

variable {R σ : Type}

/-- `bndFifo[bndCount] <- cycleCnt; bndCount <- bndCount + 1` (R199): latch an output boundary. -/
def latchBoundary (cycle : U64) (f : FrameState) : FrameState :=
  { f with bndFifo := Memory.write f.bndFifo f.bndCount cycle, bndCount := f.bndCount + 1 }

/-- The ring's part of AUDIO_OUT for an accepted sample (R199), before `accCnt` is looked at. -/
def ringPush (c : Cfg R σ) (o : S16) (a : AudioState σ) : AudioState σ :=
  { a with
    ring := Memory.write a.ring a.ringWr o
    ringWr := (a.ringWr + 1) % c.ringCap
    ringCount := a.ringCount + 1 }

/-- AUDIO_OUT(o) (R199). -/
def audioOut (c : Cfg R σ) (o : S16) (s : State σ) : State σ :=
  if s.audio.ringCount = c.ringCap then s
  else if s.audio.accCnt + 1 = c.apf then
    { s with
      audio := { ringPush c o s.audio with accCnt := 0 }
      frame := latchBoundary s.cycleCnt s.frame }
  else { s with audio := { ringPush c o s.audio with accCnt := s.audio.accCnt + 1 } }

/-- AUDIO_IN(s) (R193): one step of the converter, each of its outputs to AUDIO_OUT, in order. -/
def audioIn (c : Cfg R σ) (smp : S16) (s : State σ) : State σ :=
  let r := c.resampler.step s.audio.rs smp
  r.2.foldl (fun st o => audioOut c o st) { s with audio := { s.audio with rs := r.1 } }

/-- `(audioSum + AUDIO_BIAS) >> 3`, an arithmetic shift (42_demodulator.md R131). -/
def foldedSample (c : Cfg R σ) (sum : S32) : S16 := BitVec.ofInt 16 ((sum.toInt + c.audioBias) / 8)

/-- Step 1 of SMP (R130, R131): accumulate, and fold on every eighth cycle. -/
def smpAudio (c : Cfg R σ) (a : S16) (s : State σ) : State σ :=
  let sum := s.audio.audioSum + a.signExtend 32
  let cnt := s.audio.audioCnt + 1
  if cnt = 0 then
    audioIn c (foldedSample c sum) { s with audio := { s.audio with audioSum := 0, audioCnt := 0 } }
  else { s with audio := { s.audio with audioSum := sum, audioCnt := cnt } }

/-- The samples AUDIO_POP takes: the oldest `APF`, oldest first (44_audio.md R203). -/
def audioSlice (c : Cfg R σ) (a : AudioState σ) : Memory 16 :=
  Memory.tabulate c.apf fun k => Memory.read a.ring ((a.ringRd + k) % c.ringCap)

/-- AUDIO_POP()'s effect on the ring (R203). -/
def audioPop (c : Cfg R σ) (a : AudioState σ) : AudioState σ :=
  { a with ringRd := (a.ringRd + c.apf) % c.ringCap, ringCount := a.ringCount - c.apf }

end Sys2Proof.Machine
end

