-- ==== Sys2Proof/Machine/Frame.lean ====
section
/-! DEFINITION. The Frame Resampler (43_frame_resampler.md): ACCUM, FINALIZE, EMIT_FRAME, BND_STEP and FRAME_DONE. -/

namespace Sys2Proof.Machine

variable {R σ : Type}

/-- ACCUM on one plane (R177): only `w mod 2^32` is used, and the elements wrap. -/
def accumPlane (held : Memory 8) (w : U64) (acc : Memory 32) : Memory 32 :=
  Memory.update acc fun p x => x + (Memory.read held p).setWidth 32 * w.setWidth 32

/-- ACCUM(w) (R177). -/
def accum (w : U64) (f : FrameState) : FrameState :=
  { f with
    interpBuf :=
      { y := accumPlane f.frameBuf0.y w f.interpBuf.y
        v := accumPlane f.frameBuf0.v w f.interpBuf.v
        u := accumPlane f.frameBuf0.u w f.interpBuf.u } }

/-- `recip(D)` (R176). -/
def recip (d : Nat) : Nat := if 2 ^ 32 ≤ d then 0 else min (2 ^ 32 / d) (2 ^ 32 - 1)

/-- An output byte of FINALIZE for `D` other than 0 (R175). -/
def finalByte (acc : U32) (d : Nat) : Byte := BitVec.ofNat 8 (min 255 ((acc.toNat * recip d + 2 ^ 31) / 2 ^ 32))

/-- FINALIZE on one plane (R175). -/
def finalizePlane (d : U64) (held : Memory 8) (acc : Memory 32) (out : Memory 8) : Memory 8 :=
  Memory.update out fun p _ => if d = 0 then Memory.read held p else finalByte (Memory.read acc p) d.toNat

/-- FINALIZE(D) (R175). -/
def finalize (d : U64) (f : FrameState) : FrameState :=
  { f with
    outBuf :=
      { y := finalizePlane d f.frameBuf0.y f.interpBuf.y f.outBuf.y
        v := finalizePlane d f.frameBuf0.v f.interpBuf.v f.outBuf.v
        u := finalizePlane d f.frameBuf0.u f.interpBuf.u f.outBuf.u } }

/-- EMIT_FRAME() (R181). -/
def emitFrame (c : Cfg R σ) (s : State σ) : State σ :=
  emit (.frameOut s.frame.outBuf.y s.frame.outBuf.v s.frame.outBuf.u (audioSlice c s.audio))
    { s with
      audio := audioPop c s.audio
      frame := { s.frame with framesOut := s.frame.framesOut + 1 } }

/-- BND_STEP(T) up to its EMIT_FRAME (R174): accumulate to the boundary, finalise, restart the accumulator. -/
def cutAt (c : Cfg R σ) (t : U64) (f : FrameState) : FrameState :=
  { finalize (t - f.outTime) (accum (t - f.interpTime) f) with
    interpBuf := Planes.fill c 0
    interpTime := t
    outTime := t }

/-- BND_STEP(T) (R174). -/
def bndStep (c : Cfg R σ) (t : U64) (s : State σ) : State σ := emitFrame c { s with frame := cutAt c t s.frame }

/-- The FIFO without its oldest boundary (R173). -/
def popBoundary (f : FrameState) : FrameState :=
  { f with
    bndFifo := Memory.update f.bndFifo fun i x => if i + 2 ≤ f.bndCount then Memory.read f.bndFifo (i + 1) else x
    bndCount := f.bndCount - 1 }

/-- The loop of FRAME_DONE (R173) over `n` pending boundaries, oldest first. -/
def drainBoundaries (c : Cfg R σ) : Nat → State σ → State σ
  | 0, s => s
  | n + 1, s => drainBoundaries c n (bndStep c (Memory.read s.frame.bndFifo 0) { s with frame := popBoundary s.frame })

/-- The first lines of FRAME_DONE (R173): the generations swap, the new raw frame becomes generation 1. -/
def swapGenerations (c : Cfg R σ) (video : Memory 32) (cycle : U64) (f : FrameState) : FrameState :=
  { f with
    frameBuf0 := f.frameBuf1
    frame0Time := f.frame1Time
    frameBuf1 := planar c video
    frame1Time := cycle }

/-- The last line of FRAME_DONE (R173): accumulate what is left up to this cycle. -/
def accumToNow (s : State σ) : State σ :=
  { s with frame := { accum (s.cycleCnt - s.frame.interpTime) s.frame with interpTime := s.cycleCnt } }

/-- FRAME_DONE() (R173). -/
def frameDone (c : Cfg R σ) (s : State σ) : State σ :=
  accumToNow
    (drainBoundaries c s.frame.bndCount { s with frame := swapGenerations c s.videoBuf s.cycleCnt s.frame })

end Sys2Proof.Machine
end

