-- ==== Sys2Proof/Machine/Demodulator.lean ====
section
/-! DEFINITION. The demodulator (42_demodulator.md): sync recovery, line assembly, line decode and the SMP step. -/

namespace Sys2Proof.Machine

variable {R σ : Type}

/-- `mc` after the loop of HSYNC_REACQ drops stale multiples of the period: `count - k*period` for the least `k` that
brings it down to `top` (R134). -/
def dropStale (count top period : Nat) : Nat :=
  if count ≤ top then count else count - (count - top + period - 1) / period * period

/-- The first filter stage, 3/4 old + 1/4 new, rounded (R134). -/
def periodStage1 (old mc : Nat) : Nat := (3 * old + mc + 2) / 4

/-- The second filter stage, 0.9 old + 0.1 new, in Q16.16 (R134). -/
def periodStage2 (old period : Nat) : Nat := (9 * old + period * 65536 + 5) / 10

/-- `clamp((lineLengthFilter + 0x8000) >> 16, LINE_LEN_MIN, LINE_LEN_MAX)` (R134). -/
def roundedLength (m : ModeCfg) (filter : Nat) : Nat :=
  (clampInt (((filter + 0x8000) / 65536 : Nat) : Int) m.lineLenMin m.lineLenMax).toNat

/-- `hsyncCnt <- 0; lineCnt <- HSYNC_POS[m]`: take a sync-run start as the reference (R134, R135). -/
def takeReference (m : ModeCfg) (y : SyncState) : SyncState :=
  { y with hsyncCnt := 0, lineCnt := BitVec.ofNat 32 m.hsyncPos }

/-- The filter update of an accepted sync-run start whose measured count is `mc` (R134). -/
def updatePeriod (m : ModeCfg) (mc : Nat) (y : SyncState) : SyncState :=
  let period : U32 := BitVec.ofNat 32 (periodStage1 y.hsyncPeriodInt.toNat mc)
  let filter : U32 := BitVec.ofNat 32 (periodStage2 y.lineLengthFilter.toNat period.toNat)
  { y with
    hsyncPeriodInt := period
    lineLengthFilter := filter
    lineLength := BitVec.ofNat 32 (roundedLength m filter.toNat) }

/-- HSYNC_REACQ() (R134). -/
def hsyncReacq (m : ModeCfg) (y : SyncState) : SyncState :=
  let mc := dropStale y.hsyncCnt.toNat m.lineLenMax y.lineLength.toNat
  if m.lineLenMin ≤ mc then takeReference m (updatePeriod m mc y)
  else if m.lineLenMax < y.hsyncCnt.toNat then takeReference m y
  else y

/-- FIELD_START() (R136). -/
def fieldStart (m : ModeCfg) (y : SyncState) : SyncState :=
  let p := parityOf y.lineCnt.toNat y.lineLength.toNat m.hsyncPos
  { y with fieldParity := p, vsyncCnt := BitVec.ofInt 32 (m.vsyncReload p) }

/-- `min(syncLengthCnt + 1, 2^32 - 1)` (R130, R133). -/
def countSync (n : U32) : U32 := if n = BitVec.allOnes 32 then n else n + 1

/-- A cycle at sync level (R130 step 2, R133). -/
def syncLevel (c : Cfg R σ) (m : ModeCfg) (y : SyncState) : SyncState :=
  let y1 := if y.syncLengthCnt = 0 then hsyncReacq m y else y
  let y2 := { y1 with syncLengthCnt := countSync y1.syncLengthCnt }
  if c.vsyncRun ≤ y2.syncLengthCnt.toNat ∧ m.vsyncThr2 ≤ y2.vsyncCnt.toInt then fieldStart m y2 else y2

/-- Step 2 of SMP (R130): the sync bit, then `hsyncCnt` (R138). -/
def smpSync (c : Cfg R σ) (m : ModeCfg) (f : Byte) (y : SyncState) : SyncState :=
  let y1 := if flagSync f then syncLevel c m y else { y with syncLengthCnt := 0 }
  { y1 with hsyncCnt := y1.hsyncCnt + 1 }

/-- Step 3 of SMP (R130, R141): burst detection. -/
def smpBurst (c : Cfg R σ) (f : Byte) (y : SyncState) : SyncState :=
  if isBurstSample c f then { y with lineFlags := setBurstFlag y.lineFlags } else y

/-- The bytes of a group as `lineBuf` stores them (30_encoding.md R62). -/
def groupBytes (f c0 c1 : Byte) : List Byte := if flagHalfWidth f then [f, c0, c1] else [f, c0]

/-- Append a group to `lineBuf` (42_demodulator.md R143). -/
def appendGroup (f c0 c1 : Byte) (y : SyncState) : SyncState :=
  let bytes := groupBytes f c0 c1
  { y with
    lineBuf := Memory.writeRange y.lineBuf y.lineBufBytes.toNat bytes.length fun k => bytes.getD k 0
    lineBufBytes := y.lineBufBytes + BitVec.ofNat 16 bytes.length
    lineBufGroups := y.lineBufGroups + 1 }

/-- Step 4 of SMP (R130, R142, R143): append the group inside the window, and note its odd-phase bit. -/
def smpAppend (c : Cfg R σ) (m : ModeCfg) (f c0 c1 : Byte) (y : SyncState) : SyncState :=
  if m.lineStart ≤ y.lineCnt.toNat ∧ y.lineBufGroups.toNat < c.lineBufGroups then
    let y1 := appendGroup f c0 c1 y
    if flagPhase f then { y1 with lineFlags := setOddFlag y1.lineFlags } else y1
  else y

/-- The source pixels of `n` groups from index `k` of the line buffer on (R150). -/
def decodeGroups (c : Cfg R σ) (s : State σ) (nc : Bool) : Nat → Nat → List Pixel
  | 0, _ => []
  | n + 1, k => (dec4 c s k nc).1 ++ decodeGroups c s nc n (k + (dec4 c s k nc).2)

/-- Output pixel `x` of the resampling path over `n` source pixels (R152, R153). -/
def resampledPixel (c : Cfg R σ) (src : Memory 32) (n x : Nat) : Pixel :=
  let w := c.videoWidth
  let pos := x * n
  let i := pos / w
  let j := min (i + 1) (n - 1)
  blend c (Memory.read src i) (Memory.read src j) (pos % w) w

/-- The row of output pixels DECODE_LINE computes from `n` source pixels (R150): the fast path on exactly the test of
R151, else the resampling path. -/
def rowPixel (c : Cfg R σ) (odd : Bool) (src : Memory 32) (n x : Nat) : Pixel :=
  if n = c.videoWidth ∧ odd = false then Memory.read src x else resampledPixel c src n x

/-- DECODE_LINE() (R150). -/
def decodeLine (c : Cfg R σ) (s : State σ) : State σ :=
  let line := s.sync.curLine.toInt
  let n := 4 * s.sync.lineBufGroups.toNat
  if line < 0 ∨ 2 * (c.videoHeight : Int) ≤ line ∨ n = 0 then s
  else
    let row := (line / 2).toNat
    let nc := !burstFlag s.sync.lineFlags
    let src : Memory 32 := (decodeGroups c s nc s.sync.lineBufGroups.toNat 0).toArray
    { s with
      videoBuf := Memory.writeRange s.videoBuf (row * c.videoWidth) c.videoWidth
        (rowPixel c (oddFlag s.sync.lineFlags) src n) }

/-- The counters of LINE_DONE between DECODE_LINE and the test for a complete frame (R146, R148). -/
def lineAdvance (c : Cfg R σ) (y : SyncState) : SyncState :=
  { y with
    lineCnt := 0
    lineBufBytes := 0
    lineBufGroups := 0
    lineFlags := 0
    curLine := if y.curLine.toInt < 2 * (c.videoHeight : Int) then y.curLine + 2 else y.curLine
    vsyncCnt := if y.vsyncCnt.toInt < 2 ^ 31 - 1 then y.vsyncCnt + 1 else y.vsyncCnt }

/-- `curLine <- fieldParity` (R146). -/
def topOfField (y : SyncState) : SyncState := { y with curLine := BitVec.ofNat 32 (bit y.fieldParity) }

/-- LINE_DONE() (R146). -/
def lineDone (c : Cfg R σ) (s : State σ) : State σ :=
  let s1 := decodeLine c s
  let s2 := { s1 with sync := lineAdvance c s1.sync }
  if s2.sync.vsyncCnt = 0 then frameDone c { s2 with sync := topOfField s2.sync } else s2

/-- Step 5 of SMP (R130, R139): advance the line phase, finalise the line at `lineLength`. -/
def smpAdvance (c : Cfg R σ) (s : State σ) : State σ :=
  let s1 := { s with sync := { s.sync with lineCnt := s.sync.lineCnt + 1 } }
  if s1.sync.lineLength.toNat ≤ s1.sync.lineCnt.toNat then lineDone c s1 else s1

/-- Steps 2 to 4 of SMP (R130): all of them act on the sync state alone. -/
def smpLine (c : Cfg R σ) (m : ModeCfg) (f c0 c1 : Byte) (y : SyncState) : SyncState :=
  smpAppend c m f c0 c1 (smpBurst c f (smpSync c m f y))

/-- SMP(F, C0, C1, A) (R130), all mode-dependent constants read with the `ntsc` of the command (R140). -/
def smp (c : Cfg R σ) (f c0 c1 : Byte) (a : S16) (s : State σ) : State σ :=
  let s1 := smpAudio c a { s with cycleCnt := s.cycleCnt + 1 }
  smpAdvance c { s1 with sync := smpLine c (c.mode s1.ntsc) f c0 c1 s1.sync }

/-- `SMP F, C0, C1, A` (R130). -/
def execSmp (f c0 c1 : Byte) (a : S16) (s : State) : Host.Outcome State Fault Refusal := .next (smp cfg0 f c0 c1 a s)

end Sys2Proof.Machine
end

