-- ==== Sys2Proof/Machine/Dispatch.lean ====
section
/-! DEFINITION. The meaning of every command (40_config_ops.md R80), one arm per constructor of Instr. -/

namespace Sys2Proof.Machine

def exec (i : Instr) (s : State) : Host.Outcome State Fault Refusal :=
  match i with
  | .nop => Sys2Proof.Machine.execNop s
  | .smp f c0 c1 a => Sys2Proof.Machine.execSmp f c0 c1 a s
  | .sclk hz => Sys2Proof.Machine.execSclk hz s
  | .smode n => Sys2Proof.Machine.execSmode n s
  | .sccp idx val => Sys2Proof.Machine.execSccp idx val s
  | .syuv n cmp idx val => Sys2Proof.Machine.execSyuv n cmp idx val s
  | .cbld yuv => Sys2Proof.Machine.execCbld yuv s
  | .cmrd addr => Sys2Proof.Machine.execCmrd addr s
  | .cmwr addr data => Sys2Proof.Machine.execCmwr addr data s
  | .rdsr idx => Sys2Proof.Machine.execRdsr idx s
  | .rst => Sys2Proof.Machine.execRst s
  | .reservedB => Sys2Proof.Machine.execReservedB s
  | .reservedC => Sys2Proof.Machine.execReservedC s
  | .reservedD => Sys2Proof.Machine.execReservedD s
  | .reservedE => Sys2Proof.Machine.execReservedE s
  | .reservedF => Sys2Proof.Machine.execReservedF s

end Sys2Proof.Machine
end

