-- ==== Sys2Proof/Machine/Step.lean ====
section
/-! DEFINITION. One step of the machine (10_state.md R10, R12; 40_config_ops.md R80): take what the host presents next
and run it to completion. -/

namespace Sys2Proof.Machine

/-- One step. With nothing presented VCAP holds its state (60_exceptions.md R223). -/
def step (s : State) : Host.Outcome State Fault Refusal :=
  match s.input with
  | [] => .next s
  | .resetInput :: rest => .next (hardwareReset { s with input := rest })
  | .command w :: rest => exec (decode w) { s with input := rest }

/-- `s` with a command presented next, ahead of whatever else the host will present. -/
def State.withFetchWord (s : State) (nbits w : Nat) : State :=
  { s with input := .command (BitVec.ofNat 64 (w % 2 ^ nbits)) :: s.input }

end Sys2Proof.Machine
end

