-- ==== Sys2Proof/Machine/Exact.lean ====
section
/-! DEFINITION. The exact real numbers of the spec (00_scope.md R6; 41_colormap.md R101): the arithmetic and the functions
of the reference instance over `ℝ`, the reference instance itself, and the constraints of R5 on a configuration. No
computation can run them, so they are no part of `step`; the machine's expressions stand for them (log entry 2). -/

namespace Sys2Proof

/-- The angle of `d` degrees, in radians. -/
noncomputable def Machine.degrees (d : ℝ) : ℝ := d * Real.pi / 180

/-- The real number an expression of the machine stands for. A power is one of a base at least 0. -/
noncomputable def RealExpr.val : RealExpr → ℝ
  | .rat q => q
  | .add a b => a.val + b.val
  | .sub a b => a.val - b.val
  | .mul a b => a.val * b.val
  | .div a b => a.val / b.val
  | .ifLt a b x y => if a.val < b.val then x.val else y.val
  | .sqrt a => Real.sqrt a.val
  | .cos a => Real.cos (Machine.degrees a.val)
  | .pow x e => (max x.val 0) ^ e.val

/-- The real number `x` is one of those the enclosure leaves possible. -/
def Encl.Holds : Encl → ℝ → Prop
  | .within lo hi, x => (lo : ℝ) ≤ x ∧ x ≤ (hi : ℝ)
  | .unknown, _ => True

namespace Machine

/-- Exact arithmetic (R6). -/
@[reducible] noncomputable def exactArith : Arith ℝ where
  ofRat q := q
  ifLt a b x y := if a < b then x else y

/-- The functions of the reference instance (R101): the exact real functions, and rounding by `floor(x + 1/2)`. -/
noncomputable def exactNumerics : Numerics ℝ where
  sin d := Real.sin (degrees d)
  cos d := Real.cos (degrees d)
  sqrt := Real.sqrt
  pow x e := x ^ e
  rnd x := ⌊x + 1 / 2⌋

/-- The reference instance `Cfg0` (R5), over the exact real numbers. -/
noncomputable def cfg0Exact : Cfg ℝ := refCfg exactArith exactNumerics

end Machine

/-- What R5 asks of a configuration: its constraints, exact arithmetic, a lawful `Numerics` and a lawful converter. -/
structure Cfg.Valid {σ : Type} (c : Cfg ℝ σ) : Prop where
  numbers : c.wf = true
  arith : c.arith = Machine.exactArith
  numerics : c.numerics.Lawful
  resampler : c.resampler.Lawful

end Sys2Proof
end

