-- ==== Sys2Proof/Machine/Instance.lean ====
section
/-! DEFINITION. The machine under any configuration (00_scope.md R5; 10_state.md R11): `Machine.exec`, `Machine.step` and
`State.reset` are these under the reference instance `Cfg0` (log entry 1). -/

namespace Sys2Proof.Machine

variable {R σ : Type}

/-- What a command does under the configuration `c` (40_config_ops.md R80). -/
def commandOf (c : Cfg R σ) (i : Instr) (s : State σ) : State σ :=
  match i with
  | .nop => s
  | .smp f c0 c1 a => smp c f c0 c1 a s
  | .sclk hz => setClock c hz s
  | .smode n => setMode c n s
  | .sccp idx val => stageParam c idx val s
  | .syuv n cmp idx val => writeIdxYuv n cmp idx val s
  | .cbld yuv => commitParams c yuv s
  | .cmrd addr => emit (.readData (colormapAnswer s addr)) s
  | .cmwr addr data => writeColormap c addr data s
  | .rdsr idx => emit (.readData (statusView s idx)) s
  | .rst => resetMachine c s
  | .reservedB => s
  | .reservedC => s
  | .reservedD => s
  | .reservedE => s
  | .reservedF => s

/-- One step under the configuration `c`: what the host presents next (10_state.md R12; 70_reset_and_hazards.md
R230). -/
def stepOf (c : Cfg R σ) (s : State σ) : State σ :=
  match s.input with
  | [] => s
  | .resetInput :: rest => resetMachine c { s with input := rest }
  | .command w :: rest => commandOf c (decode w) { s with input := rest }

end Sys2Proof.Machine
end

