-- ==== Sys2Proof/Safety.lean ====
section
/-! DEFINITION. What a good state of VCAP is: the sizes of the memories (20_memory.md R40, R54) and the invariants the
rules of 10_state.md, 43_frame_resampler.md and 44_audio.md give the registers. Each is a decidable predicate. -/

namespace Sys2Proof.Machine

variable {R σ : Type}

/-- Every address space has its fixed number of elements (20_memory.md R40, R54): the canonical form of memory. -/
abbrev State.memoryWf (c : Cfg R σ) (s : State σ) : Prop :=
  Memory.wf 14 s.ccp = true ∧ Memory.wf 14 s.act = true ∧ Memory.wf 1536 s.idxYuv = true ∧
  Memory.wf 4608 s.colormapData = true ∧ Memory.wf 256 s.colormapTable = true ∧
  Memory.wf (3 * c.lineBufGroups) s.sync.lineBuf = true ∧ Memory.wf c.ringCap s.audio.ring = true ∧
  Memory.wf c.ny s.videoBuf = true ∧ Memory.wf 8 s.frame.bndFifo = true ∧
  s.frame.frameBuf0.wf c = true ∧ s.frame.frameBuf1.wf c = true ∧
  s.frame.interpBuf.wf c = true ∧ s.frame.outBuf.wf c = true

/-- The staged and the active parameters lie in their clamp ranges (10_state.md R15; 95_test_vectors.md T1). -/
abbrev State.paramsInRange (c : Cfg R σ) (s : State σ) : Prop :=
  ∀ idx, idx ≤ 13 →
    (qBound (ccpLo c idx) ≤ (Memory.read s.ccp idx).toInt ∧ (Memory.read s.ccp idx).toInt ≤ qBound (ccpHi c idx)) ∧
    (qBound (ccpLo c idx) ≤ (Memory.read s.act idx).toInt ∧ (Memory.read s.act idx).toInt ≤ qBound (ccpHi c idx))

/-- The band table holds bands (10_state.md R19). -/
abbrev State.bandsInRange (s : State σ) : Prop := ∀ p, p < 256 → (Memory.read s.colormapTable p).toNat < 18

/-- The line period, the line phase and both filter stages are in the bounds of the mode (10_state.md R25, R26;
42_demodulator.md R134, R139). -/
abbrev SyncState.lineInv (m : ModeCfg) (y : SyncState) : Prop :=
  (m.lineLenMin ≤ y.lineLength.toNat ∧ y.lineLength.toNat ≤ m.lineLenMax) ∧
  (m.lineLenMin ≤ y.hsyncPeriodInt.toNat ∧ y.hsyncPeriodInt.toNat ≤ m.lineLenMax) ∧
  (m.lineLenMin * 65536 ≤ y.lineLengthFilter.toNat ∧ y.lineLengthFilter.toNat ≤ m.lineLenMax * 65536) ∧
  y.lineCnt.toNat < y.lineLength.toNat

/-- The line buffer's counters stay in its capacity (42_demodulator.md R143). -/
abbrev SyncState.bufferInv (c : Cfg R σ) (y : SyncState) : Prop :=
  y.lineBufGroups.toNat ≤ c.lineBufGroups ∧
  2 * y.lineBufGroups.toNat ≤ y.lineBufBytes.toNat ∧ y.lineBufBytes.toNat ≤ 3 * y.lineBufGroups.toNat

/-- The output line is a line of the picture or just past it (42_demodulator.md R148). -/
abbrev SyncState.rowInv (c : Cfg R σ) (y : SyncState) : Prop :=
  0 ≤ y.curLine.toInt ∧ y.curLine.toInt ≤ 2 * (c.videoHeight : Int) + 1

/-- The ring, the accepted-sample count and the boundary FIFO agree (10_state.md R36; 43_frame_resampler.md R183;
44_audio.md R200, R204). -/
abbrev State.ringInv (c : Cfg R σ) (s : State σ) : Prop :=
  s.audio.ringCount ≤ c.ringCap ∧ s.audio.ringRd < c.ringCap ∧ s.audio.ringWr < c.ringCap ∧
  (s.audio.ringRd + s.audio.ringCount) % c.ringCap = s.audio.ringWr ∧
  s.audio.ringRd % c.apf = 0 ∧ s.audio.accCnt < c.apf ∧
  s.audio.ringCount = s.frame.bndCount * c.apf + s.audio.accCnt ∧ s.frame.bndCount ≤ 8

/-- The audio fold and the reference rate converter are in range (42_demodulator.md R131; 44_audio.md R194, R196;
40_config_ops.md R83). -/
abbrev State.converterInv (c : Cfg R) (s : State) : Prop :=
  8 ≤ s.clockFreq.toNat ∧ s.audio.rs.inRate.toNat = s.clockFreq.toNat / 8 ∧
  s.audio.rs.outRate.toNat = c.sampleRate ∧ s.audio.rs.phase.toNat < s.audio.rs.inRate.toNat ∧
  -32768 * (s.audio.audioCnt.toNat : Int) ≤ s.audio.audioSum.toInt ∧
  s.audio.audioSum.toInt ≤ 32767 * (s.audio.audioCnt.toNat : Int)

/-- A good state: what holds after reset and after every command. -/
structure State.Good (c : Cfg R) (s : State) : Prop where
  memory : s.memoryWf c
  params : s.paramsInRange c
  bands : s.bandsInRange
  line : s.sync.lineInv (c.mode s.ntsc)
  buffer : s.sync.bufferInv c
  row : s.sync.rowInv c
  ring : s.ringInv c
  converter : s.converterInv c

/-- The Frame Resampler's times are in order: `outTime ≤ interpTime ≤` each pending boundary, oldest first,
`≤ cycleCnt`; and `frame0Time ≤ frame1Time = interpTime` (43_frame_resampler.md R178). It holds as long as `cycleCnt`
has not wrapped. -/
abbrev State.timesInOrder (s : State σ) : Prop :=
  s.frame.outTime.toNat ≤ s.frame.interpTime.toNat ∧ s.frame.interpTime.toNat ≤ s.cycleCnt.toNat ∧
  s.frame.frame1Time = s.frame.interpTime ∧ s.frame.frame0Time.toNat ≤ s.frame.frame1Time.toNat ∧
  ∀ i, i < s.frame.bndCount →
    s.frame.interpTime.toNat ≤ (Memory.read s.frame.bndFifo i).toNat ∧
    (Memory.read s.frame.bndFifo i).toNat ≤ s.cycleCnt.toNat ∧
    (i + 1 < s.frame.bndCount →
      (Memory.read s.frame.bndFifo i).toNat ≤ (Memory.read s.frame.bndFifo (i + 1)).toNat)

/-- The samples the ring holds, oldest first (44_audio.md R198). -/
def AudioState.live (c : Cfg R σ) (a : AudioState σ) : List S16 :=
  (List.range a.ringCount).map fun k => Memory.read a.ring ((a.ringRd + k) % c.ringCap)

/-- An event that is an output frame with whole planes and exactly `APF` samples (60_exceptions.md R216). -/
def Event.isWholeFrame (c : Cfg R σ) : Event → Prop
  | .frameOut y v u audio => y.size = c.ny ∧ v.size = c.nc ∧ u.size = c.nc ∧ audio.size = c.apf
  | .readData _ => False

/-- The line buffer holds these groups, stored as 30_encoding.md R62 says, from index `k` on. -/
def holdsGroups (buf : Memory 8) : Nat → List (Byte × Byte × Byte) → Prop
  | _, [] => True
  | k, (f, c0, c1) :: rest =>
    Memory.read buf k = f ∧ Memory.read buf (k + 1) = c0 ∧ (flagHalfWidth f = true → Memory.read buf (k + 2) = c1) ∧
    holdsGroups buf (k + 1 + colourBytes f) rest

/-- This cycle starts a field: the sync run has reached its length and the vertical counter its threshold
(42_demodulator.md R136). -/
def startsField (c : Cfg R σ) (f : Byte) (s : State σ) : Bool :=
  flagSync f && decide (c.vsyncRun ≤ (countSync s.sync.syncLengthCnt).toNat) &&
    decide ((c.mode s.ntsc).vsyncThr2 ≤ s.sync.vsyncCnt.toInt)

/-- This cycle finalises a line: after its sync steps the phase is one short of the period (42_demodulator.md R130 step 5,
R139). -/
def endsLine (c : Cfg R σ) (f : Byte) (s : State σ) : Bool :=
  let y := smpSync c (c.mode s.ntsc) f s.sync
  decide (y.lineLength.toNat ≤ (y.lineCnt + 1).toNat)

/-- How many of the cycles `l`, run one after the other from `s`, finalise a line (R146). -/
def lineEnds (c : Cfg R σ) : List (Byte × Byte × Byte × S16) → State σ → Nat
  | [], _ => 0
  | (f, c0, c1, a) :: rest, s => bit (endsLine c f s) + lineEnds c rest (smp c f c0 c1 a s)

/-- How many of the cycles `l`, run one after the other from `s`, start a field (R137). -/
def fieldStarts (c : Cfg R σ) : List (Byte × Byte × Byte × S16) → State σ → Nat
  | [], _ => 0
  | (f, c0, c1, a) :: rest, s => bit (startsField c f s) + fieldStarts c rest (smp c f c0 c1 a s)

/-- The converter's state after the samples `l`, and all it has put out (44_audio.md R193). -/
def runConverter (r : Resampler σ) : σ → List S16 → σ × List S16
  | st, [] => (st, [])
  | st, s :: rest =>
    let one := r.step st s
    let more := runConverter r one.1 rest
    (more.1, one.2 ++ more.2)

end Sys2Proof.Machine
end

