-- ==== Sys2Proof/Certificates/Slice0/Obligations.lean ====
section
/-! DEFINITION. What is claimed of VCAP: the statements for the provers. Each docstring names the rules of spec/ it
formalises, and the log entries of notes/assumptions it rests on where it rests on a choice of the model. Every statement
about `exec`, `step` or `cfg0` is about the reference instance `Cfg0`, which the machine runs (log entry 1); one about every
`Cfg` is about every parameter record of 00_scope.md R5 whose constants are rational (log entry 22), with any number
representation and any converter. -/

open Sys2Proof Sys2Proof.Machine

/-! ## Encoding -/

/-- R55 to R57, R70: decoding the assembler's word of any well-formed command gives the command back. -/
def Obligations.DecodeInvertsEncode : Prop :=
  ∀ i : Instr, i.wellFormed = true → decode (encode i) = i

/-- R56, R58: encoding what a word decodes to gives the word with its reserved bits 0, so no assigned bit is dropped
and no reserved bit is read. -/
def Obligations.EncodeRestoresAssignedBits : Prop :=
  ∀ w : BitVec 64, encode (decode w) = w &&& assignedBits (opcode w)

/-- R55, R56, R59: every word decodes to a well-formed command, and words that differ only in reserved bits decode
alike. -/
def Obligations.DecodeIsTotalAndIgnoresReservedBits : Prop :=
  (∀ w : BitVec 64, (decode w).wellFormed = true) ∧
  ∀ w w' : BitVec 64, opcode w = opcode w' → w &&& assignedBits (opcode w) = w' &&& assignedBits (opcode w) →
    decode w = decode w'

/-- R56: words written out from the encoding table decode to the commands they stand for (sanity). -/
def Obligations.SampleWordsDecode : Prop :=
  decode 0x0000000000000000 = .nop ∧
  decode 0x1000001000008000 = .smp 0x00 0x80 0x00 0x0010 ∧
  decode 0x20000000001B0F88 = .sclk 1773448 ∧
  decode 0x3000000000000001 = .smode true ∧
  decode 0x4000000400030000 = .sccp 4 0x00030000 ∧
  decode 0x5000012000004000 = .syuv false 1 0x20 0x00004000 ∧
  decode 0x7000070000000000 = .cmrd 0x700 ∧
  decode 0xA000000000000000 = .rst

/-! ## The step -/

/-- R80: when the host presents a word next, the step is the meaning of the decoded command on the state in which the
word has been taken from the port; every word decodes. -/
def Obligations.StepRunsDecodedCommand : Prop :=
  ∀ (s : State) (w : BitVec 64) (rest : List HostInput), s.input = .command w :: rest →
    step s = exec (decode w) { s with input := rest }

/-- R5, R11 (log entry 1): the machine is the machine of every configuration under the reference instance: its step, every
command and its reset state. -/
def Obligations.StepIsReferenceInstance : Prop :=
  (∀ s : State, step s = .next (stepOf cfg0 s)) ∧ (∀ (i : Instr) (s : State), exec i s = .next (commandOf cfg0 i s)) ∧
  State.reset = State.resetOf cfg0

/-- R80, R210: no command is ever refused, stalled or faulted, with any operands and in any state. -/
def Obligations.EveryCommandCompletes : Prop :=
  (∀ (i : Instr) (s : State), ∃ t, exec i s = .next t) ∧ ∀ s : State, ∃ t, step s = .next t

/-- R223, R230: with nothing presented the state is held; the hardware reset input has the effect of RST. -/
def Obligations.IdleHoldsAndResetInputIsRst : Prop :=
  (∀ s : State, s.input = [] → step s = .next s) ∧
  ∀ (s : State) (rest : List HostInput), s.input = .resetInput :: rest → step s = exec .rst { s with input := rest }

/-! ## Configuration and access commands -/

/-- R81, R91: NOP and the reserved opcodes change nothing, whatever their other 60 bits. -/
def Obligations.NopAndReservedChangeNothing : Prop :=
  (∀ (w : BitVec 64) (s : State), opcode w = 0x0 ∨ 0xB ≤ opcode w → exec (decode w) s = .next s) ∧
  ∀ s : State, exec .nop s = .next s ∧ exec .reservedB s = .next s ∧ exec .reservedC s = .next s ∧
    exec .reservedD s = .next s ∧ exec .reservedE s = .next s ∧ exec .reservedF s = .next s

/-- R83: SCLK sets the clock and re-initialises the converter at the input rate `HZ div 8`; below 8 it does nothing.
Nothing else changes. -/
def Obligations.SclkSetsClockAndConverter : Prop :=
  ∀ (hz : U32) (s : State),
    (8 ≤ hz.toNat → ∃ t, exec (.sclk hz) s = .next t ∧ t.clockFreq = hz ∧
      t.audio.rs.inRate.toNat = hz.toNat / 8 ∧ t.audio.rs.outRate.toNat = 48000 ∧
      t.audio.rs.phase = 0 ∧ t.audio.rs.prev = 0 ∧
      t = { s with clockFreq := t.clockFreq, audio := { s.audio with rs := t.audio.rs } }) ∧
    (hz.toNat < 8 → exec (.sclk hz) s = .next s)

/-- R84: SMODE with the current mode does nothing; with the other mode it restarts the sync state at the values of that
mode, rebuilds the colormap from the active parameters, and changes nothing else. -/
def Obligations.SmodeRestartsSyncOnChange : Prop :=
  ∀ (n : Bool) (s : State),
    (n = s.ntsc → exec (.smode n) s = .next s) ∧
    (n ≠ s.ntsc → ∃ t, exec (.smode n) s = .next t ∧ t.ntsc = n ∧
      t.sync.syncLengthCnt = 0 ∧ t.sync.hsyncCnt = 0 ∧ t.sync.hsyncPeriodInt = 114 ∧
      t.sync.lineLengthFilter = 7471104 ∧ t.sync.lineLength = 114 ∧ t.sync.lineCnt = 0 ∧
      t.sync.lineBufBytes = 0 ∧ t.sync.lineBufGroups = 0 ∧ t.sync.lineFlags = 0 ∧
      t.sync.vsyncCnt.toInt = (if n then 210 else 250) ∧ t.sync.fieldParity = false ∧ t.sync.curLine = 0 ∧
      t.sync.lineBuf = s.sync.lineBuf ∧
      t.colormapData = buildData cfg0 s.act s.actYuv s.idxYuv ∧ t.colormapTable = buildTable cfg0 n ∧
      t = { s with ntsc := t.ntsc, sync := t.sync, colormapData := t.colormapData,
                   colormapTable := t.colormapTable })

/-- R15, R85 under `Cfg0`: SCCP stores the value clamped to its field's range in the staged copy and touches nothing
else; an index from 14 on is ignored. -/
def Obligations.SccpClampsOnAssignment : Prop :=
  ∀ (idx : Nat) (val : S32) (s : State), s.ccp.size = 14 →
    (idx ≤ 13 → ∃ t, exec (.sccp idx val) s = .next t ∧
      (∀ lo hi : Int,
        [(-32768, 32768), (32768, 131072), (16384, 262144), (-11796480, 11796480), (0, 131072),
         (-32768, 32768), (32768, 131072), (16384, 262144), (-32768, 32768), (32768, 131072), (16384, 262144),
         (-32768, 32768), (32768, 131072), (16384, 262144)][idx]? = some (lo, hi) →
        (Memory.read t.ccp idx).toInt = max lo (min val.toInt hi)) ∧
      (∀ j, j ≠ idx → Memory.read t.ccp j = Memory.read s.ccp j) ∧ t.ccp.size = 14 ∧ t = { s with ccp := t.ccp }) ∧
    (14 ≤ idx → exec (.sccp idx val) s = .next s)

/-- R86: the words with opcode 5 are SYUV with these operands (and the example's word); SYUV writes one value of the
index-to-YUV table, unclamped; `CMP = 3` is ignored. Nothing else changes, the colormap included. -/
def Obligations.SyuvWritesOneValue : Prop :=
  (∀ w : BitVec 64, opcode w = 0x5 → decode w =
    .syuv (w.getLsbD 42) (w.extractLsb' 40 2).toNat (w.extractLsb' 32 8).toNat (w.extractLsb' 0 32)) ∧
  decode 0x5000012000004000 = .syuv false 1 0x20 0x00004000 ∧
  ∀ (n : Bool) (cmp idx : Nat) (val : S32) (s : State), s.idxYuv.size = 1536 → idx < 256 →
    (cmp ≤ 2 → ∃ t, exec (.syuv n cmp idx val) s = .next t ∧
      Memory.read t.idxYuv (idxYuvAt n idx cmp) = val ∧
      (∀ n' idx' cmp', idx' < 256 → cmp' ≤ 2 → (n', idx', cmp') ≠ (n, idx, cmp) →
        Memory.read t.idxYuv (idxYuvAt n' idx' cmp') = Memory.read s.idxYuv (idxYuvAt n' idx' cmp')) ∧
      t.idxYuv.size = 1536 ∧ t = { s with idxYuv := t.idxYuv }) ∧
    (cmp = 3 → exec (.syuv n cmp idx val) s = .next s)

/-- R87, R112, R113: CBLD copies the staged parameters, notes the format, and rebuilds every entry and every pattern's
band; nothing else changes. -/
def Obligations.CbldCommitsAndRebuilds : Prop :=
  ∀ (yuv : Bool) (s : State), ∃ t, exec (.cbld yuv) s = .next t ∧ t.act = s.ccp ∧ t.actYuv = yuv ∧
    (∀ b i, b < 18 → i < 256 →
      Memory.read t.colormapData (b * 256 + i) =
        packPixel cfg0 yuv (bandColour cfg0 s.ccp s.idxYuv (cfg0.bandRow b) i)) ∧
    (∀ p : Byte, (Memory.read t.colormapTable p.toNat).toNat = bandOf cfg0 s.ntsc p) ∧
    t.colormapData.size = 4608 ∧ t.colormapTable.size = 256 ∧
    t = { s with act := t.act, actYuv := t.actYuv, colormapData := t.colormapData,
                 colormapTable := t.colormapTable }

/-- R88: the words with opcode 7 are CMRD with this operand; CMRD answers the entry, or 0 from 4608 on, and changes
nothing else; and the rule's example after reset. -/
def Obligations.CmrdAnswersEntry : Prop :=
  (∀ w : BitVec 64, opcode w = 0x7 → decode w = .cmrd (w.extractLsb' 32 13).toNat) ∧
  (∃ t, exec (decode 0x7000070000000000) State.reset = .next t ∧ t.events = [.readData 0x00808010]) ∧
  ∀ (addr : Nat) (s : State),
    (addr < 4608 → exec (.cmrd addr) s =
      .next { s with events := s.events ++ [.readData (Memory.read s.colormapData addr)] }) ∧
    (4608 ≤ addr → exec (.cmrd addr) s = .next { s with events := s.events ++ [.readData 0] })

/-- R89 under `Cfg0`: CMWR writes one entry and nothing else; from 4608 on it is ignored. -/
def Obligations.CmwrWritesOneEntry : Prop :=
  ∀ (addr : Nat) (data : U32) (s : State), s.colormapData.size = 4608 →
    (addr < 4608 → ∃ t, exec (.cmwr addr data) s = .next t ∧ Memory.read t.colormapData addr = data ∧
      (∀ a, a ≠ addr → Memory.read t.colormapData a = Memory.read s.colormapData a) ∧
      t.colormapData.size = 4608 ∧ t = { s with colormapData := t.colormapData }) ∧
    (4608 ≤ addr → exec (.cmwr addr data) s = .next s)

/-- R39, R90: the words with opcode 9 are RDSR with this operand; RDSR answers the sixteen values of the status view, and
0 from 16 on, and changes nothing else; and the rule's example after reset. -/
def Obligations.RdsrAnswersStatusView : Prop :=
  (∀ w : BitVec 64, opcode w = 0x9 → decode w = .rdsr (w.extractLsb' 32 8).toNat) ∧
  (∃ t, exec (decode 0x9000000300000000) State.reset = .next t ∧ t.events = [.readData 114]) ∧
  ∀ (idx : Nat) (s : State), ∃ v : U32,
    exec (.rdsr idx) s = .next { s with events := s.events ++ [.readData v] } ∧
    v = [s.clockFreq, BitVec.ofNat 32 (2 * bit s.actYuv + bit s.ntsc), s.sync.hsyncCnt, s.sync.lineLength,
         s.sync.lineCnt, s.sync.vsyncCnt, s.sync.curLine,
         BitVec.ofNat 32 (2 * s.sync.lineFlags.toNat + bit s.sync.fieldParity), BitVec.ofNat 32 s.audio.ringCount,
         s.frame.framesOut, BitVec.ofNat 32 (s.cycleCnt.toNat % 2 ^ 32), BitVec.ofNat 32 (s.cycleCnt.toNat / 2 ^ 32),
         s.sync.syncLengthCnt, s.sync.hsyncPeriodInt, s.sync.lineLengthFilter,
         BitVec.ofNat 32 s.frame.bndCount].getD idx 0

/-- R82: RST takes the machine to the reset state from any state, whatever was accumulated; events already emitted are
not recalled. -/
def Obligations.RstReachesResetState : Prop :=
  ∀ s : State, ∃ t, exec .rst s = .next t ∧ t = { State.reset with input := s.input, events := s.events } ∧
    t.cycleCnt = 0 ∧ t.sync.lineFlags = 0 ∧ t.sync.fieldParity = false ∧
    (t.frame.framesOut = 0 ∧ t.frame.bndCount = 0 ∧ t.audio.ringCount = 0) ∧
    exec (.rdsr 1) t = .next { t with events := s.events ++ [.readData 2] }

/-- R231 (and R13 to R36, R232) under `Cfg0`: every register's value after reset, the whole colormap and its table as
CM_BUILD makes them (and the blanking pixel of band 7), and every element the picture memories start with. The memories
whose content R231 leaves unspecified (log entry 7) are not mentioned. -/
def Obligations.ResetLeavesStatedValues : Prop :=
  let s := State.reset
  s.clockFreq = 1773448 ∧ s.ntsc = false ∧ s.actYuv = true ∧ s.cycleCnt = 0 ∧
  s.ccp = #[0, 65536, 65536, 0, 65536, 0, 65536, 65536, 0, 65536, 65536, 0, 65536, 65536] ∧
  s.act = s.ccp ∧
  (∀ n i, i < 256 → Memory.read s.idxYuv (idxYuvAt n i 0) = BitVec.ofNat 32 ((i * 65536 + 127) / 255) ∧
    Memory.read s.idxYuv (idxYuvAt n i 1) = 0 ∧ Memory.read s.idxYuv (idxYuvAt n i 2) = 0) ∧
  s.sync.syncLengthCnt = 0 ∧ s.sync.hsyncCnt = 0 ∧ s.sync.hsyncPeriodInt = 114 ∧
  s.sync.lineLengthFilter = 7471104 ∧ s.sync.lineLength = 114 ∧ s.sync.lineCnt = 0 ∧ s.sync.lineBufBytes = 0 ∧
  s.sync.lineBufGroups = 0 ∧ s.sync.lineFlags = 0 ∧ s.sync.vsyncCnt = 250 ∧ s.sync.fieldParity = false ∧
  s.sync.curLine = 0 ∧ s.audio.audioSum = 0 ∧ s.audio.audioCnt = 0 ∧
  s.colormapData = buildData cfg0 s.act true s.idxYuv ∧ s.colormapTable = buildTable cfg0 false ∧
  (∀ i, i < 256 → Memory.read s.colormapData (7 * 256 + i) = 0x00808010) ∧
  (∀ k, k < 110592 → Memory.read s.videoBuf k = 0x00808010 ∧
    Memory.read s.frame.frameBuf0.y k = 0x10 ∧ Memory.read s.frame.frameBuf1.y k = 0x10 ∧
    Memory.read s.frame.interpBuf.y k = 0 ∧ Memory.read s.frame.outBuf.y k = 0) ∧
  (∀ k, k < 27648 → Memory.read s.frame.frameBuf0.v k = 0x80 ∧ Memory.read s.frame.frameBuf0.u k = 0x80 ∧
    Memory.read s.frame.frameBuf1.v k = 0x80 ∧ Memory.read s.frame.frameBuf1.u k = 0x80 ∧
    Memory.read s.frame.interpBuf.v k = 0 ∧ Memory.read s.frame.interpBuf.u k = 0 ∧
    Memory.read s.frame.outBuf.v k = 0 ∧ Memory.read s.frame.outBuf.u k = 0) ∧
  s.frame.frame0Time = 0 ∧ s.frame.frame1Time = 0 ∧ s.frame.interpTime = 0 ∧ s.frame.outTime = 0 ∧
  s.frame.bndCount = 0 ∧ s.frame.framesOut = 0 ∧
  s.audio.rs = { inRate := 221681, outRate := 48000, phase := 0, prev := 0 } ∧
  s.audio.ringRd = 0 ∧ s.audio.ringWr = 0 ∧ s.audio.ringCount = 0 ∧ s.audio.accCnt = 0

/-- R239, R51: an edit of the colormap by CMWR is lost at the next build: CBLD, a mode-changing SMODE or RST leaves the
state it would leave without the edit. -/
def Obligations.RebuildDiscardsColormapEdits : Prop :=
  ∀ (addr : Nat) (data : U32) (yuv n : Bool) (s : State), ∃ t, exec (.cmwr addr data) s = .next t ∧
    exec (.cbld yuv) t = exec (.cbld yuv) s ∧ (n ≠ s.ntsc → exec (.smode n) t = exec (.smode n) s) ∧
    exec .rst t = exec .rst s

/-- R50, R117: the entry CMWR wrote is the pixel of the very next lookup that reaches its band and index. -/
def Obligations.ColormapEditSeenByNextLookup : Prop :=
  ∀ (p i : Byte) (nc : Bool) (data : U32) (s : State), s.colormapData.size = 4608 → cmBand cfg0 s p nc < 18 →
    ∃ t, exec (.cmwr (cmBand cfg0 s p nc * 256 + i.toNat) data) s = .next t ∧ cmPix cfg0 t p i nc = data

/-- R80: no command but SMP and RST changes `cycleCnt`. -/
def Obligations.CycleCountAdvancesOnlyInSmp : Prop :=
  ∀ (i : Instr) (s t : State), exec i s = .next t → i ≠ .rst → (∀ f c0 c1 a, i ≠ .smp f c0 c1 a) →
    t.cycleCnt = s.cycleCnt

/-! ## SMP: frame -/

/-- R130, R140, R143, R150, R213, R216: SMP completes from every state; it counts one cycle; it writes no configuration
register and no colormap; of `videoBuf` it can change only the row of the current output line, of `lineBuf` only the
bytes of the group at `lineBufBytes`; it emits nothing but output frames, and those are whole. -/
def Obligations.SmpFrame : Prop :=
  ∀ (f c0 c1 : Byte) (a : S16) (s : State), ∃ (t : State) (evs : List Event),
    exec (.smp f c0 c1 a) s = .next t ∧ t.cycleCnt = s.cycleCnt + 1 ∧
    t = { s with sync := t.sync, audio := t.audio, cycleCnt := t.cycleCnt, videoBuf := t.videoBuf,
                 frame := t.frame, events := t.events } ∧
    (∀ k, k < (s.sync.curLine.toInt / 2).toNat * 384 ∨ (s.sync.curLine.toInt / 2).toNat * 384 + 384 ≤ k →
      Memory.read t.videoBuf k = Memory.read s.videoBuf k) ∧
    (∀ k, k < s.sync.lineBufBytes.toNat ∨ s.sync.lineBufBytes.toNat + 1 + colourBytes f ≤ k →
      Memory.read t.sync.lineBuf k = Memory.read s.sync.lineBuf k) ∧
    t.events = s.events ++ evs ∧ (s.memoryWf cfg0 → ∀ e ∈ evs, e.isWholeFrame cfg0)

/-- R236, R51: what SMP does is not touched by the staged or active parameters, the index-to-YUV table, the format flag
or the clock register: it commutes with any change of them. -/
def Obligations.SmpIgnoresParameters : Prop :=
  ∀ (f c0 c1 : Byte) (a : S16) (s : State) (p q r : Memory 32) (b : Bool) (h : U32), ∃ t : State,
    exec (.smp f c0 c1 a) s = .next t ∧
    exec (.smp f c0 c1 a) { s with ccp := p, act := q, idxYuv := r, actYuv := b, clockFreq := h } =
      .next { t with ccp := p, act := q, idxYuv := r, actYuv := b, clockFreq := h }

/-! ## SMP: sync recovery and line assembly -/

/-- R130, R138, R141 to R143, R62: a cycle without sync inside a line, seven of eight audio cycles: the whole next
state. The group is appended exactly in the window, whole, at `lineBufBytes`; the two line flags gather their bits. -/
def Obligations.SmpInsideLineAssembles : Prop :=
  ∀ (f c0 c1 : Byte) (a : S16) (s : State), flagSync f = false →
    s.sync.lineCnt.toNat + 1 < s.sync.lineLength.toNat → s.audio.audioCnt ≠ 7 →
    s.sync.lineBuf.size = 384 → s.sync.bufferInv cfg0 →
    let inWindow := 18 ≤ s.sync.lineCnt.toNat ∧ s.sync.lineBufGroups.toNat < 128
    ∃ t, exec (.smp f c0 c1 a) s = .next t ∧
      t = { s with
            cycleCnt := s.cycleCnt + 1
            audio := { s.audio with audioSum := s.audio.audioSum + a.signExtend 32, audioCnt := s.audio.audioCnt + 1 }
            sync := { s.sync with
              syncLengthCnt := 0, hsyncCnt := s.sync.hsyncCnt + 1, lineCnt := s.sync.lineCnt + 1,
              lineBuf := t.sync.lineBuf, lineBufBytes := t.sync.lineBufBytes,
              lineBufGroups := t.sync.lineBufGroups, lineFlags := t.sync.lineFlags } } ∧
      (burstFlag t.sync.lineFlags = true ↔ burstFlag s.sync.lineFlags = true ∨ flagBurst f = true) ∧
      (oddFlag t.sync.lineFlags = true ↔ oddFlag s.sync.lineFlags = true ∨ inWindow ∧ flagPhase f = true) ∧
      (inWindow → t.sync.lineBufGroups.toNat = s.sync.lineBufGroups.toNat + 1 ∧
        t.sync.lineBufBytes.toNat = s.sync.lineBufBytes.toNat + 1 + colourBytes f ∧
        holdsGroups t.sync.lineBuf s.sync.lineBufBytes.toNat [(f, c0, c1)] ∧
        ∀ k, k < s.sync.lineBufBytes.toNat → Memory.read t.sync.lineBuf k = Memory.read s.sync.lineBuf k) ∧
      (¬ inWindow → t.sync.lineBuf = s.sync.lineBuf ∧ t.sync.lineBufBytes = s.sync.lineBufBytes ∧
        t.sync.lineBufGroups = s.sync.lineBufGroups)

/-- R130, R138, R141 to R143, R62: any cycle that ends no line, at sync level or not, with any audio count: the whole
next state, in terms of the sync registers `y` that step 2 leaves and of the state `p` that step 1 leaves. The group is
appended exactly in the window, whole, at `lineBufBytes`; the window and the capacity are tested at the phase after step
2, which is this state's phase or, at the start of a sync run, `HSYNC_POS`. -/
def Obligations.SmpAssemblesLine : Prop :=
  ∀ (f c0 c1 : Byte) (a : S16) (s : State),
    let y := smpSync cfg0 (cfg0.mode s.ntsc) f s.sync
    let p := smpAudio cfg0 a { s with cycleCnt := s.cycleCnt + 1 }
    let inWindow := 18 ≤ y.lineCnt.toNat ∧ s.sync.lineBufGroups.toNat < 128
    y.lineCnt.toNat + 1 < y.lineLength.toNat → s.sync.lineBuf.size = 384 → s.sync.bufferInv cfg0 →
    ∃ t, exec (.smp f c0 c1 a) s = .next t ∧
      t = { s with
            cycleCnt := s.cycleCnt + 1
            audio := p.audio
            frame := { s.frame with bndFifo := p.frame.bndFifo, bndCount := p.frame.bndCount }
            sync := { y with
              lineCnt := y.lineCnt + 1, lineBuf := t.sync.lineBuf, lineBufBytes := t.sync.lineBufBytes,
              lineBufGroups := t.sync.lineBufGroups, lineFlags := t.sync.lineFlags } } ∧
      (y.lineCnt = s.sync.lineCnt ∨ flagSync f = true ∧ s.sync.syncLengthCnt = 0 ∧ y.lineCnt = 6) ∧
      (startsField cfg0 f s = false → y.vsyncCnt = s.sync.vsyncCnt ∧ y.fieldParity = s.sync.fieldParity) ∧
      (burstFlag t.sync.lineFlags = true ↔ burstFlag s.sync.lineFlags = true ∨ f &&& 0xC0 = 0x40) ∧
      (oddFlag t.sync.lineFlags = true ↔ oddFlag s.sync.lineFlags = true ∨ inWindow ∧ flagPhase f = true) ∧
      (inWindow → t.sync.lineBufGroups.toNat = s.sync.lineBufGroups.toNat + 1 ∧
        t.sync.lineBufBytes.toNat = s.sync.lineBufBytes.toNat + 1 + colourBytes f ∧
        holdsGroups t.sync.lineBuf s.sync.lineBufBytes.toNat [(f, c0, c1)] ∧
        ∀ k, k < s.sync.lineBufBytes.toNat → Memory.read t.sync.lineBuf k = Memory.read s.sync.lineBuf k) ∧
      (¬ inWindow → t.sync.lineBuf = s.sync.lineBuf ∧ t.sync.lineBufBytes = s.sync.lineBufBytes ∧
        t.sync.lineBufGroups = s.sync.lineBufGroups)

/-- R133, R134, R135: the start of a sync run. With the count since the reference written as `mc + k*lineLength`, `k`
least with `mc ≤ LINE_LEN_MAX`: an `mc` from `LINE_LEN_MIN` on updates both filter stages and the period and locks the
phase; below it, a stale start (`k > 0`) locks the phase only; any other start changes neither. -/
def Obligations.SyncRunStartReacquires : Prop :=
  ∀ (f c0 c1 : Byte) (a : S16) (s : State) (mc k : Nat), flagSync f = true → s.sync.syncLengthCnt = 0 →
    s.sync.lineInv (cfg0.mode s.ntsc) → s.sync.hsyncCnt.toNat = mc + k * s.sync.lineLength.toNat →
    mc ≤ (cfg0.mode s.ntsc).lineLenMax → (k = 0 ∨ (cfg0.mode s.ntsc).lineLenMax < mc + s.sync.lineLength.toNat) →
    ∃ t, exec (.smp f c0 c1 a) s = .next t ∧ t.sync.syncLengthCnt = 1 ∧
      ((cfg0.mode s.ntsc).lineLenMin ≤ mc →
        t.sync.hsyncPeriodInt.toNat = (3 * s.sync.hsyncPeriodInt.toNat + mc + 2) / 4 ∧
        t.sync.lineLengthFilter.toNat =
          (9 * s.sync.lineLengthFilter.toNat + t.sync.hsyncPeriodInt.toNat * 65536 + 5) / 10 ∧
        t.sync.lineLength.toNat = max (cfg0.mode s.ntsc).lineLenMin
          (min ((t.sync.lineLengthFilter.toNat + 0x8000) / 65536) (cfg0.mode s.ntsc).lineLenMax) ∧
        t.sync.hsyncCnt = 1 ∧ t.sync.lineCnt = 7) ∧
      (mc < (cfg0.mode s.ntsc).lineLenMin →
        t.sync.hsyncPeriodInt = s.sync.hsyncPeriodInt ∧ t.sync.lineLengthFilter = s.sync.lineLengthFilter ∧
        t.sync.lineLength = s.sync.lineLength ∧
        (0 < k → t.sync.hsyncCnt = 1 ∧ t.sync.lineCnt = 7) ∧
        (k = 0 → t.sync.hsyncCnt = s.sync.hsyncCnt + 1 ∧
          (s.sync.lineCnt.toNat + 1 < s.sync.lineLength.toNat → t.sync.lineCnt = s.sync.lineCnt + 1)))

/-- R133, R136 to R138 under `Cfg0`: the 26th and any later cycle of a sync run starts a field when the vertical counter
has reached its threshold (the parity from the phase, the reload from mode and parity), and otherwise leaves counter and
parity alone; where the cycle also ends a line (R146), LINE_DONE then counts it. The run is counted, and the phase and
the count since the reference go on by one. -/
def Obligations.VerticalSyncStartsField : Prop :=
  ∀ (f c0 c1 : Byte) (a : S16) (s : State), flagSync f = true → s.sync.syncLengthCnt ≠ 0 →
    6 ≤ s.sync.lineLength.toNat → s.sync.lineCnt.toNat < s.sync.lineLength.toNat →
    let ends := s.sync.lineCnt.toNat + 1 = s.sync.lineLength.toNat
    ∃ t, exec (.smp f c0 c1 a) s = .next t ∧
      t.sync.syncLengthCnt.toNat = min (s.sync.syncLengthCnt.toNat + 1) (2 ^ 32 - 1) ∧
      t.sync.hsyncCnt = s.sync.hsyncCnt + 1 ∧ t.sync.hsyncPeriodInt = s.sync.hsyncPeriodInt ∧
      t.sync.lineLengthFilter = s.sync.lineLengthFilter ∧ t.sync.lineLength = s.sync.lineLength ∧
      t.sync.lineCnt = (if ends then 0 else s.sync.lineCnt + 1) ∧
      (25 ≤ s.sync.syncLengthCnt.toNat → (if s.ntsc then 210 else 250) ≤ s.sync.vsyncCnt.toInt →
        (t.sync.fieldParity = true ↔
          s.sync.lineLength.toNat / 4 ≤ (s.sync.lineCnt.toNat + s.sync.lineLength.toNat - 6) % s.sync.lineLength.toNat ∧
          (s.sync.lineCnt.toNat + s.sync.lineLength.toNat - 6) % s.sync.lineLength.toNat <
            3 * s.sync.lineLength.toNat / 4) ∧
        t.sync.vsyncCnt.toInt =
          (if s.ntsc then (if t.sync.fieldParity then -19 else -18) else (if t.sync.fieldParity then -21 else -20)) +
            (if ends then 1 else 0)) ∧
      (s.sync.syncLengthCnt.toNat < 25 ∨ s.sync.vsyncCnt.toInt < (if s.ntsc then 210 else 250) →
        t.sync.fieldParity = s.sync.fieldParity ∧
        t.sync.vsyncCnt.toInt = min (s.sync.vsyncCnt.toInt + (if ends then 1 else 0)) (2 ^ 31 - 1))

/-- R137 under `Cfg0`: a sync run that spans less than the `VSYNC_THR2 - VSYNC_RELOAD` lines of the rule starts exactly
one field if it has at least 26 cycles and the vertical counter reaches its threshold by its last cycle (at its start, or
by the lines that end in the run), and else none. From a state within the line bounds a run of `k` cycles ends at most
`k / 110 + 1` lines, so that the first clause covers every run of fewer than 24970 cycles. -/
def Obligations.SyncRunStartsOneField : Prop :=
  ∀ (l : List (Byte × Byte × Byte × S16)) (s : State), (∀ x ∈ l, flagSync x.1 = true) → s.sync.syncLengthCnt = 0 →
    (lineEnds cfg0 l.dropLast s < (if s.ntsc then 228 else 270) →
      fieldStarts cfg0 l s =
        (if 26 ≤ l.length ∧
            (if s.ntsc then 210 else 250) ≤ s.sync.vsyncCnt.toInt + lineEnds cfg0 l.dropLast s then 1 else 0)) ∧
    (s.sync.lineInv (cfg0.mode s.ntsc) → 110 * lineEnds cfg0 l s ≤ l.length + 110)

/-- R137 under `Cfg0`: no cycle, of whatever runs, starts a field as long as the vertical counter stays below its
threshold; and after a cycle that starts a field none does in the next `VSYNC_THR2 - VSYNC_RELOAD` lines. -/
def Obligations.NoFieldStartBelowThreshold : Prop :=
  (∀ (l : List (Byte × Byte × Byte × S16)) (s : State),
    s.sync.vsyncCnt.toInt + lineEnds cfg0 l.dropLast s < (if s.ntsc then 210 else 250) → fieldStarts cfg0 l s = 0) ∧
  ∀ (x : Byte × Byte × Byte × S16) (l : List (Byte × Byte × Byte × S16)) (s : State), startsField cfg0 x.1 s = true →
    lineEnds cfg0 (x :: l).dropLast s < (if s.ntsc then 228 else 270) → fieldStarts cfg0 (x :: l) s = 1

/-- R139, R146, R148: the cycle that brings the line phase to `lineLength`, at sync level or not, finalises the line: it
runs DECODE_LINE on the line as it stands after steps 2 to 4 (`y`) and resets the line's accumulators. Where that does
not bring the vertical counter to 0, no frame is completed and no event is emitted: the whole next state, `p` being the
state that step 1 leaves. A cycle that also starts a field counts from the reload. -/
def Obligations.LineEndResetsAccumulators : Prop :=
  ∀ (f c0 c1 : Byte) (a : S16) (s : State),
    let y := smpLine cfg0 (cfg0.mode s.ntsc) f c0 c1 s.sync
    let p := smpAudio cfg0 a { s with cycleCnt := s.cycleCnt + 1 }
    y.lineLength.toNat ≤ (y.lineCnt + 1).toNat → y.vsyncCnt.toInt ≠ -1 →
    ∃ t, exec (.smp f c0 c1 a) s = .next t ∧
      t = { s with
            cycleCnt := s.cycleCnt + 1
            audio := p.audio
            frame := { s.frame with bndFifo := p.frame.bndFifo, bndCount := p.frame.bndCount }
            videoBuf := (decodeLine cfg0 { s with sync := y }).videoBuf
            sync := { y with
              lineCnt := 0, lineBufBytes := 0, lineBufGroups := 0, lineFlags := 0
              curLine := t.sync.curLine, vsyncCnt := t.sync.vsyncCnt } } ∧
      y.curLine = s.sync.curLine ∧
      t.sync.curLine.toInt =
        (if s.sync.curLine.toInt < 576 then s.sync.curLine.toInt + 2 else s.sync.curLine.toInt) ∧
      t.sync.vsyncCnt.toInt = min (y.vsyncCnt.toInt + 1) (2 ^ 31 - 1) ∧
      (startsField cfg0 f s = true →
        y.vsyncCnt.toInt =
          (if s.ntsc then (if y.fieldParity then -19 else -18) else (if y.fieldParity then -21 else -20))) ∧
      (startsField cfg0 f s = false → y.vsyncCnt = s.sync.vsyncCnt ∧ y.fieldParity = s.sync.fieldParity) ∧
      (flagSync f = false → y.lineCnt = s.sync.lineCnt ∧ y.lineLength = s.sync.lineLength)

/-- R146, R173 to R177, R180 to R182: the cycle whose line brings the vertical counter to 0 decodes that line (`y`, as
after steps 2 to 4) and completes a raw frame. The generations swap; the held picture is cut at every pending boundary,
oldest first: new event `j` is the output frame of boundary `j`, its planes the average over the interval that ends
there (the accumulated sum of the part since the last accumulation, finalised over the interval's length), its audio the
`j`-th 960 of the ring's samples in FIFO order; what is left up to this cycle stays in the accumulator; the times move.
`p` is the state that step 1 leaves, with its boundaries and samples. -/
def Obligations.FrameCompletionEmitsPendingFrames : Prop :=
  ∀ (f c0 c1 : Byte) (a : S16) (s : State),
    let y := smpLine cfg0 (cfg0.mode s.ntsc) f c0 c1 s.sync
    let p := smpAudio cfg0 a { s with cycleCnt := s.cycleCnt + 1 }
    let n := p.frame.bndCount
    let held := s.frame.frameBuf1
    let boundary (j : Nat) : U64 := Memory.read p.frame.bndFifo j
    let since (start : U64) (j : Nat) : U64 := if j = 0 then start else boundary (j - 1)
    let sum (old : Memory 8) (acc : Memory 32) (j : Nat) (upTo : U64) (k : Nat) : U32 :=
      BitVec.ofNat 32 ((if j = 0 then (Memory.read acc k).toNat else 0) +
        (Memory.read old k).toNat * ((upTo - since s.frame.interpTime j).toNat % 2 ^ 32))
    let out (old : Memory 8) (acc : Memory 32) (j k : Nat) : Byte :=
      if boundary j = since s.frame.outTime j then Memory.read old k
      else finalByte (sum old acc j (boundary j) k) (boundary j - since s.frame.outTime j).toNat
    y.lineLength.toNat ≤ (y.lineCnt + 1).toNat → y.vsyncCnt.toInt = -1 → s.memoryWf cfg0 → s.ringInv cfg0 →
    ∃ (t : State) (evs : List Event), exec (.smp f c0 c1 a) s = .next t ∧
      t = { s with
            cycleCnt := s.cycleCnt + 1, audio := t.audio, frame := t.frame, events := s.events ++ evs
            videoBuf := (decodeLine cfg0 { s with sync := y }).videoBuf
            sync := { y with
              lineCnt := 0, lineBufBytes := 0, lineBufGroups := 0, lineFlags := 0, vsyncCnt := 0
              curLine := if y.fieldParity then 1 else 0 } } ∧
      (s.audio.audioCnt ≠ 7 → p.frame = s.frame ∧ p.audio.live cfg0 = s.audio.live cfg0) ∧
      evs.length = n ∧
      (∀ j, j < n → ∃ (py pv pu : Memory 8) (audio : Memory 16), evs[j]? = some (.frameOut py pv pu audio) ∧
        py.size = 110592 ∧ pv.size = 27648 ∧ pu.size = 27648 ∧ audio.size = 960 ∧
        audio.toList = ((p.audio.live cfg0).drop (960 * j)).take 960 ∧
        (∀ k, k < 110592 → Memory.read py k = out held.y s.frame.interpBuf.y j k) ∧
        (∀ k, k < 27648 → Memory.read pv k = out held.v s.frame.interpBuf.v j k ∧
          Memory.read pu k = out held.u s.frame.interpBuf.u j k) ∧
        (j + 1 = n → t.frame.outBuf = { y := py, v := pv, u := pu })) ∧
      t.audio = { p.audio with ringRd := t.audio.ringRd, ringCount := p.audio.ringCount - 960 * n } ∧
      t.audio.live cfg0 = (p.audio.live cfg0).drop (960 * n) ∧
      t.frame.frameBuf0 = held ∧ t.frame.frame0Time = s.frame.frame1Time ∧
      t.frame.frameBuf1 = planar cfg0 t.videoBuf ∧ t.frame.frame1Time = s.cycleCnt + 1 ∧
      (∀ k, k < 110592 → Memory.read t.frame.interpBuf.y k = sum held.y s.frame.interpBuf.y n (s.cycleCnt + 1) k) ∧
      (∀ k, k < 27648 →
        Memory.read t.frame.interpBuf.v k = sum held.v s.frame.interpBuf.v n (s.cycleCnt + 1) k ∧
        Memory.read t.frame.interpBuf.u k = sum held.u s.frame.interpBuf.u n (s.cycleCnt + 1) k) ∧
      t.frame.interpTime = s.cycleCnt + 1 ∧ t.frame.outTime = since s.frame.outTime n ∧ t.frame.bndCount = 0 ∧
      t.frame.framesOut = s.frame.framesOut + BitVec.ofNat 32 n

/-- R182, R241: SMP emits something only in a cycle that ends with the vertical counter at 0, and counts in `framesOut`
exactly what it emits. -/
def Obligations.FramesOnlyAtFrameCompletion : Prop :=
  ∀ (f c0 c1 : Byte) (a : S16) (s : State), ∃ (t : State) (evs : List Event),
    exec (.smp f c0 c1 a) s = .next t ∧ t.events = s.events ++ evs ∧
    t.frame.framesOut = s.frame.framesOut + BitVec.ofNat 32 evs.length ∧
    (evs ≠ [] → t.sync.vsyncCnt = 0 ∧ t.sync.lineCnt = 0 ∧ t.frame.bndCount = 0)

/-! ## Line decode -/

/-- R118, R150 to R152: for a visible line with at least one group DECODE_LINE writes exactly the pixels of its row, which
come from the four source pixels of each of its groups: as they are where there are 384 and the odd flag is clear, else
blended between neighbours. Otherwise it writes nothing. -/
def Obligations.DecodeLineWritesExactlyOneRow : Prop :=
  ∀ s : State, s.videoBuf.size = 110592 →
    let nc := !burstFlag s.sync.lineFlags
    let src : Memory 32 := (decodeGroups cfg0 s nc s.sync.lineBufGroups.toNat 0).toArray
    (0 ≤ s.sync.curLine.toInt ∧ s.sync.curLine.toInt < 576 ∧ s.sync.lineBufGroups ≠ 0 →
      decodeLine cfg0 s = { s with videoBuf := (decodeLine cfg0 s).videoBuf } ∧
      (decodeLine cfg0 s).videoBuf.size = 110592 ∧ src.size = 4 * s.sync.lineBufGroups.toNat ∧
      (∀ (gs : List (Byte × Byte × Byte)) (x : Nat) (f c0 c1 : Byte), gs.length = s.sync.lineBufGroups.toNat →
        holdsGroups s.sync.lineBuf 0 gs → gs[x / 4]? = some (f, c0, c1) →
        Memory.read src x = cmPix cfg0 s f (if x % 4 < 2 ∨ flagHalfWidth f = false then c0 else c1) nc) ∧
      (∀ x, x < 384 → Memory.read (decodeLine cfg0 s).videoBuf ((s.sync.curLine.toInt / 2).toNat * 384 + x) =
        (if src.size = 384 ∧ oddFlag s.sync.lineFlags = false then Memory.read src x
         else blend cfg0 (Memory.read src (x * src.size / 384))
          (Memory.read src (min (x * src.size / 384 + 1) (src.size - 1))) (x * src.size % 384) 384)) ∧
      (∀ k, k < (s.sync.curLine.toInt / 2).toNat * 384 ∨ (s.sync.curLine.toInt / 2).toNat * 384 + 384 ≤ k →
        Memory.read (decodeLine cfg0 s).videoBuf k = Memory.read s.videoBuf k)) ∧
    (s.sync.curLine.toInt < 0 ∨ 576 ≤ s.sync.curLine.toInt ∨ s.sync.lineBufGroups = 0 → decodeLine cfg0 s = s)

/-- R157, R151, R118 (the round trip): a nominal line of 96 groups, with or without the odd flag, is decoded pixel for
pixel to the colormap entries of its groups. -/
def Obligations.NominalLineRoundTrip : Prop :=
  ∀ (s : State) (gs : List (Byte × Byte × Byte)) (x : Nat) (f c0 c1 : Byte), s.videoBuf.size = 110592 →
    0 ≤ s.sync.curLine.toInt → s.sync.curLine.toInt < 576 → s.sync.lineBufGroups = 96 → gs.length = 96 →
    holdsGroups s.sync.lineBuf 0 gs → x < 384 → gs[x / 4]? = some (f, c0, c1) →
    Memory.read (decodeLine cfg0 s).videoBuf ((s.sync.curLine.toInt / 2).toNat * 384 + x) =
      cmPix cfg0 s f (if x % 4 < 2 ∨ flagHalfWidth f = false then c0 else c1) (!burstFlag s.sync.lineFlags)

/-- R153: every lane of `blend` is the rounded weighted mean of the lanes of the two pixels, for both pixel widths; it
gives its first pixel at fraction 0, a pixel blended with itself is itself, and every lane lies between its two lanes. -/
def Obligations.BlendStaysBetweenPixels : Prop :=
  ∀ (R σ : Type) (c : Cfg R σ) (a b : Pixel) (f w : Nat),
    (c.pixT = 32 ∨ c.pixT = 16 ∧ a.toNat < 2 ^ 16 ∧ b.toNat < 2 ^ 16) → f < w →
    let lanes := if c.pixT = 32 then [(0, 8), (8, 8), (16, 8), (24, 8)] else [(0, 5), (5, 6), (11, 5)]
    blend c a b 0 w = a ∧ blend c a a f w = a ∧ (c.pixT = 16 → (blend c a b f w).toNat < 2 ^ 16) ∧
    ∀ lane ∈ lanes,
      laneOf (blend c a b f w) lane = (laneOf a lane * (w - f) + laneOf b lane * f + w / 2) / w ∧
      min (laneOf a lane) (laneOf b lane) ≤ laneOf (blend c a b f w) lane ∧
      laneOf (blend c a b f w) lane ≤ max (laneOf a lane) (laneOf b lane)

/-! ## Colormap -/

/-- R105, R103: with the neutral parameters and no chroma, the colour-correction transform is the clamp of the luma to
`[0, 1]` on all three channels: over the exact real numbers under every configuration that meets R5 and whose luma weights
sum to 1; and the machine's own transform is exact there, at every rational luma. -/
def Obligations.NeutralTransformIsClamp : Prop :=
  (∀ (σ : Type) (c : Cfg ℝ σ) (y : ℝ), c.wf = true → c.arith = exactArith → c.numerics.Lawful →
    c.wR + c.wG + c.wB = 1 →
    cc c neutralCcp y 0 0 = { r := max 0 (min y 1), g := max 0 (min y 1), b := max 0 (min y 1) }) ∧
  ∀ y : Rat, cc cfg0 neutralCcp (.rat y) (.rat 0) (.rat 0) =
    { r := .rat (max 0 (min y 1)), g := .rat (max 0 (min y 1)), b := .rat (max 0 (min y 1)) }

/-- R115: every entry of band 7 is the blanking pixel, whatever the index, the table and the parameters, under every
configuration that meets R5 and whose arithmetic keeps zeros, as the exact and the machine's own do; and its values under
`Cfg0`, and its 16-bit counterpart, with the neutral parameters. -/
def Obligations.BandSevenIsBlanking : Prop :=
  (∀ (R σ : Type) (c : Cfg R σ) (act idxYuv : Memory 32) (actYuv : Bool) (i : Nat), c.wf = true →
    c.arith.KeepsZero → i < 256 →
    Memory.read (buildData c act actYuv idxYuv) (7 * 256 + i) =
      packPixel c actYuv (cc c act (realOf c 0) (realOf c 0) (realOf c 0))) ∧
  (exactArith.KeepsZero ∧ realArith.KeepsZero) ∧
  packPixel cfg0 true (cc cfg0 neutralCcp (.rat 0) (.rat 0) (.rat 0)) = 0x00808010 ∧
  packPixel cfg0 false (cc cfg0 neutralCcp (.rat 0) (.rat 0) (.rat 0)) = 0x00000000 ∧
  packPixel { cfg0 with pixT := 16 } false
    (cc { cfg0 with pixT := 16 } neutralCcp (.rat 0) (.rat 0) (.rat 0)) = 0x0000

/-- R121: the colour of a band whose chroma scales are 0 depends on neither hue, saturation nor chroma, under every
configuration whose arithmetic keeps zeros. -/
def Obligations.MonochromeBandIgnoresChroma : Prop :=
  ∀ (R σ : Type) (c : Cfg R σ) (act act' idxYuv idxYuv' : Memory 32) (row : BandRow) (i : Nat),
    c.arith.KeepsZero → row.uScale = 0 → row.vScale = 0 →
    (∀ k, k ≠ 3 → k ≠ 4 → Memory.read act k = Memory.read act' k) →
    Memory.read idxYuv (idxYuvAt row.ntsc i 0) = Memory.read idxYuv' (idxYuvAt row.ntsc i 0) →
    bandColour c act idxYuv row i = bandColour c act' idxYuv' row i

/-- R112 over the exact real numbers: limiting scales a chroma vector longer than 0.21 down to length 0.21 in its own
direction, and leaves any other alone. -/
def Obligations.ChromaIsLimited : Prop :=
  ∀ (σ : Type) (c : Cfg ℝ σ) (u v : ℝ), c.arith = exactArith → c.numerics.sqrt = Real.sqrt → c.chromaMax = 21 / 100 →
    (u * u + v * v ≤ (21 / 100) * (21 / 100) → limitChroma c u v = (u, v)) ∧
    ((21 / 100) * (21 / 100) < u * u + v * v →
      (limitChroma c u v).1 * (limitChroma c u v).1 + (limitChroma c u v).2 * (limitChroma c u v).2 =
        (21 / 100) * (21 / 100) ∧
      ∃ k : ℝ, 0 < k ∧ k < 1 ∧ limitChroma c u v = (k * u, k * v))

/-- R112 in the order of R100, over the exact real numbers and under every configuration: each of the entries CM_BUILD
writes is the base triple with the burst injected, limited, rotated by the band's phase, scaled, colour-corrected and
packed, in this order. (Limiting before the scales, where D9 says 'after scaling': log entry 10.) -/
def Obligations.BuildFollowsPipelineOrder : Prop :=
  ∀ (σ : Type) (c : Cfg ℝ σ) (s : State σ) (b i : Nat), c.arith = exactArith → b < 18 → i < 256 →
    let row := c.bandRow b
    let base (cmp : Nat) : ℝ := ((qValue (Memory.read s.idxYuv (idxYuvAt row.ntsc i cmp)) : Rat) : ℝ)
    let top : ℝ := (c.chromaMax : ℝ)
    let bp : ℝ := if row.ntsc then 180 else 135
    let ph : ℝ := (row.phase : ℝ)
    let u1 := if row.hasBurst then base 1 + c.burstAmp * c.numerics.cos bp else base 1
    let v1 := if row.hasBurst then base 2 + c.burstAmp * c.numerics.sin bp else base 2
    let mag := c.numerics.sqrt (u1 * u1 + v1 * v1)
    let u2 := if top < mag then u1 * top / mag else u1
    let v2 := if top < mag then v1 * top / mag else v1
    let u3 := u2 * c.numerics.cos ph - v2 * c.numerics.sin ph
    let v3 := u2 * c.numerics.sin ph + v2 * c.numerics.cos ph
    Memory.read (cmBuild c s).colormapData (b * 256 + i) =
      packPixel c s.actYuv (cc c s.act (base 0 * row.yScale) (u3 * row.uScale) (v3 * row.vScale))

/-- R116: under every configuration that meets R5, the table is total on the 256 patterns and gives each exactly one
band, which only its six selector bits decide. -/
def Obligations.PatternBandUsesSixSelectorBits : Prop :=
  ∀ (R σ : Type) (c : Cfg R σ) (ntsc : Bool), c.wf = true → (buildTable c ntsc).size = 256 ∧
    ∀ p : Byte, (Memory.read (buildTable c ntsc) p.toNat).toNat < 18 ∧
      Memory.read (buildTable c ntsc) p.toNat = Memory.read (buildTable c ntsc) (p &&& 0xFC).toNat

/-- R5, R101, R195: the reference instance over the exact real numbers meets the constraints on a configuration, its
`Numerics` the laws, its converter the contract; and the machine runs it: every parameter of `cfg0` but the
representation of its real numbers is the reference instance's. -/
def Obligations.ReferenceInstanceIsValid : Prop :=
  cfg0Exact.Valid ∧ cfg0.wf = true ∧
  cfg0Exact = { cfg0 with arith := exactArith, numerics := exactNumerics }

/-- R6, R101, R112 (log entry 2): the numbers the machine computes of a colour stand for the exact ones, on every channel
and at every level that is rounded, with any parameters, table, band and index; so an entry whose roundings are decided
is the entry of the exact reference instance, in both pixel formats of `Cfg0`. -/
def Obligations.BuiltEntryIsExact : Prop :=
  ∀ (act idxYuv : Memory 32) (actYuv : Bool) (b i : Nat),
    let k := bandColour cfg0 act idxYuv (cfg0.bandRow b) i
    let x := bandColour cfg0Exact act idxYuv (cfg0Exact.bandRow b) i
    (k.r.val = x.r ∧ k.g.val = x.g ∧ k.b.val = x.b) ∧
    ((yuvLevels cfg0 k).y.val = (yuvLevels cfg0Exact x).y ∧ (yuvLevels cfg0 k).u.val = (yuvLevels cfg0Exact x).u ∧
      (yuvLevels cfg0 k).v.val = (yuvLevels cfg0Exact x).v) ∧
    ((rgbLevels cfg0 k).r.val = (rgbLevels cfg0Exact x).r ∧ (rgbLevels cfg0 k).g.val = (rgbLevels cfg0Exact x).g ∧
      (rgbLevels cfg0 k).b.val = (rgbLevels cfg0Exact x).b) ∧
    (actYuv = true → roundingDecided (yuvLevels cfg0 k).y = true → roundingDecided (yuvLevels cfg0 k).u = true →
      roundingDecided (yuvLevels cfg0 k).v = true →
      colormapEntry cfg0 act actYuv idxYuv b i = colormapEntry cfg0Exact act actYuv idxYuv b i) ∧
    (actYuv = false → roundingDecided (rgbLevels cfg0 k).r = true → roundingDecided (rgbLevels cfg0 k).g = true →
      roundingDecided (rgbLevels cfg0 k).b = true →
      colormapEntry cfg0 act actYuv idxYuv b i = colormapEntry cfg0Exact act actYuv idxYuv b i)

/-! ## Frame Resampler -/

/-- R171: every element of the planes of PLANAR, under every configuration: the luma byte of a pixel, and the rounded
mean of a chroma byte over a block of 2 by 2 pixels. -/
def Obligations.PlanarSplitsAndAverages : Prop :=
  ∀ (R σ : Type) (c : Cfg R σ) (buf : Memory 32) (r x : Nat),
    let w := c.videoWidth
    let mean (byte : Pixel → Byte) : Nat :=
      ((byte (Memory.read buf (2 * r * w + 2 * x))).toNat + (byte (Memory.read buf (2 * r * w + 2 * x + 1))).toNat +
        (byte (Memory.read buf ((2 * r + 1) * w + 2 * x))).toNat +
        (byte (Memory.read buf ((2 * r + 1) * w + 2 * x + 1))).toNat + 2) / 4
    ((planar c buf).y.size = w * c.videoHeight ∧ (planar c buf).v.size = (w / 2) * (c.videoHeight / 2) ∧
      (planar c buf).u.size = (w / 2) * (c.videoHeight / 2)) ∧
    (r < c.videoHeight → x < w →
      Memory.read (planar c buf).y (r * w + x) = (Memory.read buf (r * w + x)).extractLsb' 0 8) ∧
    (r < c.videoHeight / 2 → x < w / 2 →
      (Memory.read (planar c buf).v (r * (w / 2) + x)).toNat = mean (fun pix => pix.extractLsb' 16 8) ∧
      (Memory.read (planar c buf).u (r * (w / 2) + x)).toNat = mean (fun pix => pix.extractLsb' 8 8))

/-- R175: a picture held still over a whole output interval comes out exactly. -/
def Obligations.StillPictureIsReproduced : Prop :=
  ∀ v d : Nat, v < 256 → 1 ≤ d → 255 * d < 2 ^ 31 → (finalByte (BitVec.ofNat 32 (v * d)) d).toNat = v

/-- R175, R176: an output byte is the time-weighted mean of its interval, to within one level. -/
def Obligations.OutputByteIsWeightedMean : Prop :=
  ∀ (acc : U32) (d : Nat), 1 ≤ d → 255 * d < 2 ^ 31 → acc.toNat ≤ 255 * d →
    2 * (finalByte acc d).toNat * d ≤ 2 * acc.toNat + d ∧ acc.toNat < ((finalByte acc d).toNat + 1) * d

/-- R174, R175, R177, R181: a boundary step turns the accumulated picture into the emitted frame, element by element,
and restarts the accumulator and the times at the boundary; the rest of the machine is left alone. -/
def Obligations.BoundaryStepEmitsAverage : Prop :=
  ∀ (b : U64) (s : State), s.memoryWf cfg0 →
    let d := (b - s.frame.outTime).toNat
    let w := (b - s.frame.interpTime).toNat
    let out (held : Memory 8) (acc : Memory 32) (p : Nat) : Byte :=
      if d = 0 then Memory.read held p
      else finalByte (BitVec.ofNat 32 ((Memory.read acc p).toNat + (Memory.read held p).toNat * (w % 2 ^ 32))) d
    ∃ y v u : Memory 8, y.size = 110592 ∧ v.size = 27648 ∧ u.size = 27648 ∧
      (bndStep cfg0 b s).events = s.events ++ [.frameOut y v u (audioSlice cfg0 s.audio)] ∧
      (∀ p, p < 110592 → Memory.read y p = out s.frame.frameBuf0.y s.frame.interpBuf.y p ∧
        Memory.read (bndStep cfg0 b s).frame.interpBuf.y p = 0) ∧
      (∀ p, p < 27648 → Memory.read v p = out s.frame.frameBuf0.v s.frame.interpBuf.v p ∧
        Memory.read u p = out s.frame.frameBuf0.u s.frame.interpBuf.u p ∧
        Memory.read (bndStep cfg0 b s).frame.interpBuf.v p = 0 ∧
        Memory.read (bndStep cfg0 b s).frame.interpBuf.u p = 0) ∧
      (bndStep cfg0 b s).frame.interpTime = b ∧ (bndStep cfg0 b s).frame.outTime = b ∧
      (bndStep cfg0 b s).frame.framesOut = s.frame.framesOut + 1 ∧
      (bndStep cfg0 b s).frame.frameBuf0 = s.frame.frameBuf0 ∧ (bndStep cfg0 b s).frame.frameBuf1 = s.frame.frameBuf1 ∧
      bndStep cfg0 b s = { s with audio := (bndStep cfg0 b s).audio, frame := (bndStep cfg0 b s).frame,
                                  events := (bndStep cfg0 b s).events }

/-! ## Audio -/

/-- R131: the fold of eight samples is their mean rounded to nearest, halves up, and is a 16-bit sample. -/
def Obligations.FoldIsRoundedMean : Prop :=
  ∀ l : List S16, l.length = 8 →
    (foldedSample cfg0 (l.foldl (fun sum a => sum + a.signExtend 32) 0)).toInt = ((l.map BitVec.toInt).sum + 4) / 8

/-- R130 step 1, R193, R199, R200: the eighth audio cycle folds, steps the converter, and puts its outputs in the ring
as far as there is room; a boundary latched in it carries this cycle's count. (In any cycle that completes no frame;
FRAME_DONE takes samples and boundaries out again.) -/
def Obligations.EighthCycleFoldsIntoRing : Prop :=
  ∀ (f c0 c1 : Byte) (a : S16) (s : State),
    ¬ (endsLine cfg0 f s = true ∧ (smpSync cfg0 (cfg0.mode s.ntsc) f s.sync).vsyncCnt.toInt = -1) →
    s.audio.audioCnt = 7 → s.memoryWf cfg0 → s.ringInv cfg0 →
    s.converterInv cfg0 →
    ∃ t, exec (.smp f c0 c1 a) s = .next t ∧ t.audio.audioSum = 0 ∧ t.audio.audioCnt = 0 ∧
      t.audio.rs.inRate = s.audio.rs.inRate ∧ t.audio.rs.outRate = s.audio.rs.outRate ∧
      t.audio.rs.prev.toInt = (s.audio.audioSum.toInt + a.toInt + 4) / 8 ∧
      t.audio.rs.phase.toNat = (s.audio.rs.phase.toNat + 48000) % s.audio.rs.inRate.toNat ∧
      t.audio.live cfg0 =
        (s.audio.live cfg0 ++ (refResamplerStep s.audio.rs t.audio.rs.prev).2).take 7680 ∧
      t.ringInv cfg0 ∧
      (∀ k, k < s.frame.bndCount → Memory.read t.frame.bndFifo k = Memory.read s.frame.bndFifo k) ∧
      (∀ k, s.frame.bndCount ≤ k → k < t.frame.bndCount → Memory.read t.frame.bndFifo k = s.cycleCnt + 1)

/-- R198, R199, R200, R203: the ring is a bounded first-in first-out queue of 7680 samples. A write enters at the end or,
when full, is refused with no change at all; a burst of any size fills it and no more; a pop takes the 960 oldest. -/
def Obligations.RingIsBoundedFifo : Prop :=
  ∀ (s : State) (o : S16) (l : List S16), s.audio.ring.size = 7680 → s.frame.bndFifo.size = 8 → s.ringInv cfg0 →
    (s.audio.ringCount = 7680 → audioOut cfg0 o s = s) ∧
    (s.audio.ringCount < 7680 → (audioOut cfg0 o s).audio.live cfg0 = s.audio.live cfg0 ++ [o]) ∧
    (l.foldl (fun st x => audioOut cfg0 x st) s).audio.live cfg0 = (s.audio.live cfg0 ++ l).take 7680 ∧
    (960 ≤ s.audio.ringCount →
      (audioSlice cfg0 s.audio).toList = (s.audio.live cfg0).take 960 ∧
      (audioPop cfg0 s.audio).live cfg0 = (s.audio.live cfg0).drop 960)

/-- R196: after any samples from `init`, the reference converter has put out `floor(K * outRate / inRate)` samples. -/
def Obligations.ConverterOutputCount : Prop :=
  ∀ (inRate outRate : Nat) (l : List S16), 1 ≤ inRate → inRate < 2 ^ 32 → outRate < 2 ^ 32 →
    (runConverter refResampler (refResampler.init inRate outRate) l).2.length = l.length * outRate / inRate

/-- R196: every output of a step of the reference converter lies between the previous input sample and this one; so a
constant input comes out unchanged. -/
def Obligations.ConverterOutputInterpolates : Prop :=
  ∀ (st : RsState) (s o : S16), st.phase.toNat < st.inRate.toNat → o ∈ (refResampler.step st s).2 →
    min st.prev.toInt s.toInt ≤ o.toInt ∧ o.toInt ≤ max st.prev.toInt s.toInt

/-! ## Invariants -/

/-- The reset state is good (R15, R25, R26, R36, R54). The clauses on the unspecified memories say only their sizes. -/
def Obligations.ResetStateIsGood : Prop := State.reset.Good cfg0 ∧ State.reset.timesInOrder

/-- Every step keeps a good state good: the memories keep their sizes (R40, R54), the parameters their clamp ranges
(R15), the band table its bands (R19), the line period, phase and filter their bounds (R25, R26), the line buffer its
capacity (R143), the output line its range (R148), the ring, the boundary FIFO and their counts agree (R36, R183,
R200, R204), and the converter keeps its rates and phase (R196). -/
def Obligations.StepKeepsStateGood : Prop :=
  ∀ s t : State, s.Good cfg0 → step s = .next t → t.Good cfg0

/-- R178, R183: every step keeps the Frame Resampler's times in order, until the cycle counter wraps. -/
def Obligations.StepKeepsTimesInOrder : Prop :=
  ∀ s t : State, s.Good cfg0 → s.timesInOrder → s.cycleCnt.toNat + 1 < 2 ^ 64 → step s = .next t → t.timesInOrder

/-- R5, R36, R40, R54, R183, R195, R200, R204: under every configuration that meets R5, with a rate converter of any state
type and any behaviour, the reset state has memories of their sizes and a ring, an accepted-sample count and a boundary
FIFO that agree, and every step keeps them so. -/
def Obligations.EveryConfigurationKeepsMemoryAndRing : Prop :=
  ∀ (R σ : Type) (c : Cfg R σ), c.wf = true →
    ((State.resetOf c).memoryWf c ∧ (State.resetOf c).ringInv c) ∧
    ∀ s : State σ, s.memoryWf c → s.ringInv c → (stepOf c s).memoryWf c ∧ (stepOf c s).ringInv c
end

