-- ==== Sys2Proof/Laws/Memory.lean ====
section
/-! SUPPORT. The laws of the memory operations: read after write, and every operation keeps the canonical form. -/

namespace Sys2Proof.Machine

variable {w : Nat}

theorem Memory.wf_iff (n : Nat) (m : Memory w) : Memory.wf n m = true ↔ m.size = n := by
  simp [Memory.wf]

@[simp] theorem Memory.size_tabulate (n : Nat) (f : Nat → BitVec w) : (Memory.tabulate n f).size = n := by
  simp [Memory.tabulate]

@[simp] theorem Memory.size_fill (n : Nat) (v : BitVec w) : (Memory.fill n v).size = n := by
  simp [Memory.fill]

@[simp] theorem Memory.size_write (m : Memory w) (i : Nat) (v : BitVec w) : (Memory.write m i v).size = m.size := by
  simp [Memory.write]

@[simp] theorem Memory.size_update (m : Memory w) (f : Nat → BitVec w → BitVec w) :
    (Memory.update m f).size = m.size := by
  simp [Memory.update]

@[simp] theorem Memory.size_writeRange (m : Memory w) (base n : Nat) (f : Nat → BitVec w) :
    (Memory.writeRange m base n f).size = m.size := by
  simp [Memory.writeRange]

theorem Memory.read_tabulate (n : Nat) (f : Nat → BitVec w) (i : Nat) :
    Memory.read (Memory.tabulate n f) i = if i < n then f i else 0 := by
  unfold Memory.read Memory.tabulate
  by_cases h : i < n <;> simp [h, Array.getD]

@[simp] theorem Memory.read_tabulate_lt {n : Nat} (f : Nat → BitVec w) {i : Nat} (h : i < n) :
    Memory.read (Memory.tabulate n f) i = f i := by
  simp [Memory.read_tabulate, h]

theorem Memory.read_fill (n : Nat) (v : BitVec w) (i : Nat) :
    Memory.read (Memory.fill n v) i = if i < n then v else 0 := by
  simp [Memory.fill, Memory.read_tabulate]

theorem Memory.read_of_size_le (m : Memory w) {i : Nat} (h : m.size ≤ i) : Memory.read m i = 0 := by
  simp [Memory.read, Array.getD, Nat.not_lt.mpr h]

theorem Memory.read_write (m : Memory w) (i j : Nat) (v : BitVec w) :
    Memory.read (Memory.write m i v) j = if i = j ∧ i < m.size then v else Memory.read m j := by
  unfold Memory.read Memory.write
  simp only [Array.getD_eq_getD_getElem?, Array.getElem?_setIfInBounds]
  by_cases hij : i = j
  · subst hij
    by_cases h : i < m.size <;> simp [h]
  · simp [hij]

@[simp] theorem Memory.read_write_same (m : Memory w) {i : Nat} (v : BitVec w) (h : i < m.size) :
    Memory.read (Memory.write m i v) i = v := by
  simp [Memory.read_write, h]

theorem Memory.read_write_other (m : Memory w) {i j : Nat} (v : BitVec w) (h : i ≠ j) :
    Memory.read (Memory.write m i v) j = Memory.read m j := by
  simp [Memory.read_write, h]

theorem Memory.read_update (m : Memory w) (f : Nat → BitVec w → BitVec w) (i : Nat) :
    Memory.read (Memory.update m f) i = if i < m.size then f i (Memory.read m i) else 0 := by
  simp [Memory.update, Memory.read_tabulate]

theorem Memory.read_writeRange (m : Memory w) (base n : Nat) (f : Nat → BitVec w) (i : Nat) :
    Memory.read (Memory.writeRange m base n f) i =
      if i < m.size then (if base ≤ i ∧ i < base + n then f (i - base) else Memory.read m i) else 0 := by
  simp [Memory.writeRange, Memory.read_update]

theorem Memory.read_writeRange_inside (m : Memory w) {base n : Nat} (f : Nat → BitVec w) {x : Nat}
    (hx : x < n) (hs : base + n ≤ m.size) : Memory.read (Memory.writeRange m base n f) (base + x) = f x := by
  rw [Memory.read_writeRange, if_pos (by omega), if_pos (by omega)]
  congr 1
  omega

theorem Memory.read_writeRange_outside (m : Memory w) {base n : Nat} (f : Nat → BitVec w) {i : Nat}
    (h : i < base ∨ base + n ≤ i) : Memory.read (Memory.writeRange m base n f) i = Memory.read m i := by
  rw [Memory.read_writeRange]
  split
  · rw [if_neg (by omega)]
  · rw [Memory.read_of_size_le m (by omega)]

/-- Two memories of one size that read alike are equal: the array is the only form of its contents. -/
theorem Memory.ext_read {m m' : Memory w} (hs : m.size = m'.size)
    (h : ∀ i, i < m.size → Memory.read m i = Memory.read m' i) : m = m' := by
  apply Array.ext hs
  intro i h1 h2
  have := h i h1
  simpa [Memory.read, Array.getD, h1, h2] using this

/-! The canonical form is kept by every memory operation. -/

theorem Memory.wf_tabulate (n : Nat) (f : Nat → BitVec w) : Memory.wf n (Memory.tabulate n f) = true := by
  simp [Memory.wf]

theorem Memory.wf_fill (n : Nat) (v : BitVec w) : Memory.wf n (Memory.fill n v) = true := by
  simp [Memory.wf]

theorem Memory.wf_write {n : Nat} {m : Memory w} (h : Memory.wf n m = true) (i : Nat) (v : BitVec w) :
    Memory.wf n (Memory.write m i v) = true := by
  simpa [Memory.wf] using h

theorem Memory.wf_update {n : Nat} {m : Memory w} (h : Memory.wf n m = true) (f : Nat → BitVec w → BitVec w) :
    Memory.wf n (Memory.update m f) = true := by
  simpa [Memory.wf] using h

theorem Memory.wf_writeRange {n : Nat} {m : Memory w} (h : Memory.wf n m = true) (base k : Nat)
    (f : Nat → BitVec w) : Memory.wf n (Memory.writeRange m base k f) = true := by
  simpa [Memory.wf] using h

end Sys2Proof.Machine
end

