-- ==== Sys2Proof/Laws/Reference.lean ====
section
/-! SUPPORT. The numbers of the reference instance, and what its rate converter keeps. -/

namespace Sys2Proof.Machine

@[simp] theorem cfg0_apf : cfg0.apf = 960 := rfl
@[simp] theorem cfg0_ringCap : cfg0.ringCap = 7680 := rfl
@[simp] theorem cfg0_ny : cfg0.ny = 110592 := rfl
@[simp] theorem cfg0_nc : cfg0.nc = 27648 := rfl
@[simp] theorem cfg0_videoWidth : cfg0.videoWidth = 384 := rfl
@[simp] theorem cfg0_videoHeight : cfg0.videoHeight = 288 := rfl
@[simp] theorem cfg0_sampleRate : cfg0.sampleRate = 48000 := rfl
@[simp] theorem cfg0_lineBufGroups : cfg0.lineBufGroups = 128 := rfl
@[simp] theorem cfg0_vsyncRun : cfg0.vsyncRun = 26 := rfl
@[simp] theorem cfg0_pixT : cfg0.pixT = 32 := rfl
@[simp] theorem cfg0_audioBias : cfg0.audioBias = 4 := rfl
@[simp] theorem cfg0_resampler : cfg0.resampler = refResampler := rfl
@[simp] theorem cfg0_numerics : cfg0.numerics = realNumerics := rfl
@[simp] theorem cfg0_arith : cfg0.arith = realArith := rfl
@[simp] theorem cfg0Exact_numerics : cfg0Exact.numerics = exactNumerics := rfl
@[simp] theorem cfg0Exact_arith : cfg0Exact.arith = exactArith := rfl
@[simp] theorem cfg0_mode_pal : cfg0.mode false = refPal := rfl
@[simp] theorem cfg0_mode_ntsc : cfg0.mode true = refNtsc := rfl

/-- The two modes of the reference instance agree on the line window and lie in these bounds. -/
theorem cfg0_mode_bounds (ntsc : Bool) :
    (cfg0.mode ntsc).lineStart = 18 ∧ (cfg0.mode ntsc).hsyncPos = 6 ∧ (cfg0.mode ntsc).lineLenNom = 114 ∧
    110 ≤ (cfg0.mode ntsc).lineLenMin ∧ (cfg0.mode ntsc).lineLenMin ≤ 111 ∧
    117 ≤ (cfg0.mode ntsc).lineLenMax ∧ (cfg0.mode ntsc).lineLenMax ≤ 118 ∧
    210 ≤ (cfg0.mode ntsc).vsyncThr2 ∧ (cfg0.mode ntsc).vsyncThr2 ≤ 250 ∧
    ∀ p, -21 ≤ (cfg0.mode ntsc).vsyncReload p ∧ (cfg0.mode ntsc).vsyncReload p ≤ -18 := by
  cases ntsc <;> decide

theorem cfg0_resampler_init (i o : Nat) : cfg0.resampler.init i o = refResamplerInit i o := rfl
theorem cfg0_resampler_step (st : RsState) (s : S16) : cfg0.resampler.step st s = refResamplerStep st s := rfl

/-- A step of the reference converter keeps its rates, and keeps the phase below the input rate. -/
theorem refResamplerStep_state (st : RsState) (s : S16) (h : 0 < st.inRate.toNat) :
    (refResamplerStep st s).1.inRate = st.inRate ∧ (refResamplerStep st s).1.outRate = st.outRate ∧
    (refResamplerStep st s).1.prev = s ∧ (refResamplerStep st s).1.phase.toNat < st.inRate.toNat := by
  refine ⟨rfl, rfl, rfl, ?_⟩
  have h1 : (st.phase.toNat + st.outRate.toNat) % st.inRate.toNat < st.inRate.toNat := Nat.mod_lt _ h
  have h2 := st.inRate.isLt
  simp only [refResamplerStep, BitVec.toNat_ofNat]
  rw [Nat.mod_eq_of_lt (by omega)]
  exact h1

/-- A step of the reference converter emits one sample for each whole input period. -/
theorem refResamplerStep_length (st : RsState) (s : S16) :
    (refResamplerStep st s).2.length = (st.phase.toNat + st.outRate.toNat) / st.inRate.toNat := by
  simp [refResamplerStep]

/-- The phase of the reference converter, exactly. -/
theorem refResamplerStep_phase (st : RsState) (s : S16) (h : 0 < st.inRate.toNat) :
    (refResamplerStep st s).1.phase.toNat = (st.phase.toNat + st.outRate.toNat) % st.inRate.toNat := by
  have h1 : (st.phase.toNat + st.outRate.toNat) % st.inRate.toNat < st.inRate.toNat := Nat.mod_lt _ h
  have h2 := st.inRate.isLt
  simp only [refResamplerStep, BitVec.toNat_ofNat]
  rw [Nat.mod_eq_of_lt (by omega)]

/-- The exact functions meet the laws of R101. -/
theorem exactNumerics_lawful : exactNumerics.Lawful where
  sin_zero := by simp [exactNumerics, degrees]
  cos_zero := by simp [exactNumerics, degrees]
  sqrt_zero := Real.sqrt_zero
  pow_zero _ he := Real.zero_rpow he.ne'
  pow_one_left _ _ := Real.one_rpow _
  pow_one_right _ _ := Real.rpow_one _
  rnd_int k := by
    show ⌊(k : ℝ) + 1 / 2⌋ = k
    rw [Int.floor_eq_iff]
    constructor <;> norm_num

end Sys2Proof.Machine
end

