-- ==== Sys2Proof/Laws/State.lean ====
section
/-! SUPPORT. One lemma per field per named update of the state records, each true by rfl: no later proof unfolds an
update to see what it leaves alone. -/

namespace Sys2Proof.Machine

variable {R σ : Type}

/-! ## emit -/

@[simp] theorem emit_clockFreq (e : Event) (s : State σ) : (emit e s).clockFreq = s.clockFreq := rfl
@[simp] theorem emit_ntsc (e : Event) (s : State σ) : (emit e s).ntsc = s.ntsc := rfl
@[simp] theorem emit_ccp (e : Event) (s : State σ) : (emit e s).ccp = s.ccp := rfl
@[simp] theorem emit_idxYuv (e : Event) (s : State σ) : (emit e s).idxYuv = s.idxYuv := rfl
@[simp] theorem emit_act (e : Event) (s : State σ) : (emit e s).act = s.act := rfl
@[simp] theorem emit_actYuv (e : Event) (s : State σ) : (emit e s).actYuv = s.actYuv := rfl
@[simp] theorem emit_colormapData (e : Event) (s : State σ) : (emit e s).colormapData = s.colormapData := rfl
@[simp] theorem emit_colormapTable (e : Event) (s : State σ) : (emit e s).colormapTable = s.colormapTable := rfl
@[simp] theorem emit_sync (e : Event) (s : State σ) : (emit e s).sync = s.sync := rfl
@[simp] theorem emit_audio (e : Event) (s : State σ) : (emit e s).audio = s.audio := rfl
@[simp] theorem emit_cycleCnt (e : Event) (s : State σ) : (emit e s).cycleCnt = s.cycleCnt := rfl
@[simp] theorem emit_videoBuf (e : Event) (s : State σ) : (emit e s).videoBuf = s.videoBuf := rfl
@[simp] theorem emit_frame (e : Event) (s : State σ) : (emit e s).frame = s.frame := rfl
@[simp] theorem emit_input (e : Event) (s : State σ) : (emit e s).input = s.input := rfl
@[simp] theorem emit_events (e : Event) (s : State σ) : (emit e s).events = s.events ++ [e] := rfl

/-! ## cmBuild -/

@[simp] theorem cmBuild_clockFreq (c : Cfg R σ) (s : State σ) : (cmBuild c s).clockFreq = s.clockFreq := rfl
@[simp] theorem cmBuild_ntsc (c : Cfg R σ) (s : State σ) : (cmBuild c s).ntsc = s.ntsc := rfl
@[simp] theorem cmBuild_ccp (c : Cfg R σ) (s : State σ) : (cmBuild c s).ccp = s.ccp := rfl
@[simp] theorem cmBuild_idxYuv (c : Cfg R σ) (s : State σ) : (cmBuild c s).idxYuv = s.idxYuv := rfl
@[simp] theorem cmBuild_act (c : Cfg R σ) (s : State σ) : (cmBuild c s).act = s.act := rfl
@[simp] theorem cmBuild_actYuv (c : Cfg R σ) (s : State σ) : (cmBuild c s).actYuv = s.actYuv := rfl
@[simp] theorem cmBuild_colormapData (c : Cfg R σ) (s : State σ) :
    (cmBuild c s).colormapData = buildData c s.act s.actYuv s.idxYuv := rfl
@[simp] theorem cmBuild_colormapTable (c : Cfg R σ) (s : State σ) : (cmBuild c s).colormapTable = buildTable c s.ntsc := rfl
@[simp] theorem cmBuild_sync (c : Cfg R σ) (s : State σ) : (cmBuild c s).sync = s.sync := rfl
@[simp] theorem cmBuild_audio (c : Cfg R σ) (s : State σ) : (cmBuild c s).audio = s.audio := rfl
@[simp] theorem cmBuild_cycleCnt (c : Cfg R σ) (s : State σ) : (cmBuild c s).cycleCnt = s.cycleCnt := rfl
@[simp] theorem cmBuild_videoBuf (c : Cfg R σ) (s : State σ) : (cmBuild c s).videoBuf = s.videoBuf := rfl
@[simp] theorem cmBuild_frame (c : Cfg R σ) (s : State σ) : (cmBuild c s).frame = s.frame := rfl
@[simp] theorem cmBuild_input (c : Cfg R σ) (s : State σ) : (cmBuild c s).input = s.input := rfl
@[simp] theorem cmBuild_events (c : Cfg R σ) (s : State σ) : (cmBuild c s).events = s.events := rfl

/-! ## resetMachine -/

@[simp] theorem resetMachine_clockFreq (c : Cfg R σ) (s : State σ) :
    (resetMachine c s).clockFreq = (State.resetOf c).clockFreq := rfl
@[simp] theorem resetMachine_ntsc (c : Cfg R σ) (s : State σ) : (resetMachine c s).ntsc = (State.resetOf c).ntsc := rfl
@[simp] theorem resetMachine_ccp (c : Cfg R σ) (s : State σ) : (resetMachine c s).ccp = (State.resetOf c).ccp := rfl
@[simp] theorem resetMachine_idxYuv (c : Cfg R σ) (s : State σ) :
    (resetMachine c s).idxYuv = (State.resetOf c).idxYuv := rfl
@[simp] theorem resetMachine_act (c : Cfg R σ) (s : State σ) : (resetMachine c s).act = (State.resetOf c).act := rfl
@[simp] theorem resetMachine_actYuv (c : Cfg R σ) (s : State σ) :
    (resetMachine c s).actYuv = (State.resetOf c).actYuv := rfl
@[simp] theorem resetMachine_colormapData (c : Cfg R σ) (s : State σ) :
    (resetMachine c s).colormapData = (State.resetOf c).colormapData := rfl
@[simp] theorem resetMachine_colormapTable (c : Cfg R σ) (s : State σ) :
    (resetMachine c s).colormapTable = (State.resetOf c).colormapTable := rfl
@[simp] theorem resetMachine_sync (c : Cfg R σ) (s : State σ) : (resetMachine c s).sync = (State.resetOf c).sync := rfl
@[simp] theorem resetMachine_audio (c : Cfg R σ) (s : State σ) : (resetMachine c s).audio = (State.resetOf c).audio := rfl
@[simp] theorem resetMachine_cycleCnt (c : Cfg R σ) (s : State σ) :
    (resetMachine c s).cycleCnt = (State.resetOf c).cycleCnt := rfl
@[simp] theorem resetMachine_videoBuf (c : Cfg R σ) (s : State σ) :
    (resetMachine c s).videoBuf = (State.resetOf c).videoBuf := rfl
@[simp] theorem resetMachine_frame (c : Cfg R σ) (s : State σ) : (resetMachine c s).frame = (State.resetOf c).frame := rfl
@[simp] theorem resetMachine_input (c : Cfg R σ) (s : State σ) : (resetMachine c s).input = s.input := rfl
@[simp] theorem resetMachine_events (c : Cfg R σ) (s : State σ) : (resetMachine c s).events = s.events := rfl

/-! ## emitFrame -/

@[simp] theorem emitFrame_clockFreq (c : Cfg R σ) (s : State σ) : (emitFrame c s).clockFreq = s.clockFreq := rfl
@[simp] theorem emitFrame_ntsc (c : Cfg R σ) (s : State σ) : (emitFrame c s).ntsc = s.ntsc := rfl
@[simp] theorem emitFrame_ccp (c : Cfg R σ) (s : State σ) : (emitFrame c s).ccp = s.ccp := rfl
@[simp] theorem emitFrame_idxYuv (c : Cfg R σ) (s : State σ) : (emitFrame c s).idxYuv = s.idxYuv := rfl
@[simp] theorem emitFrame_act (c : Cfg R σ) (s : State σ) : (emitFrame c s).act = s.act := rfl
@[simp] theorem emitFrame_actYuv (c : Cfg R σ) (s : State σ) : (emitFrame c s).actYuv = s.actYuv := rfl
@[simp] theorem emitFrame_colormapData (c : Cfg R σ) (s : State σ) : (emitFrame c s).colormapData = s.colormapData := rfl
@[simp] theorem emitFrame_colormapTable (c : Cfg R σ) (s : State σ) : (emitFrame c s).colormapTable = s.colormapTable := rfl
@[simp] theorem emitFrame_sync (c : Cfg R σ) (s : State σ) : (emitFrame c s).sync = s.sync := rfl
@[simp] theorem emitFrame_audio (c : Cfg R σ) (s : State σ) : (emitFrame c s).audio = audioPop c s.audio := rfl
@[simp] theorem emitFrame_cycleCnt (c : Cfg R σ) (s : State σ) : (emitFrame c s).cycleCnt = s.cycleCnt := rfl
@[simp] theorem emitFrame_videoBuf (c : Cfg R σ) (s : State σ) : (emitFrame c s).videoBuf = s.videoBuf := rfl
@[simp] theorem emitFrame_frame (c : Cfg R σ) (s : State σ) :
    (emitFrame c s).frame = { s.frame with framesOut := s.frame.framesOut + 1 } := rfl
@[simp] theorem emitFrame_input (c : Cfg R σ) (s : State σ) : (emitFrame c s).input = s.input := rfl
@[simp] theorem emitFrame_events (c : Cfg R σ) (s : State σ) :
    (emitFrame c s).events =
      s.events ++ [.frameOut s.frame.outBuf.y s.frame.outBuf.v s.frame.outBuf.u (audioSlice c s.audio)] := rfl

/-! ## bndStep -/

@[simp] theorem bndStep_clockFreq (c : Cfg R σ) (t : U64) (s : State σ) : (bndStep c t s).clockFreq = s.clockFreq := rfl
@[simp] theorem bndStep_ntsc (c : Cfg R σ) (t : U64) (s : State σ) : (bndStep c t s).ntsc = s.ntsc := rfl
@[simp] theorem bndStep_ccp (c : Cfg R σ) (t : U64) (s : State σ) : (bndStep c t s).ccp = s.ccp := rfl
@[simp] theorem bndStep_idxYuv (c : Cfg R σ) (t : U64) (s : State σ) : (bndStep c t s).idxYuv = s.idxYuv := rfl
@[simp] theorem bndStep_act (c : Cfg R σ) (t : U64) (s : State σ) : (bndStep c t s).act = s.act := rfl
@[simp] theorem bndStep_actYuv (c : Cfg R σ) (t : U64) (s : State σ) : (bndStep c t s).actYuv = s.actYuv := rfl
@[simp] theorem bndStep_colormapData (c : Cfg R σ) (t : U64) (s : State σ) :
    (bndStep c t s).colormapData = s.colormapData := rfl
@[simp] theorem bndStep_colormapTable (c : Cfg R σ) (t : U64) (s : State σ) :
    (bndStep c t s).colormapTable = s.colormapTable := rfl
@[simp] theorem bndStep_sync (c : Cfg R σ) (t : U64) (s : State σ) : (bndStep c t s).sync = s.sync := rfl
@[simp] theorem bndStep_audio (c : Cfg R σ) (t : U64) (s : State σ) : (bndStep c t s).audio = audioPop c s.audio := rfl
@[simp] theorem bndStep_cycleCnt (c : Cfg R σ) (t : U64) (s : State σ) : (bndStep c t s).cycleCnt = s.cycleCnt := rfl
@[simp] theorem bndStep_videoBuf (c : Cfg R σ) (t : U64) (s : State σ) : (bndStep c t s).videoBuf = s.videoBuf := rfl
@[simp] theorem bndStep_frame (c : Cfg R σ) (t : U64) (s : State σ) :
    (bndStep c t s).frame = { cutAt c t s.frame with framesOut := s.frame.framesOut + 1 } := rfl
@[simp] theorem bndStep_input (c : Cfg R σ) (t : U64) (s : State σ) : (bndStep c t s).input = s.input := rfl
@[simp] theorem bndStep_events (c : Cfg R σ) (t : U64) (s : State σ) :
    (bndStep c t s).events =
      s.events ++ [.frameOut (cutAt c t s.frame).outBuf.y (cutAt c t s.frame).outBuf.v 
        (cutAt c t s.frame).outBuf.u (audioSlice c s.audio)] := rfl

/-! ## accumToNow -/

@[simp] theorem accumToNow_clockFreq (s : State σ) : (accumToNow s).clockFreq = s.clockFreq := rfl
@[simp] theorem accumToNow_ntsc (s : State σ) : (accumToNow s).ntsc = s.ntsc := rfl
@[simp] theorem accumToNow_ccp (s : State σ) : (accumToNow s).ccp = s.ccp := rfl
@[simp] theorem accumToNow_idxYuv (s : State σ) : (accumToNow s).idxYuv = s.idxYuv := rfl
@[simp] theorem accumToNow_act (s : State σ) : (accumToNow s).act = s.act := rfl
@[simp] theorem accumToNow_actYuv (s : State σ) : (accumToNow s).actYuv = s.actYuv := rfl
@[simp] theorem accumToNow_colormapData (s : State σ) : (accumToNow s).colormapData = s.colormapData := rfl
@[simp] theorem accumToNow_colormapTable (s : State σ) : (accumToNow s).colormapTable = s.colormapTable := rfl
@[simp] theorem accumToNow_sync (s : State σ) : (accumToNow s).sync = s.sync := rfl
@[simp] theorem accumToNow_audio (s : State σ) : (accumToNow s).audio = s.audio := rfl
@[simp] theorem accumToNow_cycleCnt (s : State σ) : (accumToNow s).cycleCnt = s.cycleCnt := rfl
@[simp] theorem accumToNow_videoBuf (s : State σ) : (accumToNow s).videoBuf = s.videoBuf := rfl
@[simp] theorem accumToNow_frame (s : State σ) :
    (accumToNow s).frame = { accum (s.cycleCnt - s.frame.interpTime) s.frame with interpTime := s.cycleCnt } := rfl
@[simp] theorem accumToNow_input (s : State σ) : (accumToNow s).input = s.input := rfl
@[simp] theorem accumToNow_events (s : State σ) : (accumToNow s).events = s.events := rfl

/-! ## ringPush -/

@[simp] theorem ringPush_audioSum (c : Cfg R σ) (o : S16) (a : AudioState σ) : (ringPush c o a).audioSum = a.audioSum := rfl
@[simp] theorem ringPush_audioCnt (c : Cfg R σ) (o : S16) (a : AudioState σ) : (ringPush c o a).audioCnt = a.audioCnt := rfl
@[simp] theorem ringPush_rs (c : Cfg R σ) (o : S16) (a : AudioState σ) : (ringPush c o a).rs = a.rs := rfl
@[simp] theorem ringPush_ring (c : Cfg R σ) (o : S16) (a : AudioState σ) :
    (ringPush c o a).ring = Memory.write a.ring a.ringWr o := rfl
@[simp] theorem ringPush_ringRd (c : Cfg R σ) (o : S16) (a : AudioState σ) : (ringPush c o a).ringRd = a.ringRd := rfl
@[simp] theorem ringPush_ringWr (c : Cfg R σ) (o : S16) (a : AudioState σ) :
    (ringPush c o a).ringWr = (a.ringWr + 1) % c.ringCap := rfl
@[simp] theorem ringPush_ringCount (c : Cfg R σ) (o : S16) (a : AudioState σ) :
    (ringPush c o a).ringCount = a.ringCount + 1 := rfl
@[simp] theorem ringPush_accCnt (c : Cfg R σ) (o : S16) (a : AudioState σ) : (ringPush c o a).accCnt = a.accCnt := rfl

/-! ## audioPop -/

@[simp] theorem audioPop_audioSum (c : Cfg R σ) (a : AudioState σ) : (audioPop c a).audioSum = a.audioSum := rfl
@[simp] theorem audioPop_audioCnt (c : Cfg R σ) (a : AudioState σ) : (audioPop c a).audioCnt = a.audioCnt := rfl
@[simp] theorem audioPop_rs (c : Cfg R σ) (a : AudioState σ) : (audioPop c a).rs = a.rs := rfl
@[simp] theorem audioPop_ring (c : Cfg R σ) (a : AudioState σ) : (audioPop c a).ring = a.ring := rfl
@[simp] theorem audioPop_ringRd (c : Cfg R σ) (a : AudioState σ) :
    (audioPop c a).ringRd = (a.ringRd + c.apf) % c.ringCap := rfl
@[simp] theorem audioPop_ringWr (c : Cfg R σ) (a : AudioState σ) : (audioPop c a).ringWr = a.ringWr := rfl
@[simp] theorem audioPop_ringCount (c : Cfg R σ) (a : AudioState σ) : (audioPop c a).ringCount = a.ringCount - c.apf := rfl
@[simp] theorem audioPop_accCnt (c : Cfg R σ) (a : AudioState σ) : (audioPop c a).accCnt = a.accCnt := rfl

/-! ## latchBoundary -/

@[simp] theorem latchBoundary_frameBuf0 (t : U64) (f : FrameState) :
    (latchBoundary t f).frameBuf0 = f.frameBuf0 := rfl
@[simp] theorem latchBoundary_frameBuf1 (t : U64) (f : FrameState) :
    (latchBoundary t f).frameBuf1 = f.frameBuf1 := rfl
@[simp] theorem latchBoundary_interpBuf (t : U64) (f : FrameState) :
    (latchBoundary t f).interpBuf = f.interpBuf := rfl
@[simp] theorem latchBoundary_outBuf (t : U64) (f : FrameState) : (latchBoundary t f).outBuf = f.outBuf := rfl
@[simp] theorem latchBoundary_frame0Time (t : U64) (f : FrameState) :
    (latchBoundary t f).frame0Time = f.frame0Time := rfl
@[simp] theorem latchBoundary_frame1Time (t : U64) (f : FrameState) :
    (latchBoundary t f).frame1Time = f.frame1Time := rfl
@[simp] theorem latchBoundary_interpTime (t : U64) (f : FrameState) :
    (latchBoundary t f).interpTime = f.interpTime := rfl
@[simp] theorem latchBoundary_outTime (t : U64) (f : FrameState) : (latchBoundary t f).outTime = f.outTime := rfl
@[simp] theorem latchBoundary_bndFifo (t : U64) (f : FrameState) :
    (latchBoundary t f).bndFifo = Memory.write f.bndFifo f.bndCount t := rfl
@[simp] theorem latchBoundary_bndCount (t : U64) (f : FrameState) :
    (latchBoundary t f).bndCount = f.bndCount + 1 := rfl
@[simp] theorem latchBoundary_framesOut (t : U64) (f : FrameState) :
    (latchBoundary t f).framesOut = f.framesOut := rfl

/-! ## accum -/

@[simp] theorem accum_frameBuf0 (w : U64) (f : FrameState) : (accum w f).frameBuf0 = f.frameBuf0 := rfl
@[simp] theorem accum_frameBuf1 (w : U64) (f : FrameState) : (accum w f).frameBuf1 = f.frameBuf1 := rfl
@[simp] theorem accum_outBuf (w : U64) (f : FrameState) : (accum w f).outBuf = f.outBuf := rfl
@[simp] theorem accum_frame0Time (w : U64) (f : FrameState) : (accum w f).frame0Time = f.frame0Time := rfl
@[simp] theorem accum_frame1Time (w : U64) (f : FrameState) : (accum w f).frame1Time = f.frame1Time := rfl
@[simp] theorem accum_interpTime (w : U64) (f : FrameState) : (accum w f).interpTime = f.interpTime := rfl
@[simp] theorem accum_outTime (w : U64) (f : FrameState) : (accum w f).outTime = f.outTime := rfl
@[simp] theorem accum_bndFifo (w : U64) (f : FrameState) : (accum w f).bndFifo = f.bndFifo := rfl
@[simp] theorem accum_bndCount (w : U64) (f : FrameState) : (accum w f).bndCount = f.bndCount := rfl
@[simp] theorem accum_framesOut (w : U64) (f : FrameState) : (accum w f).framesOut = f.framesOut := rfl

/-! ## finalize -/

@[simp] theorem finalize_frameBuf0 (d : U64) (f : FrameState) : (finalize d f).frameBuf0 = f.frameBuf0 := rfl
@[simp] theorem finalize_frameBuf1 (d : U64) (f : FrameState) : (finalize d f).frameBuf1 = f.frameBuf1 := rfl
@[simp] theorem finalize_interpBuf (d : U64) (f : FrameState) : (finalize d f).interpBuf = f.interpBuf := rfl
@[simp] theorem finalize_frame0Time (d : U64) (f : FrameState) : (finalize d f).frame0Time = f.frame0Time := rfl
@[simp] theorem finalize_frame1Time (d : U64) (f : FrameState) : (finalize d f).frame1Time = f.frame1Time := rfl
@[simp] theorem finalize_interpTime (d : U64) (f : FrameState) : (finalize d f).interpTime = f.interpTime := rfl
@[simp] theorem finalize_outTime (d : U64) (f : FrameState) : (finalize d f).outTime = f.outTime := rfl
@[simp] theorem finalize_bndFifo (d : U64) (f : FrameState) : (finalize d f).bndFifo = f.bndFifo := rfl
@[simp] theorem finalize_bndCount (d : U64) (f : FrameState) : (finalize d f).bndCount = f.bndCount := rfl
@[simp] theorem finalize_framesOut (d : U64) (f : FrameState) : (finalize d f).framesOut = f.framesOut := rfl

/-! ## cutAt -/

@[simp] theorem cutAt_frameBuf0 (c : Cfg R σ) (t : U64) (f : FrameState) : (cutAt c t f).frameBuf0 = f.frameBuf0 := rfl
@[simp] theorem cutAt_frameBuf1 (c : Cfg R σ) (t : U64) (f : FrameState) : (cutAt c t f).frameBuf1 = f.frameBuf1 := rfl
@[simp] theorem cutAt_interpBuf (c : Cfg R σ) (t : U64) (f : FrameState) :
    (cutAt c t f).interpBuf = Planes.fill c 0 := rfl
@[simp] theorem cutAt_outBuf (c : Cfg R σ) (t : U64) (f : FrameState) :
    (cutAt c t f).outBuf = (finalize (t - f.outTime) (accum (t - f.interpTime) f)).outBuf := rfl
@[simp] theorem cutAt_frame0Time (c : Cfg R σ) (t : U64) (f : FrameState) : (cutAt c t f).frame0Time = f.frame0Time := rfl
@[simp] theorem cutAt_frame1Time (c : Cfg R σ) (t : U64) (f : FrameState) : (cutAt c t f).frame1Time = f.frame1Time := rfl
@[simp] theorem cutAt_interpTime (c : Cfg R σ) (t : U64) (f : FrameState) : (cutAt c t f).interpTime = t := rfl
@[simp] theorem cutAt_outTime (c : Cfg R σ) (t : U64) (f : FrameState) : (cutAt c t f).outTime = t := rfl
@[simp] theorem cutAt_bndFifo (c : Cfg R σ) (t : U64) (f : FrameState) : (cutAt c t f).bndFifo = f.bndFifo := rfl
@[simp] theorem cutAt_bndCount (c : Cfg R σ) (t : U64) (f : FrameState) : (cutAt c t f).bndCount = f.bndCount := rfl
@[simp] theorem cutAt_framesOut (c : Cfg R σ) (t : U64) (f : FrameState) : (cutAt c t f).framesOut = f.framesOut := rfl

/-! ## popBoundary -/

@[simp] theorem popBoundary_frameBuf0 (f : FrameState) : (popBoundary f).frameBuf0 = f.frameBuf0 := rfl
@[simp] theorem popBoundary_frameBuf1 (f : FrameState) : (popBoundary f).frameBuf1 = f.frameBuf1 := rfl
@[simp] theorem popBoundary_interpBuf (f : FrameState) : (popBoundary f).interpBuf = f.interpBuf := rfl
@[simp] theorem popBoundary_outBuf (f : FrameState) : (popBoundary f).outBuf = f.outBuf := rfl
@[simp] theorem popBoundary_frame0Time (f : FrameState) : (popBoundary f).frame0Time = f.frame0Time := rfl
@[simp] theorem popBoundary_frame1Time (f : FrameState) : (popBoundary f).frame1Time = f.frame1Time := rfl
@[simp] theorem popBoundary_interpTime (f : FrameState) : (popBoundary f).interpTime = f.interpTime := rfl
@[simp] theorem popBoundary_outTime (f : FrameState) : (popBoundary f).outTime = f.outTime := rfl
@[simp] theorem popBoundary_bndCount (f : FrameState) : (popBoundary f).bndCount = f.bndCount - 1 := rfl
@[simp] theorem popBoundary_framesOut (f : FrameState) : (popBoundary f).framesOut = f.framesOut := rfl

/-! ## swapGenerations -/

@[simp] theorem swapGenerations_frameBuf0 (c : Cfg R σ) (v : Memory 32) (t : U64) (f : FrameState) :
    (swapGenerations c v t f).frameBuf0 = f.frameBuf1 := rfl
@[simp] theorem swapGenerations_frameBuf1 (c : Cfg R σ) (v : Memory 32) (t : U64) (f : FrameState) :
    (swapGenerations c v t f).frameBuf1 = planar c v := rfl
@[simp] theorem swapGenerations_interpBuf (c : Cfg R σ) (v : Memory 32) (t : U64) (f : FrameState) :
    (swapGenerations c v t f).interpBuf = f.interpBuf := rfl
@[simp] theorem swapGenerations_outBuf (c : Cfg R σ) (v : Memory 32) (t : U64) (f : FrameState) :
    (swapGenerations c v t f).outBuf = f.outBuf := rfl
@[simp] theorem swapGenerations_frame0Time (c : Cfg R σ) (v : Memory 32) (t : U64) (f : FrameState) :
    (swapGenerations c v t f).frame0Time = f.frame1Time := rfl
@[simp] theorem swapGenerations_frame1Time (c : Cfg R σ) (v : Memory 32) (t : U64) (f : FrameState) :
    (swapGenerations c v t f).frame1Time = t := rfl
@[simp] theorem swapGenerations_interpTime (c : Cfg R σ) (v : Memory 32) (t : U64) (f : FrameState) :
    (swapGenerations c v t f).interpTime = f.interpTime := rfl
@[simp] theorem swapGenerations_outTime (c : Cfg R σ) (v : Memory 32) (t : U64) (f : FrameState) :
    (swapGenerations c v t f).outTime = f.outTime := rfl
@[simp] theorem swapGenerations_bndFifo (c : Cfg R σ) (v : Memory 32) (t : U64) (f : FrameState) :
    (swapGenerations c v t f).bndFifo = f.bndFifo := rfl
@[simp] theorem swapGenerations_bndCount (c : Cfg R σ) (v : Memory 32) (t : U64) (f : FrameState) :
    (swapGenerations c v t f).bndCount = f.bndCount := rfl
@[simp] theorem swapGenerations_framesOut (c : Cfg R σ) (v : Memory 32) (t : U64) (f : FrameState) :
    (swapGenerations c v t f).framesOut = f.framesOut := rfl

/-! ## takeReference -/

@[simp] theorem takeReference_syncLengthCnt (m : ModeCfg) (y : SyncState) :
    (takeReference m y).syncLengthCnt = y.syncLengthCnt := rfl
@[simp] theorem takeReference_hsyncCnt (m : ModeCfg) (y : SyncState) : (takeReference m y).hsyncCnt = 0 := rfl
@[simp] theorem takeReference_hsyncPeriodInt (m : ModeCfg) (y : SyncState) :
    (takeReference m y).hsyncPeriodInt = y.hsyncPeriodInt := rfl
@[simp] theorem takeReference_lineLengthFilter (m : ModeCfg) (y : SyncState) :
    (takeReference m y).lineLengthFilter = y.lineLengthFilter := rfl
@[simp] theorem takeReference_lineLength (m : ModeCfg) (y : SyncState) :
    (takeReference m y).lineLength = y.lineLength := rfl
@[simp] theorem takeReference_lineCnt (m : ModeCfg) (y : SyncState) :
    (takeReference m y).lineCnt = BitVec.ofNat 32 m.hsyncPos := rfl
@[simp] theorem takeReference_lineBuf (m : ModeCfg) (y : SyncState) : (takeReference m y).lineBuf = y.lineBuf := rfl
@[simp] theorem takeReference_lineBufBytes (m : ModeCfg) (y : SyncState) :
    (takeReference m y).lineBufBytes = y.lineBufBytes := rfl
@[simp] theorem takeReference_lineBufGroups (m : ModeCfg) (y : SyncState) :
    (takeReference m y).lineBufGroups = y.lineBufGroups := rfl
@[simp] theorem takeReference_lineFlags (m : ModeCfg) (y : SyncState) :
    (takeReference m y).lineFlags = y.lineFlags := rfl
@[simp] theorem takeReference_vsyncCnt (m : ModeCfg) (y : SyncState) :
    (takeReference m y).vsyncCnt = y.vsyncCnt := rfl
@[simp] theorem takeReference_fieldParity (m : ModeCfg) (y : SyncState) :
    (takeReference m y).fieldParity = y.fieldParity := rfl
@[simp] theorem takeReference_curLine (m : ModeCfg) (y : SyncState) : (takeReference m y).curLine = y.curLine := rfl

/-! ## updatePeriod -/

@[simp] theorem updatePeriod_syncLengthCnt (m : ModeCfg) (mc : Nat) (y : SyncState) :
    (updatePeriod m mc y).syncLengthCnt = y.syncLengthCnt := rfl
@[simp] theorem updatePeriod_hsyncCnt (m : ModeCfg) (mc : Nat) (y : SyncState) :
    (updatePeriod m mc y).hsyncCnt = y.hsyncCnt := rfl
@[simp] theorem updatePeriod_lineCnt (m : ModeCfg) (mc : Nat) (y : SyncState) :
    (updatePeriod m mc y).lineCnt = y.lineCnt := rfl
@[simp] theorem updatePeriod_lineBuf (m : ModeCfg) (mc : Nat) (y : SyncState) :
    (updatePeriod m mc y).lineBuf = y.lineBuf := rfl
@[simp] theorem updatePeriod_lineBufBytes (m : ModeCfg) (mc : Nat) (y : SyncState) :
    (updatePeriod m mc y).lineBufBytes = y.lineBufBytes := rfl
@[simp] theorem updatePeriod_lineBufGroups (m : ModeCfg) (mc : Nat) (y : SyncState) :
    (updatePeriod m mc y).lineBufGroups = y.lineBufGroups := rfl
@[simp] theorem updatePeriod_lineFlags (m : ModeCfg) (mc : Nat) (y : SyncState) :
    (updatePeriod m mc y).lineFlags = y.lineFlags := rfl
@[simp] theorem updatePeriod_vsyncCnt (m : ModeCfg) (mc : Nat) (y : SyncState) :
    (updatePeriod m mc y).vsyncCnt = y.vsyncCnt := rfl
@[simp] theorem updatePeriod_fieldParity (m : ModeCfg) (mc : Nat) (y : SyncState) :
    (updatePeriod m mc y).fieldParity = y.fieldParity := rfl
@[simp] theorem updatePeriod_curLine (m : ModeCfg) (mc : Nat) (y : SyncState) :
    (updatePeriod m mc y).curLine = y.curLine := rfl

/-! ## fieldStart -/

@[simp] theorem fieldStart_syncLengthCnt (m : ModeCfg) (y : SyncState) :
    (fieldStart m y).syncLengthCnt = y.syncLengthCnt := rfl
@[simp] theorem fieldStart_hsyncCnt (m : ModeCfg) (y : SyncState) : (fieldStart m y).hsyncCnt = y.hsyncCnt := rfl
@[simp] theorem fieldStart_hsyncPeriodInt (m : ModeCfg) (y : SyncState) :
    (fieldStart m y).hsyncPeriodInt = y.hsyncPeriodInt := rfl
@[simp] theorem fieldStart_lineLengthFilter (m : ModeCfg) (y : SyncState) :
    (fieldStart m y).lineLengthFilter = y.lineLengthFilter := rfl
@[simp] theorem fieldStart_lineLength (m : ModeCfg) (y : SyncState) :
    (fieldStart m y).lineLength = y.lineLength := rfl
@[simp] theorem fieldStart_lineCnt (m : ModeCfg) (y : SyncState) : (fieldStart m y).lineCnt = y.lineCnt := rfl
@[simp] theorem fieldStart_lineBuf (m : ModeCfg) (y : SyncState) : (fieldStart m y).lineBuf = y.lineBuf := rfl
@[simp] theorem fieldStart_lineBufBytes (m : ModeCfg) (y : SyncState) :
    (fieldStart m y).lineBufBytes = y.lineBufBytes := rfl
@[simp] theorem fieldStart_lineBufGroups (m : ModeCfg) (y : SyncState) :
    (fieldStart m y).lineBufGroups = y.lineBufGroups := rfl
@[simp] theorem fieldStart_lineFlags (m : ModeCfg) (y : SyncState) : (fieldStart m y).lineFlags = y.lineFlags := rfl
@[simp] theorem fieldStart_vsyncCnt (m : ModeCfg) (y : SyncState) :
    (fieldStart m y).vsyncCnt =
      BitVec.ofInt 32 (m.vsyncReload (parityOf y.lineCnt.toNat y.lineLength.toNat m.hsyncPos)) := rfl
@[simp] theorem fieldStart_fieldParity (m : ModeCfg) (y : SyncState) :
    (fieldStart m y).fieldParity = parityOf y.lineCnt.toNat y.lineLength.toNat m.hsyncPos := rfl
@[simp] theorem fieldStart_curLine (m : ModeCfg) (y : SyncState) : (fieldStart m y).curLine = y.curLine := rfl

/-! ## appendGroup -/

@[simp] theorem appendGroup_syncLengthCnt (f c0 c1 : Byte) (y : SyncState) :
    (appendGroup f c0 c1 y).syncLengthCnt = y.syncLengthCnt := rfl
@[simp] theorem appendGroup_hsyncCnt (f c0 c1 : Byte) (y : SyncState) :
    (appendGroup f c0 c1 y).hsyncCnt = y.hsyncCnt := rfl
@[simp] theorem appendGroup_hsyncPeriodInt (f c0 c1 : Byte) (y : SyncState) :
    (appendGroup f c0 c1 y).hsyncPeriodInt = y.hsyncPeriodInt := rfl
@[simp] theorem appendGroup_lineLengthFilter (f c0 c1 : Byte) (y : SyncState) :
    (appendGroup f c0 c1 y).lineLengthFilter = y.lineLengthFilter := rfl
@[simp] theorem appendGroup_lineLength (f c0 c1 : Byte) (y : SyncState) :
    (appendGroup f c0 c1 y).lineLength = y.lineLength := rfl
@[simp] theorem appendGroup_lineCnt (f c0 c1 : Byte) (y : SyncState) :
    (appendGroup f c0 c1 y).lineCnt = y.lineCnt := rfl
@[simp] theorem appendGroup_lineBufBytes (f c0 c1 : Byte) (y : SyncState) :
    (appendGroup f c0 c1 y).lineBufBytes = y.lineBufBytes + BitVec.ofNat 16 (groupBytes f c0 c1).length := rfl
@[simp] theorem appendGroup_lineBufGroups (f c0 c1 : Byte) (y : SyncState) :
    (appendGroup f c0 c1 y).lineBufGroups = y.lineBufGroups + 1 := rfl
@[simp] theorem appendGroup_lineFlags (f c0 c1 : Byte) (y : SyncState) :
    (appendGroup f c0 c1 y).lineFlags = y.lineFlags := rfl
@[simp] theorem appendGroup_vsyncCnt (f c0 c1 : Byte) (y : SyncState) :
    (appendGroup f c0 c1 y).vsyncCnt = y.vsyncCnt := rfl
@[simp] theorem appendGroup_fieldParity (f c0 c1 : Byte) (y : SyncState) :
    (appendGroup f c0 c1 y).fieldParity = y.fieldParity := rfl
@[simp] theorem appendGroup_curLine (f c0 c1 : Byte) (y : SyncState) :
    (appendGroup f c0 c1 y).curLine = y.curLine := rfl

/-! ## lineAdvance -/

@[simp] theorem lineAdvance_syncLengthCnt (c : Cfg R σ) (y : SyncState) :
    (lineAdvance c y).syncLengthCnt = y.syncLengthCnt := rfl
@[simp] theorem lineAdvance_hsyncCnt (c : Cfg R σ) (y : SyncState) : (lineAdvance c y).hsyncCnt = y.hsyncCnt := rfl
@[simp] theorem lineAdvance_hsyncPeriodInt (c : Cfg R σ) (y : SyncState) :
    (lineAdvance c y).hsyncPeriodInt = y.hsyncPeriodInt := rfl
@[simp] theorem lineAdvance_lineLengthFilter (c : Cfg R σ) (y : SyncState) :
    (lineAdvance c y).lineLengthFilter = y.lineLengthFilter := rfl
@[simp] theorem lineAdvance_lineLength (c : Cfg R σ) (y : SyncState) : (lineAdvance c y).lineLength = y.lineLength := rfl
@[simp] theorem lineAdvance_lineCnt (c : Cfg R σ) (y : SyncState) : (lineAdvance c y).lineCnt = 0 := rfl
@[simp] theorem lineAdvance_lineBuf (c : Cfg R σ) (y : SyncState) : (lineAdvance c y).lineBuf = y.lineBuf := rfl
@[simp] theorem lineAdvance_lineBufBytes (c : Cfg R σ) (y : SyncState) : (lineAdvance c y).lineBufBytes = 0 := rfl
@[simp] theorem lineAdvance_lineBufGroups (c : Cfg R σ) (y : SyncState) : (lineAdvance c y).lineBufGroups = 0 := rfl
@[simp] theorem lineAdvance_lineFlags (c : Cfg R σ) (y : SyncState) : (lineAdvance c y).lineFlags = 0 := rfl
@[simp] theorem lineAdvance_vsyncCnt (c : Cfg R σ) (y : SyncState) :
    (lineAdvance c y).vsyncCnt = if y.vsyncCnt.toInt < 2 ^ 31 - 1 then y.vsyncCnt + 1 else y.vsyncCnt := rfl
@[simp] theorem lineAdvance_fieldParity (c : Cfg R σ) (y : SyncState) :
    (lineAdvance c y).fieldParity = y.fieldParity := rfl
@[simp] theorem lineAdvance_curLine (c : Cfg R σ) (y : SyncState) :
    (lineAdvance c y).curLine =
      if y.curLine.toInt < 2 * (c.videoHeight : Int) then y.curLine + 2 else y.curLine := rfl

/-! ## topOfField -/

@[simp] theorem topOfField_syncLengthCnt (y : SyncState) : (topOfField y).syncLengthCnt = y.syncLengthCnt := rfl
@[simp] theorem topOfField_hsyncCnt (y : SyncState) : (topOfField y).hsyncCnt = y.hsyncCnt := rfl
@[simp] theorem topOfField_hsyncPeriodInt (y : SyncState) : (topOfField y).hsyncPeriodInt = y.hsyncPeriodInt := rfl
@[simp] theorem topOfField_lineLengthFilter (y : SyncState) :
    (topOfField y).lineLengthFilter = y.lineLengthFilter := rfl
@[simp] theorem topOfField_lineLength (y : SyncState) : (topOfField y).lineLength = y.lineLength := rfl
@[simp] theorem topOfField_lineCnt (y : SyncState) : (topOfField y).lineCnt = y.lineCnt := rfl
@[simp] theorem topOfField_lineBuf (y : SyncState) : (topOfField y).lineBuf = y.lineBuf := rfl
@[simp] theorem topOfField_lineBufBytes (y : SyncState) : (topOfField y).lineBufBytes = y.lineBufBytes := rfl
@[simp] theorem topOfField_lineBufGroups (y : SyncState) : (topOfField y).lineBufGroups = y.lineBufGroups := rfl
@[simp] theorem topOfField_lineFlags (y : SyncState) : (topOfField y).lineFlags = y.lineFlags := rfl
@[simp] theorem topOfField_vsyncCnt (y : SyncState) : (topOfField y).vsyncCnt = y.vsyncCnt := rfl
@[simp] theorem topOfField_fieldParity (y : SyncState) : (topOfField y).fieldParity = y.fieldParity := rfl
@[simp] theorem topOfField_curLine (y : SyncState) :
    (topOfField y).curLine = BitVec.ofNat 32 (bit y.fieldParity) := rfl

end Sys2Proof.Machine
end

