-- ==== Sys2Proof/Laws/Audio.lean ====
section
/-! SUPPORT. What the audio operations can do (44_audio.md R193 to R204): AUDIO_OUT, AUDIO_IN, the fold, AUDIO_POP. -/

namespace Sys2Proof.Machine

variable {R σ : Type}

/-- Two states are equal when their fields are. -/
theorem State.ext_fields {s t : State σ} (h1 : s.clockFreq = t.clockFreq) (h2 : s.ntsc = t.ntsc) (h3 : s.ccp = t.ccp)
    (h4 : s.idxYuv = t.idxYuv) (h5 : s.act = t.act) (h6 : s.actYuv = t.actYuv)
    (h7 : s.colormapData = t.colormapData) (h8 : s.colormapTable = t.colormapTable) (h9 : s.sync = t.sync)
    (h10 : s.audio = t.audio) (h11 : s.cycleCnt = t.cycleCnt) (h12 : s.videoBuf = t.videoBuf)
    (h13 : s.frame = t.frame) (h14 : s.input = t.input) (h15 : s.events = t.events) : s = t := by
  cases s; cases t; simp_all

/-! ## AUDIO_OUT -/

/-- A full ring refuses the sample and nothing changes (R199). -/
theorem audioOut_full {c : Cfg R σ} {s : State σ} (o : S16) (h : s.audio.ringCount = c.ringCap) : audioOut c o s = s := by
  simp [audioOut, h]

/-- An accepted sample that completes an output frame (R199). -/
theorem audioOut_boundary {c : Cfg R σ} {s : State σ} (o : S16) (h : s.audio.ringCount ≠ c.ringCap)
    (ha : s.audio.accCnt + 1 = c.apf) :
    audioOut c o s =
      { s with audio := { ringPush c o s.audio with accCnt := 0 }, frame := latchBoundary s.cycleCnt s.frame } := by
  simp [audioOut, h, ha]

/-- An accepted sample that completes no output frame (R199). -/
theorem audioOut_plain {c : Cfg R σ} {s : State σ} (o : S16) (h : s.audio.ringCount ≠ c.ringCap)
    (ha : s.audio.accCnt + 1 ≠ c.apf) :
    audioOut c o s = { s with audio := { ringPush c o s.audio with accCnt := s.audio.accCnt + 1 } } := by
  simp [audioOut, h, ha]

/-- All AUDIO_OUT can do: refuse, accept, or accept and latch a boundary. -/
theorem audioOut_cases (c : Cfg R σ) (o : S16) (s : State σ) :
    (s.audio.ringCount = c.ringCap ∧ audioOut c o s = s) ∨
    (s.audio.ringCount ≠ c.ringCap ∧ s.audio.accCnt + 1 = c.apf ∧ audioOut c o s =
      { s with audio := { ringPush c o s.audio with accCnt := 0 }, frame := latchBoundary s.cycleCnt s.frame }) ∨
    (s.audio.ringCount ≠ c.ringCap ∧ s.audio.accCnt + 1 ≠ c.apf ∧ audioOut c o s =
      { s with audio := { ringPush c o s.audio with accCnt := s.audio.accCnt + 1 } }) := by
  by_cases h : s.audio.ringCount = c.ringCap
  · exact .inl ⟨h, audioOut_full o h⟩
  · by_cases ha : s.audio.accCnt + 1 = c.apf
    · exact .inr (.inl ⟨h, ha, audioOut_boundary o h ha⟩)
    · exact .inr (.inr ⟨h, ha, audioOut_plain o h ha⟩)

/-- What AUDIO_OUT never touches, as any reading `g` of the state that the two updates keep. -/
theorem audioOut_keeps {β : Type} (g : State σ → β) (c : Cfg R σ) (o : S16) (s : State σ)
    (h : ∀ a f, a.audioSum = s.audio.audioSum → a.audioCnt = s.audio.audioCnt → a.rs = s.audio.rs →
      a.ringRd = s.audio.ringRd → f = { s.frame with bndFifo := f.bndFifo, bndCount := f.bndCount } →
      g { s with audio := a, frame := f } = g s) : g (audioOut c o s) = g s := by
  rcases audioOut_cases c o s with ⟨-, e⟩ | ⟨-, -, e⟩ | ⟨-, -, e⟩ <;> rw [e]
  · exact h _ _ rfl rfl rfl rfl rfl
  · exact h { ringPush c o s.audio with accCnt := s.audio.accCnt + 1 } s.frame rfl rfl rfl rfl rfl

/-- A burst of AUDIO_OUT keeps what each keeps. -/
theorem audioBurst_keeps {β : Type} (g : State σ → β) (c : Cfg R σ) (h : ∀ o s, g (audioOut c o s) = g s) (l : List S16)
    (s : State σ) : g (l.foldl (fun st o => audioOut c o st) s) = g s := by
  induction l generalizing s with
  | nil => rfl
  | cons o l ih => rw [List.foldl_cons, ih, h]

/-- The part of the state the audio path never writes, bundled: all but `audio`, `bndFifo` and `bndCount`; and of
`audio` the read index. -/
theorem audioOut_frame (c : Cfg R σ) (o : S16) (s : State σ) :
    audioOut c o s =
      { s with
        audio := { s.audio with
          ring := (audioOut c o s).audio.ring, ringWr := (audioOut c o s).audio.ringWr,
          ringCount := (audioOut c o s).audio.ringCount, accCnt := (audioOut c o s).audio.accCnt }
        frame := { s.frame with
          bndFifo := (audioOut c o s).frame.bndFifo, bndCount := (audioOut c o s).frame.bndCount } } := by
  rcases audioOut_cases c o s with ⟨-, e⟩ | ⟨-, -, e⟩ | ⟨-, -, e⟩ <;> rw [e] <;> rfl

theorem audioBurst_frame (c : Cfg R σ) (l : List S16) (s : State σ) :
    l.foldl (fun st o => audioOut c o st) s =
      { s with
        audio := { s.audio with
          ring := (l.foldl (fun st o => audioOut c o st) s).audio.ring
          ringWr := (l.foldl (fun st o => audioOut c o st) s).audio.ringWr
          ringCount := (l.foldl (fun st o => audioOut c o st) s).audio.ringCount
          accCnt := (l.foldl (fun st o => audioOut c o st) s).audio.accCnt }
        frame := { s.frame with
          bndFifo := (l.foldl (fun st o => audioOut c o st) s).frame.bndFifo
          bndCount := (l.foldl (fun st o => audioOut c o st) s).frame.bndCount } } := by
  induction l generalizing s with
  | nil => rfl
  | cons o l ih =>
    rw [List.foldl_cons]
    conv_lhs => rw [ih]
    rw [audioOut_frame c o s]

/-! ## The ring as a queue -/

theorem AudioState.live_length (c : Cfg R σ) (a : AudioState σ) : (a.live c).length = a.ringCount := by
  simp [AudioState.live]

/-- The write index of a consistent ring is where the queue ends. -/
theorem live_ringPush {c : Cfg R σ} {a : AudioState σ} (o : S16) (hs : a.ring.size = c.ringCap)
    (hw : (a.ringRd + a.ringCount) % c.ringCap = a.ringWr) (hr : a.ringCount < c.ringCap) (k : Nat) :
    ({ ringPush c o a with accCnt := k } : AudioState σ).live c = a.live c ++ [o] := by
  have hpos : 0 < c.ringCap := by omega
  unfold AudioState.live
  simp only [ringPush_ringCount, ringPush_ring, ringPush_ringRd, List.range_succ, List.map_append, List.map_cons,
    List.map_nil]
  congr 1
  · apply List.map_congr_left
    intro j hj
    have hj' : j < a.ringCount := by simpa using hj
    apply Memory.read_write_other
    rw [← hw]
    intro he
    have h2 : (a.ringRd + a.ringCount) % c.ringCap = (a.ringRd + j) % c.ringCap := he
    have h3 : (a.ringRd + a.ringCount) % c.ringCap = (a.ringRd + j + (a.ringCount - j)) % c.ringCap := by
      congr 1; omega
    rw [h3] at h2
    have h4 := (Nat.add_mod (a.ringRd + j) (a.ringCount - j) c.ringCap)
    have h5 : (a.ringCount - j) % c.ringCap = a.ringCount - j := Nat.mod_eq_of_lt (by omega)
    rw [h5] at h4
    have h6 : (a.ringRd + j) % c.ringCap < c.ringCap := Nat.mod_lt _ hpos
    rw [h4] at h2
    by_cases h7 : (a.ringRd + j) % c.ringCap + (a.ringCount - j) < c.ringCap
    · rw [Nat.mod_eq_of_lt h7] at h2; omega
    · rw [Nat.mod_eq_sub_mod (by omega), Nat.mod_eq_of_lt (by omega)] at h2; omega
  · rw [hw, Memory.read_write_same _ _ (by rw [hs, ← hw]; exact Nat.mod_lt _ hpos)]

/-- AUDIO_OUT keeps the ring, the accepted-sample count and the boundary FIFO in agreement (R36, R183, R200). -/
theorem audioOut_ringInv {c : Cfg R σ} (hc : 0 < c.apf) {s : State σ} (o : S16) (h : s.ringInv c) :
    (audioOut c o s).ringInv c := by
  obtain ⟨h1, h2, h3, h4, h5, h6, h7, h8⟩ := h
  have hcap : c.ringCap = 8 * c.apf := rfl
  rcases audioOut_cases c o s with ⟨-, e⟩ | ⟨hn, ha, e⟩ | ⟨hn, ha, e⟩ <;> rw [e]
  · exact ⟨h1, h2, h3, h4, h5, h6, h7, h8⟩
  · have hw : (s.audio.ringRd + (s.audio.ringCount + 1)) % c.ringCap = (s.audio.ringWr + 1) % c.ringCap := by
      rw [← h4, ← Nat.add_assoc, Nat.mod_add_mod]
    have hb : s.frame.bndCount < 8 := by
      by_contra hb
      have : s.frame.bndCount = 8 := by omega
      rw [this] at h7; omega
    refine ⟨?_, h2, Nat.mod_lt _ (by omega), hw, h5, hc, ?_, ?_⟩
    · show s.audio.ringCount + 1 ≤ _; omega
    · show s.audio.ringCount + 1 = (s.frame.bndCount + 1) * c.apf + 0
      rw [Nat.add_mul]; omega
    · show s.frame.bndCount + 1 ≤ 8; omega
  · have hw : (s.audio.ringRd + (s.audio.ringCount + 1)) % c.ringCap = (s.audio.ringWr + 1) % c.ringCap := by
      rw [← h4, ← Nat.add_assoc, Nat.mod_add_mod]
    refine ⟨?_, h2, Nat.mod_lt _ (by omega), hw, h5, ?_, ?_, h8⟩
    · show s.audio.ringCount + 1 ≤ _; omega
    · show s.audio.accCnt + 1 < _; omega
    · show s.audio.ringCount + 1 = s.frame.bndCount * c.apf + (s.audio.accCnt + 1); omega

theorem audioBurst_ringInv {c : Cfg R σ} (hc : 0 < c.apf) (l : List S16) {s : State σ} (h : s.ringInv c) :
    (l.foldl (fun st o => audioOut c o st) s).ringInv c := by
  induction l generalizing s with
  | nil => exact h
  | cons o l ih => exact ih (audioOut_ringInv hc o h)

/-- AUDIO_OUT writes memories of the sizes it finds. -/
theorem audioOut_sizes (c : Cfg R σ) (o : S16) (s : State σ) :
    (audioOut c o s).audio.ring.size = s.audio.ring.size ∧
    (audioOut c o s).frame.bndFifo.size = s.frame.bndFifo.size := by
  rcases audioOut_cases c o s with ⟨-, e⟩ | ⟨-, -, e⟩ | ⟨-, -, e⟩ <;> rw [e] <;> simp

theorem audioBurst_sizes (c : Cfg R σ) (l : List S16) (s : State σ) :
    (l.foldl (fun st o => audioOut c o st) s).audio.ring.size = s.audio.ring.size ∧
    (l.foldl (fun st o => audioOut c o st) s).frame.bndFifo.size = s.frame.bndFifo.size := by
  induction l generalizing s with
  | nil => exact ⟨rfl, rfl⟩
  | cons o l ih =>
    rw [List.foldl_cons]
    exact ⟨(ih _).1.trans (audioOut_sizes c o s).1, (ih _).2.trans (audioOut_sizes c o s).2⟩

/-- An accepted sample enters the queue at its end (R199). -/
theorem audioOut_live {c : Cfg R σ} (o : S16) {s : State σ} (hs : s.audio.ring.size = c.ringCap) (h : s.ringInv c)
    (hlt : s.audio.ringCount < c.ringCap) :
    (audioOut c o s).audio.live c = s.audio.live c ++ [o] ∧
    (audioOut c o s).audio.ringCount = s.audio.ringCount + 1 := by
  rcases audioOut_cases c o s with ⟨h', -⟩ | ⟨-, -, e⟩ | ⟨-, -, e⟩
  · omega
  · rw [e]; exact ⟨live_ringPush o hs h.2.2.2.1 hlt 0, rfl⟩
  · rw [e]; exact ⟨live_ringPush o hs h.2.2.2.1 hlt _, rfl⟩

/-- What AUDIO_OUT does to the boundary FIFO: nothing, or one boundary at this cycle (R199). -/
theorem audioOut_boundaries (c : Cfg R σ) (o : S16) (s : State σ) :
    ((audioOut c o s).frame = s.frame ∨ (audioOut c o s).frame = latchBoundary s.cycleCnt s.frame) ∧
    (audioOut c o s).cycleCnt = s.cycleCnt := by
  rcases audioOut_cases c o s with ⟨-, e⟩ | ⟨-, -, e⟩ | ⟨-, -, e⟩ <;> rw [e]
  · exact ⟨.inl rfl, rfl⟩
  · exact ⟨.inr rfl, rfl⟩
  · exact ⟨.inl rfl, rfl⟩

/-! ## Step 1 of SMP -/

/-- On a cycle that does not fold, step 1 only accumulates (R131). -/
theorem smpAudio_accumulates {c : Cfg R σ} (a : S16) {s : State σ} (h : s.audio.audioCnt ≠ 7) :
    smpAudio c a s =
      { s with audio := { s.audio with
          audioSum := s.audio.audioSum + a.signExtend 32, audioCnt := s.audio.audioCnt + 1 } } := by
  have h' : s.audio.audioCnt + 1 ≠ 0 := by
    intro he; apply h; generalize s.audio.audioCnt = x at *; revert x; decide
  simp only [smpAudio, h', if_false]

/-- On the eighth cycle, step 1 folds and feeds the converter (R131, R193). -/
theorem smpAudio_folds {c : Cfg R σ} (a : S16) {s : State σ} (h : s.audio.audioCnt = 7) :
    smpAudio c a s = audioIn c (foldedSample c (s.audio.audioSum + a.signExtend 32))
      { s with audio := { s.audio with audioSum := 0, audioCnt := 0 } } := by
  simp [smpAudio, h]

/-- Step 1 of SMP writes the audio path and the boundary FIFO, nothing else (R131). -/
theorem smpAudio_frame (c : Cfg R σ) (a : S16) (s : State σ) :
    smpAudio c a s =
      { s with
        audio := { (smpAudio c a s).audio with ringRd := s.audio.ringRd }
        frame := { s.frame with
          bndFifo := (smpAudio c a s).frame.bndFifo, bndCount := (smpAudio c a s).frame.bndCount } } := by
  by_cases h : s.audio.audioCnt = 7
  · rw [smpAudio_folds a h, audioIn]
    dsimp only
    rw [audioBurst_frame]
  · rw [smpAudio_accumulates a h]

end Sys2Proof.Machine
end

