-- ==== Sys2Proof/Laws/Blend.lean ====
section
/-! SUPPORT. The arithmetic of `blend` (42_demodulator.md R153): one lane, and the packed pixel from its lanes. -/

namespace Sys2Proof.Machine

variable {R σ : Type}

theorem blendLane_zero (a b : Nat) {w : Nat} (hw : 0 < w) : blendLane a b 0 w = a := by
  unfold blendLane
  rw [Nat.mul_zero, Nat.add_zero, Nat.sub_zero, Nat.add_div_of_dvd_right ⟨a, Nat.mul_comm _ _⟩,
    Nat.mul_div_cancel _ hw, Nat.div_eq_of_lt (a := w / 2) (by omega), Nat.add_zero]

theorem blendLane_self (a : Nat) {f w : Nat} (h : f < w) : blendLane a a f w = a := by
  unfold blendLane
  rw [← Nat.mul_add, Nat.sub_add_cancel (Nat.le_of_lt h), Nat.add_div_of_dvd_right ⟨a, Nat.mul_comm _ _⟩,
    Nat.mul_div_cancel _ (by omega), Nat.div_eq_of_lt (a := w / 2) (by omega), Nat.add_zero]

/-- A blended lane lies between its two lanes (R153). -/
theorem blendLane_between (a b : Nat) {f w : Nat} (h : f < w) :
    min a b ≤ blendLane a b f w ∧ blendLane a b f w ≤ max a b := by
  unfold blendLane
  have l1 := Nat.mul_le_mul_right (w - f) (show min a b ≤ a by omega)
  have l2 := Nat.mul_le_mul_right f (show min a b ≤ b by omega)
  have u1 := Nat.mul_le_mul_right (w - f) (show a ≤ max a b by omega)
  have u2 := Nat.mul_le_mul_right f (show b ≤ max a b by omega)
  have e1 : min a b * (w - f) + min a b * f = min a b * w := by
    rw [← Nat.mul_add, Nat.sub_add_cancel (Nat.le_of_lt h)]
  have e2 : max a b * (w - f) + max a b * f = max a b * w := by
    rw [← Nat.mul_add, Nat.sub_add_cancel (Nat.le_of_lt h)]
  constructor
  · rw [Nat.le_div_iff_mul_le (by omega)]; omega
  · apply Nat.le_of_lt_succ
    rw [Nat.div_lt_iff_lt_mul (by omega), Nat.succ_mul]; omega

theorem laneOf_lt (p : Pixel) (lane : Nat × Nat) : laneOf p lane < 2 ^ lane.2 := Nat.mod_lt _ (Nat.two_pow_pos _)

/-- A blended lane fits its lane. -/
theorem blendLane_lt (p q : Pixel) (lsb width : Nat) {n f w : Nat} (hn : 2 ^ width = n) (h : f < w) :
    blendLane (laneOf p (lsb, width)) (laneOf q (lsb, width)) f w < n := by
  subst hn
  have h1 := blendLane_between (laneOf p (lsb, width)) (laneOf q (lsb, width)) h
  have h2 : laneOf p (lsb, width) < 2 ^ width := laneOf_lt p (lsb, width)
  have h3 : laneOf q (lsb, width) < 2 ^ width := laneOf_lt q (lsb, width)
  omega

/-- Four numbers below 256 as the lanes of a 32-bit pixel. -/
theorem lanes32 {x0 x1 x2 x3 : Nat} (h0 : x0 < 256) (h1 : x1 < 256) (h2 : x2 < 256) (h3 : x3 < 256) {p : Pixel}
    (hp : p.toNat = x0 + x1 * 256 + x2 * 65536 + x3 * 16777216) :
    laneOf p (0, 8) = x0 ∧ laneOf p (8, 8) = x1 ∧ laneOf p (16, 8) = x2 ∧ laneOf p (24, 8) = x3 := by
  refine ⟨?_, ?_, ?_, ?_⟩
  · show p.toNat / 1 % 256 = x0; omega
  · show p.toNat / 256 % 256 = x1; omega
  · show p.toNat / 65536 % 256 = x2; omega
  · show p.toNat / 16777216 % 256 = x3; omega

/-- Three numbers below 32, 64 and 32 as the lanes of a 16-bit pixel. -/
theorem lanes16 {x0 x1 x2 : Nat} (h0 : x0 < 32) (h1 : x1 < 64) (h2 : x2 < 32) {p : Pixel}
    (hp : p.toNat = x0 + x1 * 32 + x2 * 2048) :
    laneOf p (0, 5) = x0 ∧ laneOf p (5, 6) = x1 ∧ laneOf p (11, 5) = x2 := by
  refine ⟨?_, ?_, ?_⟩
  · show p.toNat / 1 % 32 = x0; omega
  · show p.toNat / 32 % 64 = x1; omega
  · show p.toNat / 2048 % 32 = x2; omega

theorem laneOf_eq (p : Pixel) (lsb width n d : Nat) (hn : 2 ^ lsb = n) (hd : 2 ^ width = d) :
    laneOf p (lsb, width) = p.toNat / n % d := by subst hn hd; rfl

theorem number_of_bytes (n : Nat) (h : n < 4294967296) :
    n = n / 1 % 256 + n / 256 % 256 * 256 + n / 65536 % 256 * 65536 + n / 16777216 % 256 * 16777216 := by
  omega

/-- A pixel is its four byte lanes. -/
theorem toNat_of_lanes32 (p : Pixel) :
    p.toNat = laneOf p (0, 8) + laneOf p (8, 8) * 256 + laneOf p (16, 8) * 65536 + laneOf p (24, 8) * 16777216 := by
  rw [laneOf_eq p 0 8 1 256 (by decide) (by decide), laneOf_eq p 8 8 256 256 (by decide) (by decide), laneOf_eq p 16 8 65536 256 (by decide) (by decide),
    laneOf_eq p 24 8 16777216 256 (by decide) (by decide)]
  exact number_of_bytes p.toNat (by have := p.isLt; omega)

/-- A 16-bit pixel is its three lanes. -/
theorem toNat_of_lanes16 {p : Pixel} (hp : p.toNat < 2 ^ 16) :
    p.toNat = laneOf p (0, 5) + laneOf p (5, 6) * 32 + laneOf p (11, 5) * 2048 := by
  rw [laneOf_eq p 0 5 1 32 (by decide) (by decide), laneOf_eq p 5 6 32 64 (by decide) (by decide), laneOf_eq p 11 5 2048 32 (by decide) (by decide)]
  generalize p.toNat = n at *
  omega

theorem sum_of_bytes {a b c d n0 n1 n2 n3 : Nat} (ha : a < 256) (hb : b < 256) (hc : c < 256) (hd : d < 256)
    (h0 : n0 = 1) (h1 : n1 = 256) (h2 : n2 = 65536) (h3 : n3 = 16777216) :
    (BitVec.ofNat 32 [a * n0, b * n1, c * n2, d * n3].sum).toNat = a + b * 256 + c * 65536 + d * 16777216 := by
  subst h0 h1 h2 h3
  rw [List.sum_cons, List.sum_cons, List.sum_cons, List.sum_cons, List.sum_nil, BitVec.toNat_ofNat]
  omega

theorem sum_of_fields {a b c n0 n1 n2 : Nat} (ha : a < 32) (hb : b < 64) (hc : c < 32)
    (h0 : n0 = 1) (h1 : n1 = 32) (h2 : n2 = 2048) :
    (BitVec.ofNat 32 [a * n0, b * n1, c * n2].sum).toNat = a + b * 32 + c * 2048 := by
  subst h0 h1 h2
  rw [List.sum_cons, List.sum_cons, List.sum_cons, List.sum_nil, BitVec.toNat_ofNat]
  omega

/-- `blend` at 32 bits, as a number (R153). -/
theorem blend32_toNat {c : Cfg R σ} (h : c.pixT = 32) (p q : Pixel) {f w : Nat} (hf : f < w) :
    (blend c p q f w).toNat =
      blendLane (laneOf p (0, 8)) (laneOf q (0, 8)) f w + blendLane (laneOf p (8, 8)) (laneOf q (8, 8)) f w * 256 +
      blendLane (laneOf p (16, 8)) (laneOf q (16, 8)) f w * 65536 +
      blendLane (laneOf p (24, 8)) (laneOf q (24, 8)) f w * 16777216 := by
  rw [blend, pixelLanes, if_pos h]
  exact sum_of_bytes (blendLane_lt p q 0 8 (by decide) hf) (blendLane_lt p q 8 8 (by decide) hf)
    (blendLane_lt p q 16 8 (by decide) hf) (blendLane_lt p q 24 8 (by decide) hf) (by decide) (by decide) (by decide)
    (by decide)

/-- `blend` at 16 bits, as a number (R153). -/
theorem blend16_toNat {c : Cfg R σ} (h : c.pixT = 16) (p q : Pixel) {f w : Nat} (hf : f < w) :
    (blend c p q f w).toNat =
      blendLane (laneOf p (0, 5)) (laneOf q (0, 5)) f w + blendLane (laneOf p (5, 6)) (laneOf q (5, 6)) f w * 32 +
      blendLane (laneOf p (11, 5)) (laneOf q (11, 5)) f w * 2048 := by
  rw [blend, pixelLanes, if_neg (by omega)]
  exact sum_of_fields (blendLane_lt p q 0 5 (by decide) hf) (blendLane_lt p q 5 6 (by decide) hf)
    (blendLane_lt p q 11 5 (by decide) hf) (by decide) (by decide) (by decide)

end Sys2Proof.Machine
end

