-- ==== Sys2Proof/Laws/Enclosure.lean ====
section
/-! SUPPORT. The machine's real numbers are the exact ones (41_colormap.md R101; log entry 2): one lemma for each operation
of Machine/Numerics.lean, on the enclosures and on the expressions. -/

namespace Sys2Proof

/-! ## Arithmetic -/

namespace Machine

theorem holds_exactly {q : Rat} {x : ℝ} : (Encl.exactly q).Holds x ↔ x = q :=
  ⟨fun h => le_antisymm h.2 h.1, fun h => ⟨h.ge, h.le⟩⟩

/-- What lies between a number of one enclosure and a number of another is in their hull. -/
theorem holds_hull {e f : Encl} {u v x : ℝ} (hu : e.Holds u) (hv : f.Holds v)
    (h : (u ≤ x ∧ x ≤ v) ∨ (v ≤ x ∧ x ≤ u)) : (e.hull f).Holds x := by
  cases e <;> cases f <;> try trivial
  obtain ⟨h1, h2⟩ := hu
  obtain ⟨h3, h4⟩ := hv
  refine ⟨?_, ?_⟩
  · rw [Rat.cast_min, min_le_iff]
    rcases h with h | h
    · exact .inl (h1.trans h.1)
    · exact .inr (h3.trans h.1)
  · rw [Rat.cast_max, le_max_iff]
    rcases h with h | h
    · exact .inr (h.2.trans h4)
    · exact .inl (h.2.trans h2)

theorem holds_hull_left {e : Encl} {x : ℝ} (f : Encl) (h : e.Holds x) : (e.hull f).Holds x := by
  cases e <;> cases f <;> try trivial
  refine ⟨?_, ?_⟩
  · rw [Rat.cast_min]; exact (min_le_left _ _).trans h.1
  · rw [Rat.cast_max]; exact h.2.trans (le_max_left _ _)

theorem holds_hull_right {f : Encl} {x : ℝ} (e : Encl) (h : f.Holds x) : (e.hull f).Holds x := by
  cases e <;> cases f <;> try trivial
  refine ⟨?_, ?_⟩
  · rw [Rat.cast_min]; exact (min_le_right _ _).trans h.1
  · rw [Rat.cast_max]; exact h.2.trans (le_max_right _ _)

theorem holds_add {e f : Encl} {x y : ℝ} (hx : e.Holds x) (hy : f.Holds y) : (e.add f).Holds (x + y) := by
  cases e <;> cases f <;> try trivial
  exact ⟨by push_cast; exact add_le_add hx.1 hy.1, by push_cast; exact add_le_add hx.2 hy.2⟩

theorem holds_sub {e f : Encl} {x y : ℝ} (hx : e.Holds x) (hy : f.Holds y) : (e.sub f).Holds (x - y) := by
  cases e <;> cases f <;> try trivial
  exact ⟨by push_cast; exact sub_le_sub hx.1 hy.2, by push_cast; exact sub_le_sub hx.2 hy.1⟩

/-- A product lies between the products with the ends of one factor. -/
theorem mul_between {a b x : ℝ} (h : a ≤ x ∧ x ≤ b) (y : ℝ) : min (a * y) (b * y) ≤ x * y ∧ x * y ≤ max (a * y) (b * y) := by
  rcases le_total 0 y with hy | hy
  · exact ⟨(min_le_left _ _).trans (mul_le_mul_of_nonneg_right h.1 hy),
      (mul_le_mul_of_nonneg_right h.2 hy).trans (le_max_right _ _)⟩
  · exact ⟨(min_le_right _ _).trans (mul_le_mul_of_nonpos_right h.2 hy),
      (mul_le_mul_of_nonpos_right h.1 hy).trans (le_max_left _ _)⟩

theorem holds_mul {e f : Encl} {x y : ℝ} (hx : e.Holds x) (hy : f.Holds y) : (e.mul f).Holds (x * y) := by
  unfold Encl.mul
  split
  · next h =>
    rw [holds_exactly]
    rcases h with rfl | rfl
    · rw [holds_exactly] at hx; rw [hx]; simp
    · rw [holds_exactly] at hy; rw [hy]; simp
  · cases e <;> cases f <;> try trivial
    next a b c d _ =>
    have h1 := mul_between hx y
    have h2 := mul_between hy (a : ℝ)
    have h3 := mul_between hy (b : ℝ)
    rw [mul_comm y, mul_comm (c : ℝ), mul_comm (d : ℝ)] at h2 h3
    refine ⟨?_, ?_⟩
    · push_cast
      exact (min_le_min h2.1 h3.1).trans h1.1
    · push_cast
      exact h1.2.trans (max_le_max h2.2 h3.2)

theorem holds_inv {e : Encl} {x : ℝ} (hx : e.Holds x) : e.inv.Holds x⁻¹ := by
  cases e with
  | unknown => trivial
  | within a b =>
    unfold Encl.inv
    dsimp only
    split
    · next h =>
      obtain ⟨h1, h2⟩ := hx
      refine ⟨?_, ?_⟩ <;> push_cast <;> rw [one_div]
      · rcases h with h | h
        · have : (0 : ℝ) < a := by exact_mod_cast h
          exact inv_anti₀ (this.trans_le h1) h2
        · have : (b : ℝ) < 0 := by exact_mod_cast h
          exact (inv_le_inv_of_neg this (h2.trans_lt this)).mpr h2
      · rcases h with h | h
        · have : (0 : ℝ) < a := by exact_mod_cast h
          exact inv_anti₀ this h1
        · have : (b : ℝ) < 0 := by exact_mod_cast h
          have hx0 := h2.trans_lt this
          exact (inv_le_inv_of_neg hx0 (h1.trans_lt hx0)).mpr h1
    · trivial

theorem holds_div {e f : Encl} {x y : ℝ} (hx : e.Holds x) (hy : f.Holds y) : (e.div f).Holds (x / y) := by
  rw [div_eq_mul_inv]; exact holds_mul hx (holds_inv hy)

/-! ## Square roots -/

theorem holds_gridSqrt {x : Rat} (hx : 0 ≤ x) : (gridSqrt x).Holds (Real.sqrt x) := by
  unfold gridSqrt
  dsimp only
  generalize newtonSqrt _ 40 _ = r
  split
  · next h =>
    obtain ⟨h1, h2⟩ := h
    have hG : (0 : ℝ) < 2 ^ gridBits := by positivity
    have h4 : (4 : ℝ) ^ gridBits = 2 ^ gridBits * 2 ^ gridBits := by rw [← mul_pow]; norm_num
    have hfl : 0 ≤ (x * 4 ^ gridBits).floor := by
      have := Int.floor_nonneg.mpr (mul_nonneg hx (by positivity : (0 : Rat) ≤ 4 ^ gridBits))
      exact this
    have hn : (((x * 4 ^ gridBits).floor.toNat : Nat) : Int) = (x * 4 ^ gridBits).floor := Int.toNat_of_nonneg hfl
    have hle : (((x * 4 ^ gridBits).floor : Int) : Rat) ≤ x * 4 ^ gridBits := Int.floor_le _
    have hlt : x * 4 ^ gridBits < ((x * 4 ^ gridBits).floor : Int) + 1 := Int.lt_floor_add_one _
    generalize (x * 4 ^ gridBits).floor.toNat = n at *
    rw [← hn] at hle hlt
    have hle' : (n : ℝ) ≤ x * 4 ^ gridBits := by exact_mod_cast hle
    have hlt' : (x : ℝ) * 4 ^ gridBits < n + 1 := by exact_mod_cast hlt
    have h1' : (r : ℝ) * r ≤ n := by exact_mod_cast h1
    have h2' : (n : ℝ) + 1 ≤ (r + 1) * (r + 1) := by exact_mod_cast h2
    refine ⟨?_, ?_⟩
    · push_cast
      apply Real.le_sqrt_of_sq_le
      rw [div_pow, div_le_iff₀ (by positivity), pow_two, pow_two, ← h4]
      exact h1'.trans hle'
    · push_cast
      rw [Real.sqrt_le_left (by positivity), div_pow, le_div_iff₀ (by positivity), pow_two, pow_two, ← h4]
      exact hlt'.le.trans h2'
  · trivial

/-- A rational root is the root. -/
theorem ratRoot_spec {q : Nat} {x r : Rat} (hx : 0 ≤ x) (hq : q ≠ 0) (h : ratRoot q x = some r) : 0 ≤ r ∧ r ^ q = x := by
  unfold ratRoot at h
  split at h
  · next h0 => cases h; exact ⟨le_refl _, by rw [h0, zero_pow hq]⟩
  · split at h
    · next h1 => cases h; exact ⟨zero_le_one, by rw [h1, one_pow]⟩
    · split at h
      · cases h
      · dsimp only at h
        split at h
        · next hab =>
          cases h
          refine ⟨by positivity, ?_⟩
          rw [div_pow]
          have h1 : ((floorRoot q x.num.toNat : Nat) : Rat) ^ q = x.num := by
            have h2 : ((x.num.toNat : Nat) : Int) = x.num := Int.toNat_of_nonneg (Rat.num_nonneg.mpr hx)
            rw [← h2]
            exact_mod_cast hab.1
          have h2 : ((floorRoot q x.den : Nat) : Rat) ^ q = x.den := by exact_mod_cast hab.2
          rw [h1, h2, Rat.num_div_den]
        · cases h

/-- A growing function of a number in `[a, b]`, which below 0 is as at 0, from enclosures of its values at the two
ends. -/
theorem holds_monotone {e f : Encl} {a b : Rat} {x : ℝ} {g : ℝ → ℝ} (hg : ∀ u v, 0 ≤ u → u ≤ v → g u ≤ g v)
    (hx : (Encl.within a b).Holds x) (he : e.Holds (g ((max a 0 : Rat) : ℝ)))
    (hf : f.Holds (g ((max b 0 : Rat) : ℝ))) : (e.hull f).Holds (g (max x 0)) := by
  refine holds_hull he hf (.inl ⟨hg _ _ ?_ ?_, hg _ _ (le_max_right _ _) ?_⟩)
  · exact_mod_cast le_max_right a 0
  · rw [Rat.cast_max, Rat.cast_zero]; exact max_le_max hx.1 le_rfl
  · rw [Rat.cast_max, Rat.cast_zero]; exact max_le_max hx.2 le_rfl

theorem sqrt_max_zero (x : ℝ) : Real.sqrt (max x 0) = Real.sqrt x := by
  rcases le_total 0 x with h | h
  · rw [max_eq_left h]
  · rw [max_eq_right h, Real.sqrt_zero, Real.sqrt_eq_zero_of_nonpos h]

theorem holds_enclSqrt {e : Encl} {x : ℝ} (hx : e.Holds x) : (enclSqrt e).Holds (Real.sqrt x) := by
  cases e with
  | unknown => trivial
  | within a b =>
    rw [← sqrt_max_zero]
    exact holds_monotone (fun _ _ _ h => Real.sqrt_le_sqrt h) hx (holds_gridSqrt (le_max_right _ _))
      (holds_gridSqrt (le_max_right _ _))

theorem holds_coarsen {e : Encl} {x : ℝ} (hx : e.Holds x) : (coarsen e).Holds x := by
  cases e with
  | unknown => trivial
  | within a b =>
    have hG : (0 : Rat) < 2 ^ gridBits := by positivity
    refine ⟨le_trans ?_ hx.1, hx.2.trans ?_⟩
    · exact_mod_cast (div_le_iff₀ hG).mpr (Int.floor_le (a * 2 ^ gridBits))
    · exact_mod_cast (le_div_iff₀ hG).mpr Rat.le_ceil

/-! ## Sine and cosine -/

/-- The lowest `k + 1` bits of a number: its bit `k` and the lowest `k`. -/
theorem mod_two_pow_split (m k : Nat) : m % 2 ^ (k + 1) = (if m.testBit k then 2 ^ k else 0) + m % 2 ^ k := by
  rw [Nat.pow_succ, Nat.mod_mul, Nat.testBit_eq_decide_div_mod_eq]
  have : m / 2 ^ k % 2 = 0 ∨ m / 2 ^ k % 2 = 1 := by omega
  rcases this with h | h <;> simp [h, Nat.add_comm]

/-- The loop of the angle bits encloses the cosine of the angle it starts at plus the angle of the lowest `k` bits. -/
theorem holds_turnLoop (m k : Nat) {c : Encl} {cs : Encl × Encl} {α φ : ℝ} (h0 : 0 ≤ φ) (hπ : φ ≤ Real.pi)
    (hc : c.Holds (Real.cos φ)) (h1 : cs.1.Holds (Real.cos α)) (h2 : cs.2.Holds (Real.sin α)) :
    (turnLoop m k c cs).1.Holds (Real.cos (α + φ * ((m % 2 ^ k : Nat) : ℝ) / 2 ^ k)) := by
  induction k generalizing c cs α φ with
  | zero => simpa [turnLoop, Nat.mod_one] using h1
  | succ k ih =>
    have hone : (Encl.exactly 1).Holds 1 := holds_exactly.mpr (by simp)
    have hhalf : (Encl.exactly (1 / 2)).Holds (1 / 2) := holds_exactly.mpr (by norm_num)
    have hcos : (enclSqrt (((Encl.exactly 1).add c).mul (.exactly (1 / 2)))).Holds (Real.cos (φ / 2)) := by
      rw [Real.cos_half (by linarith) hπ, div_eq_mul_one_div (1 + Real.cos φ)]
      exact holds_enclSqrt (holds_mul (holds_add hone hc) hhalf)
    have hsin : (enclSqrt (((Encl.exactly 1).sub c).mul (.exactly (1 / 2)))).Holds (Real.sin (φ / 2)) := by
      rw [Real.sin_half_eq_sqrt h0 (by linarith), div_eq_mul_one_div (1 - Real.cos φ)]
      exact holds_enclSqrt (holds_mul (holds_sub hone hc) hhalf)
    rw [turnLoop]
    split
    · next hb =>
      have he : α + φ * ((m % 2 ^ (k + 1) : Nat) : ℝ) / 2 ^ (k + 1) =
          (α + φ / 2) + φ / 2 * ((m % 2 ^ k : Nat) : ℝ) / 2 ^ k := by
        rw [mod_two_pow_split, if_pos hb]; push_cast; field_simp; ring
      rw [he]
      refine ih (by linarith) (by linarith) hcos ?_ ?_
      · rw [Real.cos_add]; exact holds_coarsen (holds_sub (holds_mul h1 hcos) (holds_mul h2 hsin))
      · rw [Real.sin_add]; exact holds_coarsen (holds_add (holds_mul h2 hcos) (holds_mul h1 hsin))
    · next hb =>
      have he : α + φ * ((m % 2 ^ (k + 1) : Nat) : ℝ) / 2 ^ (k + 1) =
          α + φ / 2 * ((m % 2 ^ k : Nat) : ℝ) / 2 ^ k := by
        rw [mod_two_pow_split, if_neg hb]; push_cast; field_simp; ring
      rw [he]
      exact ih (by linarith) (by linarith) hcos h1 h2

/-- The angle in units is less than one unit below, and less than two half turns. -/
theorem angleUnits_spec (d : Rat) :
    (angleUnits d : ℝ) ≤ ((d : ℝ) / 180 - 2 * (d / 360).floor) * 2 ^ loopBits ∧
    ((d : ℝ) / 180 - 2 * (d / 360).floor) * 2 ^ loopBits < angleUnits d + 1 ∧ angleUnits d < 2 * 2 ^ loopBits := by
  have h1 : (((d / 360).floor : Int) : Rat) ≤ d / 360 := Int.floor_le _
  have h2 : d / 360 < ((d / 360).floor : Int) + 1 := Int.lt_floor_add_one _
  have hG : (0 : Rat) < 2 ^ loopBits := by positivity
  have ht0 : 0 ≤ (d / 180 - 2 * (d / 360).floor) * 2 ^ loopBits := mul_nonneg (by linarith) hG.le
  have ht1 : (d / 180 - 2 * (d / 360).floor) * 2 ^ loopBits < 2 * 2 ^ loopBits :=
    mul_lt_mul_of_pos_right (by linarith) hG
  have h3 : ((((d / 180 - 2 * (d / 360).floor) * 2 ^ loopBits).floor : Int) : Rat) ≤ _ := Int.floor_le _
  have h4 : _ < ((((d / 180 - 2 * (d / 360).floor) * 2 ^ loopBits).floor : Int) : Rat) + 1 := Int.lt_floor_add_one _
  have hn : ((angleUnits d : Nat) : Int) = ((d / 180 - 2 * (d / 360).floor) * 2 ^ loopBits).floor :=
    Int.toNat_of_nonneg (Int.floor_nonneg.mpr ht0)
  rw [← hn] at h3 h4
  refine ⟨by exact_mod_cast h3, by exact_mod_cast h4, ?_⟩
  have : ((angleUnits d : Nat) : Rat) < 2 * 2 ^ loopBits := lt_of_le_of_lt (by exact_mod_cast h3) ht1
  exact_mod_cast this

/-- An angle less whole turns has the same cosine. -/
theorem cos_degrees (d : ℝ) (k : Int) : Real.cos (degrees d) = Real.cos (Real.pi * (d / 180 - 2 * k)) := by
  rw [show Real.pi * (d / 180 - 2 * k) = degrees d - k * (2 * Real.pi) by unfold degrees; ring,
    Real.cos_sub_int_mul_two_pi]

theorem holds_loopCos (d : Rat) : (loopCos d).Holds (Real.cos (degrees d)) := by
  obtain ⟨h1, h2, h3⟩ := angleUnits_spec d
  have hG : (0 : ℝ) < 2 ^ loopBits := by positivity
  have hpi := Real.pi_pos
  have hpi4 := Real.pi_le_four
  unfold loopCos
  dsimp only
  have key : (turnLoop (angleUnits d) loopBits (.exactly (-1))
      ((if 2 ^ loopBits ≤ angleUnits d then .exactly (-1) else .exactly 1), .exactly 0)).1.Holds
      (Real.cos (Real.pi * (angleUnits d : ℝ) / 2 ^ loopBits)) := by
    have hc : (Encl.exactly (-1)).Holds (Real.cos Real.pi) := holds_exactly.mpr (by simp)
    by_cases h : 2 ^ loopBits ≤ angleUnits d
    · have hm : angleUnits d = 2 ^ loopBits + angleUnits d % 2 ^ loopBits := by
        rw [Nat.mod_eq_sub_mod h, Nat.mod_eq_of_lt (by omega)]; omega
      have he : Real.pi * (angleUnits d : ℝ) / 2 ^ loopBits =
          Real.pi + Real.pi * ((angleUnits d % 2 ^ loopBits : Nat) : ℝ) / 2 ^ loopBits := by
        conv_lhs => rw [hm]
        push_cast; field_simp
      rw [he, if_pos h]
      exact holds_turnLoop _ _ hpi.le le_rfl hc (holds_exactly.mpr (by simp)) (holds_exactly.mpr (by simp))
    · have hm : angleUnits d % 2 ^ loopBits = angleUnits d := Nat.mod_eq_of_lt (by omega)
      have he : Real.pi * (angleUnits d : ℝ) / 2 ^ loopBits =
          0 + Real.pi * ((angleUnits d % 2 ^ loopBits : Nat) : ℝ) / 2 ^ loopBits := by rw [hm]; ring
      rw [he, if_neg h]
      exact holds_turnLoop _ _ hpi.le le_rfl hc (holds_exactly.mpr (by simp)) (holds_exactly.mpr (by simp))
  rw [cos_degrees d (d / 360).floor]
  set t : ℝ := (d : ℝ) / 180 - 2 * ((d / 360).floor : Int)
  have hd := Real.abs_cos_sub_cos_le (Real.pi * t) (Real.pi * (angleUnits d : ℝ) / 2 ^ loopBits)
  have hb : |Real.pi * t - Real.pi * (angleUnits d : ℝ) / 2 ^ loopBits| ≤ 4 / 2 ^ loopBits := by
    have : Real.pi * t - Real.pi * (angleUnits d : ℝ) / 2 ^ loopBits =
        Real.pi * (t * 2 ^ loopBits - angleUnits d) / 2 ^ loopBits := by field_simp
    rw [this, abs_div, abs_of_pos hG, div_le_div_iff_of_pos_right hG, abs_of_nonneg (mul_nonneg hpi.le (by linarith))]
    nlinarith
  have herr : (Encl.within (-4 / 2 ^ loopBits) (4 / 2 ^ loopBits)).Holds
      (Real.cos (Real.pi * t) - Real.cos (Real.pi * (angleUnits d : ℝ) / 2 ^ loopBits)) := by
    have := abs_le.mp (hd.trans hb)
    refine ⟨?_, ?_⟩
    · push_cast; rw [neg_div]; exact this.1
    · push_cast; exact this.2
  have := holds_add key herr
  rwa [add_sub_cancel] at this

/-- The cosine of a whole number of degrees depends on its remainder by 360. -/
theorem cos_degrees_mod {d : Rat} (h : d.den = 1) {n : Nat} (hn : (d.num % 360).toNat = n) :
    Real.cos (degrees d) = Real.cos (degrees n) := by
  have h1 : (d : ℝ) = (d.num : ℝ) := by
    have : d = (d.num : Rat) := (Rat.den_eq_one_iff d).mp h |>.symm
    exact_mod_cast congrArg (fun q : Rat => (q : ℝ)) this
  have h2 : ((n : Nat) : Int) = d.num % 360 := by
    rw [← hn]; exact Int.toNat_of_nonneg (Int.emod_nonneg _ (by decide))
  have h3 : d.num = n + (d.num / 360) * 360 := by rw [h2]; omega
  have h4 : degrees d = degrees n + ((d.num / 360 : Int) : ℝ) * (2 * Real.pi) := by
    rw [h1]
    conv_lhs => rw [h3]
    unfold degrees; push_cast; ring
  rw [h4, Real.cos_add_int_mul_two_pi]

theorem ratCos_spec {d r : Rat} (h : ratCos d = some r) : Real.cos (degrees d) = r := by
  unfold ratCos at h
  split at h
  · next hd =>
    have e60 : degrees 60 = Real.pi / 3 := by unfold degrees; ring
    have e120 : degrees 120 = Real.pi - Real.pi / 3 := by unfold degrees; ring
    have e240 : degrees 240 = Real.pi / 3 + Real.pi := by unfold degrees; ring
    have e300 : degrees 300 = 2 * Real.pi - Real.pi / 3 := by unfold degrees; ring
    have e270 : degrees 270 = Real.pi / 2 + Real.pi := by unfold degrees; ring
    have e90 : degrees 90 = Real.pi / 2 := by unfold degrees; ring
    have e180 : degrees 180 = Real.pi := by unfold degrees; ring
    have e0 : degrees 0 = 0 := by unfold degrees; ring
    split at h <;> first | (cases h; done) | skip
    all_goals
      next hn =>
      cases h
      rw [cos_degrees_mod hd hn]
      push_cast
      first
        | (rw [e0]; simp)
        | (rw [e60, Real.cos_pi_div_three])
        | (rw [e90, Real.cos_pi_div_two])
        | (rw [e120, Real.cos_pi_sub, Real.cos_pi_div_three]; norm_num)
        | (rw [e180, Real.cos_pi])
        | (rw [e240, Real.cos_add_pi, Real.cos_pi_div_three]; norm_num)
        | (rw [e270, Real.cos_add_pi, Real.cos_pi_div_two, neg_zero])
        | (rw [e300, Real.cos_two_pi_sub, Real.cos_pi_div_three])
  · cases h

theorem sqrt_half : Real.sqrt ((1 / 2 : Rat) : ℝ) = Real.cos (Real.pi / 4) := by
  rw [Real.cos_pi_div_four, Real.sqrt_eq_iff_mul_self_eq (by norm_num) (by positivity)]
  have := Real.mul_self_sqrt (show (0 : ℝ) ≤ 2 by norm_num)
  push_cast
  linarith

theorem diagCos_spec {d : Rat} {b : Bool} (h : diagCos d = some b) :
    Real.cos (degrees d) = if b then Real.cos (Real.pi / 4) else -Real.cos (Real.pi / 4) := by
  unfold diagCos at h
  split at h
  · next hd =>
    have e45 : degrees 45 = Real.pi / 4 := by unfold degrees; ring
    have e135 : degrees 135 = Real.pi - Real.pi / 4 := by unfold degrees; ring
    have e225 : degrees 225 = Real.pi / 4 + Real.pi := by unfold degrees; ring
    have e315 : degrees 315 = 2 * Real.pi - Real.pi / 4 := by unfold degrees; ring
    split at h <;> first | (cases h; done) | skip
    all_goals
      next hn =>
      cases h
      rw [cos_degrees_mod hd hn]
      simp only [Nat.cast_ofNat, if_true, Bool.false_eq_true, if_false]
      first
        | (rw [e45])
        | (rw [e135, Real.cos_pi_sub])
        | (rw [e225, Real.cos_add_pi])
        | (rw [e315, Real.cos_two_pi_sub])
  · cases h

theorem holds_enclCos {e : Encl} {x : ℝ} (hx : e.Holds x) : (enclCos e).Holds (Real.cos (degrees x)) := by
  cases e with
  | unknown => trivial
  | within a b =>
    unfold enclCos
    dsimp only
    split
    · next h =>
      subst h
      rw [holds_exactly.mp hx]
      exact holds_loopCos a
    · trivial

/-! ## Powers -/

/-- The loop of the exponent bits encloses every power from the exponent it starts at plus that of the lowest `k` bits to
one unit above. -/
theorem holds_powLoop (m k : Nat) {r acc : Encl} {x β ε t : ℝ} (hx : 0 < x) (hr : r.Holds (x ^ ε))
    (ha : acc.Holds (x ^ β)) (ht0 : 0 ≤ t) (ht1 : t ≤ 1) :
    (powLoop m k r acc).Holds (x ^ (β + ε * (((m % 2 ^ k : Nat) : ℝ) + t) / 2 ^ k)) := by
  induction k generalizing r acc β ε with
  | zero =>
    have he : β + ε * (((m % 2 ^ 0 : Nat) : ℝ) + t) / 2 ^ 0 = β + ε * t := by simp [Nat.mod_one]
    rw [he, powLoop]
    refine holds_hull ha (holds_coarsen (holds_mul ha hr)) ?_
    rw [← Real.rpow_add hx]
    rcases le_total 1 x with h1 | h1 <;> rcases le_total 0 ε with h2 | h2
    · exact .inl ⟨Real.rpow_le_rpow_of_exponent_le h1 (by nlinarith), Real.rpow_le_rpow_of_exponent_le h1 (by nlinarith)⟩
    · exact .inr ⟨Real.rpow_le_rpow_of_exponent_le h1 (by nlinarith), Real.rpow_le_rpow_of_exponent_le h1 (by nlinarith)⟩
    · exact .inr ⟨Real.rpow_le_rpow_of_exponent_ge hx h1 (by nlinarith),
        Real.rpow_le_rpow_of_exponent_ge hx h1 (by nlinarith)⟩
    · exact .inl ⟨Real.rpow_le_rpow_of_exponent_ge hx h1 (by nlinarith),
        Real.rpow_le_rpow_of_exponent_ge hx h1 (by nlinarith)⟩
  | succ k ih =>
    have hr' : (enclSqrt r).Holds (x ^ (ε / 2)) := by
      have : x ^ (ε / 2) = Real.sqrt (x ^ ε) := by
        rw [Real.sqrt_eq_rpow, ← Real.rpow_mul hx.le]; congr 1; ring
      rw [this]
      exact holds_enclSqrt hr
    rw [powLoop]
    split
    · next hb =>
      have he : β + ε * (((m % 2 ^ (k + 1) : Nat) : ℝ) + t) / 2 ^ (k + 1) =
          (β + ε / 2) + ε / 2 * (((m % 2 ^ k : Nat) : ℝ) + t) / 2 ^ k := by
        rw [mod_two_pow_split, if_pos hb]; push_cast; field_simp; ring
      rw [he]
      exact ih hr' (by rw [Real.rpow_add hx]; exact holds_coarsen (holds_mul ha hr'))
    · next hb =>
      have he : β + ε * (((m % 2 ^ (k + 1) : Nat) : ℝ) + t) / 2 ^ (k + 1) =
          β + ε / 2 * (((m % 2 ^ k : Nat) : ℝ) + t) / 2 ^ k := by
        rw [mod_two_pow_split, if_neg hb]; push_cast; field_simp; ring
      rw [he]
      exact ih hr' ha

theorem holds_ratPow {x e : Rat} (hx : 0 ≤ x) (he : 0 < e) : (ratPow x e).Holds ((x : ℝ) ^ (e : ℝ)) := by
  have he' : (0 : ℝ) < e := by exact_mod_cast he
  unfold ratPow
  split
  · next h => subst h; rw [holds_exactly, Rat.cast_zero, Real.zero_rpow he'.ne']
  · next hx0 =>
    have hpos : (0 : ℝ) < x := by exact_mod_cast lt_of_le_of_ne hx (Ne.symm hx0)
    have hG : (0 : ℝ) < 2 ^ loopBits := by positivity
    have hfl : ((((e * 2 ^ loopBits).floor.toNat : Nat) : Int)) = (e * 2 ^ loopBits).floor :=
      Int.toNat_of_nonneg (Int.floor_nonneg.mpr (by positivity : (0 : Rat) ≤ e * 2 ^ loopBits))
    have h3 : (((e * 2 ^ loopBits).floor : Int) : Rat) ≤ e * 2 ^ loopBits := Int.floor_le _
    have h4 : e * 2 ^ loopBits < ((e * 2 ^ loopBits).floor : Int) + 1 := Int.lt_floor_add_one _
    dsimp only
    generalize (e * 2 ^ loopBits).floor.toNat = m at *
    rw [← hfl] at h3 h4
    have h3' : (m : ℝ) ≤ e * 2 ^ loopBits := by exact_mod_cast h3
    have h4' : (e : ℝ) * 2 ^ loopBits < m + 1 := by exact_mod_cast h4
    have hm : (m : ℝ) = 2 ^ loopBits * ((m / 2 ^ loopBits : Nat) : ℝ) + ((m % 2 ^ loopBits : Nat) : ℝ) := by
      exact_mod_cast (Nat.div_add_mod m (2 ^ loopBits)).symm
    have hexp : (e : ℝ) = ((m / 2 ^ loopBits : Nat) : ℝ) +
        1 * (((m % 2 ^ loopBits : Nat) : ℝ) + (e * 2 ^ loopBits - m)) / 2 ^ loopBits := by
      field_simp
      linarith
    rw [hexp]
    refine holds_powLoop m loopBits hpos ?_ ?_ (by linarith) (by linarith)
    · rw [Real.rpow_one]; exact holds_exactly.mpr rfl
    · rw [Real.rpow_natCast]
      exact holds_coarsen (holds_exactly.mpr (by push_cast; rfl))

theorem holds_enclPow {e f : Encl} {x y : ℝ} (hx : e.Holds x) (hy : f.Holds y) :
    (enclPow e f).Holds ((max x 0) ^ y) := by
  cases e <;> cases f <;> try trivial
  next a b p q =>
  unfold enclPow
  dsimp only
  split
  · next h =>
    obtain ⟨rfl, hp⟩ := h
    rw [holds_exactly.mp hy]
    exact holds_monotone (g := fun u => u ^ (p : ℝ))
      (fun _ _ hu huv => Real.rpow_le_rpow hu huv (by exact_mod_cast hp.le)) hx
      (holds_ratPow (le_max_right _ _) hp) (holds_ratPow (le_max_right _ _) hp)
  · trivial

/-! ## What is known of an expression -/

/-- The enclosure of an expression encloses the number it stands for. -/
theorem holds_encl (e : RealExpr) : (encl e).Holds e.val := by
  induction e with
  | rat q => exact holds_exactly.mpr rfl
  | add a b iha ihb => exact holds_add iha ihb
  | sub a b iha ihb => exact holds_sub iha ihb
  | mul a b iha ihb => exact holds_mul iha ihb
  | div a b iha ihb => exact holds_div iha ihb
  | ifLt a b x y _ _ ihx ihy =>
    show ((encl x).hull (encl y)).Holds (if a.val < b.val then x.val else y.val)
    split
    · exact holds_hull_left _ ihx
    · exact holds_hull_right _ ihy
  | sqrt a ih => exact holds_enclSqrt ih
  | cos a ih => exact holds_enclCos ih
  | pow x e ihx ihe => exact holds_enclPow ihx ihe

/-- The number a list of terms stands for. -/
noncomputable def termsVal (l : List (Rat × RealExpr)) : ℝ := (l.map fun t => (t.1 : ℝ) * t.2.val).sum

/-- The number a linear form stands for. -/
noncomputable def LinForm.val (l : LinForm) : ℝ := l.const + termsVal l.terms

theorem termsVal_addTerm (k : Rat) (e : RealExpr) (l : List (Rat × RealExpr)) :
    termsVal (addTerm k e l) = termsVal l + k * e.val := by
  induction l with
  | nil => simp [termsVal, addTerm]
  | cons t l ih =>
    obtain ⟨q, f⟩ := t
    rw [addTerm]
    split
    · next h => subst h; simp [termsVal]; ring
    · have : termsVal ((q, f) :: addTerm k e l) = q * f.val + termsVal (addTerm k e l) := by simp [termsVal]
      rw [this, ih]
      simp [termsVal]; ring

theorem val_addScaled (e : RealExpr) (k : Rat) (l : LinForm) : (addScaled e k l).val = l.val + k * e.val := by
  have term : ∀ (e : RealExpr) (k : Rat) (l : LinForm),
      LinForm.val { l with terms := addTerm k e l.terms } = l.val + k * e.val := by
    intro e k l
    rw [LinForm.val, LinForm.val, termsVal_addTerm, add_assoc]
  fun_induction addScaled e k l with
  | case1 q k l => simp only [LinForm.val, RealExpr.val]; push_cast; ring
  | case2 a b k l ih1 ih2 => rw [ih2, ih1]; simp only [RealExpr.val]; ring
  | case3 a b k l ih1 ih2 => rw [ih2, ih1]; simp only [RealExpr.val]; push_cast; ring
  | case4 q b k l ih => rw [ih]; simp only [RealExpr.val]; push_cast; ring
  | case5 a q k l _ ih => rw [ih]; simp only [RealExpr.val]; push_cast; ring
  | case6 a q k l ih => rw [ih]; simp only [RealExpr.val]; push_cast; ring
  | case7 => exact term _ _ _

theorem holds_linEncl (l : LinForm) : l.encl.Holds l.val := by
  have h : ∀ (ts : List (Rat × RealExpr)) (e : Encl) (x : ℝ), e.Holds x →
      (ts.foldl (fun acc t => acc.add ((Encl.exactly t.1).mul (encl t.2))) e).Holds (x + termsVal ts) := by
    intro ts
    induction ts with
    | nil => intro e x hx; simpa [termsVal] using hx
    | cons t ts ih =>
      intro e x hx
      have := ih _ _ (holds_add hx (holds_mul (holds_exactly.mpr (rfl : ((t.1 : Rat) : ℝ) = t.1)) (holds_encl t.2)))
      rw [List.foldl_cons]
      have he : x + termsVal (t :: ts) = x + (t.1 : ℝ) * t.2.val + termsVal ts := by simp [termsVal]; ring
      rw [he]
      exact this
  exact h l.terms _ _ (holds_exactly.mpr rfl)

/-- What is known of an expression is true of the number it stands for. -/
theorem holds_known (e : RealExpr) : (known e).Holds e.val := by
  have h := holds_linEncl (addScaled e 1 { const := 0, terms := [] })
  rw [val_addScaled] at h
  have hv : LinForm.val { const := 0, terms := [] } + ((1 : Rat) : ℝ) * e.val = e.val := by simp [LinForm.val, termsVal]
  rwa [hv] at h

/-! ## Expressions stand for the exact numbers -/

@[simp] theorem val_rat (q : Rat) : (RealExpr.rat q).val = q := rfl

theorem val_realAdd (x y : RealExpr) : (realAdd x y).val = x.val + y.val := by
  cases x <;> cases y <;> first | rfl | (simp [realAdd, RealExpr.val])

theorem val_realSub (x y : RealExpr) : (realSub x y).val = x.val - y.val := by
  cases x <;> cases y <;> first | rfl | (simp [realSub, RealExpr.val])

theorem val_realMul (x y : RealExpr) : (realMul x y).val = x.val * y.val := by
  unfold realMul
  split
  · next h => rcases h with rfl | rfl <;> simp
  · cases x <;> cases y <;> first | rfl | (simp [RealExpr.val])

theorem val_realDiv (x y : RealExpr) : (realDiv x y).val = x.val / y.val := by
  cases x <;> cases y <;> first | rfl | (simp [realDiv, RealExpr.val])

theorem val_realIfLt (a b x y : RealExpr) : (realIfLt a b x y).val = if a.val < b.val then x.val else y.val := by
  have h := holds_known (realSub a b)
  rw [val_realSub] at h
  unfold realIfLt
  split
  · next lo hi hk =>
    rw [hk] at h
    split
    · next hn =>
      have : (hi : ℝ) < 0 := by exact_mod_cast hn
      rw [if_pos (by linarith [h.2])]
    · split
      · next hn =>
        have : (0 : ℝ) ≤ lo := by exact_mod_cast hn
        rw [if_neg (by linarith [h.1])]
      · rfl
  · rfl

theorem val_realSqrt (x : RealExpr) : (realSqrt x).val = Real.sqrt x.val := by
  cases x <;> try rfl
  next q =>
  unfold realSqrt
  dsimp only
  split
  · next r h =>
    obtain ⟨h1, h2⟩ := ratRoot_spec (le_max_right q 0) (by decide) h
    have h3 : (r : ℝ) ^ 2 = max (q : ℝ) 0 := by exact_mod_cast h2
    rw [val_rat, val_rat, ← sqrt_max_zero, ← h3]
    exact (Real.sqrt_sq (by exact_mod_cast h1)).symm
  · rfl

theorem val_realCos (x : RealExpr) : (realCos x).val = Real.cos (degrees x.val) := by
  cases x <;> try rfl
  next d =>
  unfold realCos
  dsimp only
  split
  · next r h => exact (ratCos_spec h).symm
  · next h => rw [val_rat, diagCos_spec h]; exact sqrt_half
  · next h =>
    rw [val_rat, diagCos_spec h]
    show ((0 : Rat) : ℝ) - Real.sqrt ((1 / 2 : Rat) : ℝ) = _
    rw [sqrt_half]
    simp
  · rfl

theorem val_realSin (x : RealExpr) : (realSin x).val = Real.sin (degrees x.val) := by
  rw [realSin, val_realCos, val_realSub, val_rat]
  have : degrees (x.val - ((90 : Rat) : ℝ)) = degrees x.val - Real.pi / 2 := by unfold degrees; push_cast; ring
  rw [this, Real.cos_sub_pi_div_two]

/-- A rational power of a number that has the root. -/
theorem rpow_of_root {q r p : Rat} (hr : 0 ≤ r) (h : r ^ p.den = q) (hp : 0 < p) :
    ((r ^ p.num.toNat : Rat) : ℝ) = (q : ℝ) ^ (p : ℝ) := by
  have hr' : (0 : ℝ) ≤ r := by exact_mod_cast hr
  rw [← h]
  push_cast
  rw [← Real.rpow_natCast, ← Real.rpow_natCast, ← Real.rpow_mul hr']
  congr 1
  have hnum : ((p.num.toNat : Nat) : Int) = p.num := Int.toNat_of_nonneg (Rat.num_nonneg.mpr hp.le)
  have hnum' : ((p.num.toNat : Nat) : ℝ) = (p.num : ℝ) := by exact_mod_cast congrArg (Int.cast (R := ℝ)) hnum
  have hden : (p.den : ℝ) ≠ 0 := by exact_mod_cast p.den_ne_zero
  rw [hnum', Rat.cast_def p]
  field_simp

theorem val_realPow {x : RealExpr} (h0 : 0 ≤ x.val) (e : RealExpr) : (realPow x e).val = x.val ^ e.val := by
  have hpow : (RealExpr.pow x e).val = x.val ^ e.val := by
    show (max x.val 0) ^ e.val = _
    rw [max_eq_left h0]
  unfold realPow
  split
  · next h => subst h; simp
  · cases x <;> cases e <;> try exact hpow
    next q p _ =>
    dsimp only
    split
    · next h =>
      have hp : (p : ℝ) ≠ 0 := by exact_mod_cast h.1.ne'
      rcases h.2 with rfl | rfl
      · simp [Real.zero_rpow hp]
      · simp
    · split
      · next h =>
        split
        · next r hr =>
          obtain ⟨h1, h2⟩ := ratRoot_spec h.2.le p.den_ne_zero hr
          exact rpow_of_root h1 h2 h.1
        · exact hpow
      · exact hpow

/-! ## Rounding -/

theorem ratRnd_cast (q : Rat) : ⌊(q : ℝ) + 1 / 2⌋ = ratRnd q := by
  have h : (q : ℝ) + 1 / 2 = ((q + 1 / 2 : Rat) : ℝ) := by push_cast; ring
  rw [h, Rat.floor_cast]
  rfl

/-- The exact rounding of a number lies between those of the ends of its enclosure. -/
theorem ratRnd_encloses {a b : Rat} {x : ℝ} (h : (Encl.within a b).Holds x) :
    ratRnd a ≤ ⌊x + 1 / 2⌋ ∧ ⌊x + 1 / 2⌋ ≤ ratRnd b := by
  rw [← ratRnd_cast, ← ratRnd_cast]
  exact ⟨Int.floor_le_floor (by linarith [h.1]), Int.floor_le_floor (by linarith [h.2])⟩

/-- Where what is known of a number decides how it rounds, it rounds as the exact number does. -/
theorem realRnd_decided {e : RealExpr} (hd : roundingDecided e = true) : realRnd e = ⌊e.val + 1 / 2⌋ := by
  have h := holds_known e
  unfold roundingDecided at hd
  unfold realRnd
  split at hd
  · next a b hk =>
    rw [hk] at h
    have hab : ratRnd a = ratRnd b := by simpa using hd
    have := ratRnd_encloses h
    rw [if_pos hab]
    omega
  · cases hd

/-- However a number rounds, the machine rounds it to an integer between the roundings of the ends of its enclosure. -/
theorem realRnd_between {e : RealExpr} {a b : Rat} (hk : known e = .within a b) :
    ratRnd a ≤ realRnd e ∧ realRnd e ≤ ratRnd b := by
  have h := holds_known e
  rw [hk] at h
  have := ratRnd_encloses h
  unfold realRnd
  rw [hk]
  dsimp only
  split <;> omega

/-- A rational number rounds exactly. -/
theorem realRnd_rat (q : Rat) : realRnd (.rat q) = ratRnd q := by
  have hk : known (.rat q) = .within q q := by
    show Encl.within (0 + 1 * q) (0 + 1 * q) = _
    simp
  have := realRnd_between hk
  omega

/-! ## Rational numbers stay rational -/

@[simp] theorem rat_add (p q : Rat) : realAdd (.rat p) (.rat q) = .rat (p + q) := rfl
@[simp] theorem rat_sub (p q : Rat) : realSub (.rat p) (.rat q) = .rat (p - q) := rfl
@[simp] theorem rat_div (p q : Rat) : realDiv (.rat p) (.rat q) = .rat (p / q) := rfl
@[simp] theorem zero_realMul (x : RealExpr) : realMul (.rat 0) x = .rat 0 := by simp [realMul]
@[simp] theorem realMul_zero (x : RealExpr) : realMul x (.rat 0) = .rat 0 := by simp [realMul]

@[simp] theorem rat_mul (p q : Rat) : realMul (.rat p) (.rat q) = .rat (p * q) := by
  unfold realMul
  split
  · next h => rcases h with h | h <;> (simp only [RealExpr.rat.injEq] at h; simp [h])
  · rfl

@[simp] theorem rat_ifLt (p q : Rat) (x y : RealExpr) : realIfLt (.rat p) (.rat q) x y = if p < q then x else y := by
  have hk : known (realSub (.rat p) (.rat q)) = .within (p - q) (p - q) := by
    show Encl.within (0 + 1 * (p - q)) (0 + 1 * (p - q)) = _
    simp
  unfold realIfLt
  rw [hk]
  dsimp only
  by_cases h : p < q
  · rw [if_pos (by linarith), if_pos h]
  · rw [if_neg (by linarith), if_pos (by linarith), if_neg h]

/-- A power with exponent 1 is its base (R101). -/
@[simp] theorem realPow_one (x : RealExpr) : realPow x (.rat 1) = x := by simp [realPow]

theorem realArith_keepsZero : realArith.KeepsZero where
  add_zero := by show realAdd (.rat 0) (.rat 0) = .rat 0; simp
  sub_zero := by show realSub (.rat 0) (.rat 0) = .rat 0; simp
  zero_mul := zero_realMul
  mul_zero := realMul_zero

theorem exactArith_keepsZero : exactArith.KeepsZero where
  add_zero := by show ((0 : Rat) : ℝ) + ((0 : Rat) : ℝ) = ((0 : Rat) : ℝ); simp
  sub_zero := by show ((0 : Rat) : ℝ) - ((0 : Rat) : ℝ) = ((0 : Rat) : ℝ); simp
  zero_mul x := by show ((0 : Rat) : ℝ) * x = ((0 : Rat) : ℝ); simp
  mul_zero x := by show x * ((0 : Rat) : ℝ) = ((0 : Rat) : ℝ); simp

end Machine

end Sys2Proof
end

