-- ==== Sys2Proof/Laws/Colormap.lean ====
section
/-! SUPPORT. What the colormap build writes (41_colormap.md R112, R113), entry by entry, and the bands of the reference
instance. -/

namespace Sys2Proof.Machine

variable {R σ : Type}

@[simp] theorem size_buildData (c : Cfg R σ) (act : Memory 32) (actYuv : Bool) (idxYuv : Memory 32) :
    (buildData c act actYuv idxYuv).size = 4608 := by simp [buildData]

@[simp] theorem size_buildTable (c : Cfg R σ) (ntsc : Bool) : (buildTable c ntsc).size = 256 := by simp [buildTable]

/-- What burst injection does, one component at a time. -/
theorem injectBurst_eq (c : Cfg R σ) (row : BandRow) (u v : R) : letI := c.arith
    injectBurst c row u v =
      (if row.hasBurst then u + realOf c c.burstAmp * c.numerics.cos (realOf c (if row.ntsc then 180 else 135)) else u,
       if row.hasBurst then v + realOf c c.burstAmp * c.numerics.sin (realOf c (if row.ntsc then 180 else 135)) else v) := by
  unfold injectBurst
  split <;> rfl

/-- Entry `b*256 + i` of the built colormap (R112). -/
theorem read_buildData (c : Cfg R σ) (act : Memory 32) (actYuv : Bool) (idxYuv : Memory 32) {b i : Nat} (hb : b < 18)
    (hi : i < 256) :
    Memory.read (buildData c act actYuv idxYuv) (b * 256 + i) = colormapEntry c act actYuv idxYuv b i := by
  rw [buildData, Memory.read_tabulate_lt _ (by omega), show (b * 256 + i) / 256 = b by omega,
    show (b * 256 + i) % 256 = i by omega]

/-- Pattern `p` of the built table (R113). -/
theorem read_buildTable (c : Cfg R σ) (ntsc : Bool) (p : Byte) :
    Memory.read (buildTable c ntsc) p.toNat = BitVec.ofNat 5 (bandOf c ntsc p) := by
  have := p.isLt
  rw [buildTable, Memory.read_tabulate_lt _ (by omega), BitVec.ofNat_toNat, BitVec.setWidth_eq]

/-- Every pattern of the reference instance has one of the 18 bands (R65, R108). -/
theorem bandOf_cfg0_lt (ntsc : Bool) (p : Byte) : bandOf cfg0 ntsc p < 18 := by
  have h : ∀ n : Bool, (cfg0.mode n).bandSync < 18 ∧ (cfg0.mode n).bandBurst < 18 ∧
      ∀ k, k < 16 → cfg0.bandIndex.getD (16 * bit n + k) 0 < 18 := by decide
  obtain ⟨h1, h2, h3⟩ := h ntsc
  unfold bandOf
  split
  · exact h1
  · split
    · exact h2
    · exact h3 _ (p.extractLsb' 2 4).isLt

/-- The neutral parameters lie in their ranges under the reference instance (R15). -/
theorem neutralCcp_inRange : ∀ idx, idx ≤ 13 →
    qBound (ccpLo cfg0 idx) ≤ (Memory.read neutralCcp idx).toInt ∧
      (Memory.read neutralCcp idx).toInt ≤ qBound (ccpHi cfg0 idx) := by
  intro idx h
  have : ∀ i, i < 14 → qBound (ccpLo cfg0 i) ≤ (Memory.read neutralCcp i).toInt ∧
      (Memory.read neutralCcp i).toInt ≤ qBound (ccpHi cfg0 i) := by decide +kernel
  exact this idx (by omega)

/-- The clamp ranges of the reference instance, as integers (R15, R64). -/
theorem cfg0_clampRange : ∀ idx, idx ≤ 13 →
    -2 ^ 31 ≤ qBound (ccpLo cfg0 idx) ∧ qBound (ccpLo cfg0 idx) ≤ qBound (ccpHi cfg0 idx) ∧
      qBound (ccpHi cfg0 idx) < 2 ^ 31 := by
  intro idx h
  have : ∀ i, i < 14 → -2 ^ 31 ≤ qBound (ccpLo cfg0 i) ∧ qBound (ccpLo cfg0 i) ≤ qBound (ccpHi cfg0 i) ∧
      qBound (ccpHi cfg0 i) < 2 ^ 31 := by decide +kernel
  exact this idx (by omega)

theorem clampInt_bounds {x lo hi : Int} (h : lo ≤ hi) : lo ≤ clampInt x lo hi ∧ clampInt x lo hi ≤ hi := by
  unfold clampInt; split
  · omega
  · split <;> omega

theorem clampInt_eq {x lo hi : Int} (h : lo ≤ hi) : clampInt x lo hi = max lo (min x hi) := by
  unfold clampInt; split
  · omega
  · split <;> omega

/-- The clamp of SCCP under the reference instance, as an integer (R85). -/
theorem ccpClamp_toInt {idx : Nat} (h : idx ≤ 13) (val : S32) :
    (ccpClamp cfg0 idx val).toInt = max (qBound (ccpLo cfg0 idx)) (min val.toInt (qBound (ccpHi cfg0 idx))) := by
  obtain ⟨h1, h2, h3⟩ := cfg0_clampRange idx h
  have := clampInt_bounds (x := val.toInt) h2
  rw [ccpClamp, BitVec.toInt_ofInt, Int.bmod_eq_of_le (by omega) (by omega), clampInt_eq h2]

/-! ## The machine's numbers stand for the exact ones, operation by operation of the build (R101) -/

theorem val_add_cfg0 (x y : RealExpr) :
    (letI := cfg0.arith; x + y).val = (letI := cfg0Exact.arith; x.val + y.val) := val_realAdd x y

theorem val_sub_cfg0 (x y : RealExpr) :
    (letI := cfg0.arith; x - y).val = (letI := cfg0Exact.arith; x.val - y.val) := val_realSub x y

theorem val_mul_cfg0 (x y : RealExpr) :
    (letI := cfg0.arith; x * y).val = (letI := cfg0Exact.arith; x.val * y.val) := val_realMul x y

theorem val_div_cfg0 (x y : RealExpr) :
    (letI := cfg0.arith; x / y).val = (letI := cfg0Exact.arith; x.val / y.val) := val_realDiv x y

theorem val_ifLt_cfg0 (a b x y : RealExpr) :
    (letI := cfg0.arith; Arith.ifLt a b x y).val = (letI := cfg0Exact.arith; Arith.ifLt a.val b.val x.val y.val) :=
  val_realIfLt a b x y

theorem ifLt_cfg0Exact (a b x y : ℝ) :
    (letI := cfg0Exact.arith; Arith.ifLt a b x y) = if a < b then x else y := rfl

theorem val_sin_cfg0 (x : RealExpr) : (cfg0.numerics.sin x).val = cfg0Exact.numerics.sin x.val := val_realSin x
theorem val_cos_cfg0 (x : RealExpr) : (cfg0.numerics.cos x).val = cfg0Exact.numerics.cos x.val := val_realCos x
theorem val_sqrt_cfg0 (x : RealExpr) : (cfg0.numerics.sqrt x).val = cfg0Exact.numerics.sqrt x.val := val_realSqrt x

theorem val_pow_cfg0 {x : RealExpr} (h : 0 ≤ x.val) (e : RealExpr) :
    (cfg0.numerics.pow x e).val = cfg0Exact.numerics.pow x.val e.val := val_realPow h e

theorem val_realOf_cfg0 (q : Rat) : (realOf cfg0 q).val = realOf cfg0Exact q := rfl
theorem val_param_cfg0 (act : Memory 32) (k : Nat) : (param cfg0 act k).val = param cfg0Exact act k := rfl

end Sys2Proof.Machine
end

