-- ==== Sys2Proof/Laws/Frame.lean ====
section
/-! SUPPORT. What the Frame Resampler's operations can do (43_frame_resampler.md): ACCUM, FINALIZE, BND_STEP, the drain
of the pending boundaries, FRAME_DONE; and AUDIO_POP on the ring as a queue. -/

namespace Sys2Proof.Machine

variable {R σ : Type}

/-! ## Planes, element by element -/

theorem Planes.wf_iff {w : Nat} (c : Cfg R σ) (p : Planes w) :
    p.wf c = true ↔ p.y.size = c.ny ∧ p.v.size = c.nc ∧ p.u.size = c.nc := by
  simp [Planes.wf, Memory.wf_iff, and_assoc]

theorem Planes.wf_fill {w : Nat} (c : Cfg R σ) (x : BitVec w) : (Planes.fill c x).wf c = true := by
  simp [Planes.wf_iff, Planes.fill]

theorem planar_wf (c : Cfg R σ) (buf : Memory 32) : (planar c buf).wf c = true := by
  simp [Planes.wf_iff, planar]

@[simp] theorem size_accumPlane (held : Memory 8) (w : U64) (acc : Memory 32) :
    (accumPlane held w acc).size = acc.size := by simp [accumPlane]

@[simp] theorem size_finalizePlane (d : U64) (held : Memory 8) (acc : Memory 32) (out : Memory 8) :
    (finalizePlane d held acc out).size = out.size := by simp [finalizePlane]

/-- An element of ACCUM (R177). -/
theorem read_accumPlane (held : Memory 8) (w : U64) (acc : Memory 32) {p : Nat} (h : p < acc.size) :
    Memory.read (accumPlane held w acc) p =
      Memory.read acc p + (Memory.read held p).setWidth 32 * w.setWidth 32 := by
  simp [accumPlane, Memory.read_update, h]

/-- An element of FINALIZE (R175). -/
theorem read_finalizePlane (d : U64) (held : Memory 8) (acc : Memory 32) (out : Memory 8) {p : Nat}
    (h : p < out.size) :
    Memory.read (finalizePlane d held acc out) p =
      if d = 0 then Memory.read held p else finalByte (Memory.read acc p) d.toNat := by
  simp [finalizePlane, Memory.read_update, h]

/-- The sizes a boundary step keeps. -/
theorem cutAt_wf {c : Cfg R σ} (t : U64) {f : FrameState} (h : f.outBuf.wf c = true) :
    (cutAt c t f).outBuf.wf c = true ∧ (cutAt c t f).interpBuf.wf c = true := by
  refine ⟨?_, Planes.wf_fill c 0⟩
  rw [Planes.wf_iff] at h ⊢
  simpa [finalize] using h

/-! ## AUDIO_POP on the queue -/

@[simp] theorem size_audioSlice (c : Cfg R σ) (a : AudioState σ) : (audioSlice c a).size = c.apf := by simp [audioSlice]

/-- AUDIO_POP takes the oldest `APF` samples (R203). -/
theorem audioSlice_live {c : Cfg R σ} {a : AudioState σ} (h : c.apf ≤ a.ringCount) :
    (audioSlice c a).toList = (a.live c).take c.apf := by
  unfold audioSlice AudioState.live Memory.tabulate
  rw [← List.map_take, List.take_range, Nat.min_eq_left h]

/-- AUDIO_POP leaves the rest of the queue (R203). -/
theorem live_audioPop (c : Cfg R σ) (a : AudioState σ) :
    (audioPop c a).live c = (a.live c).drop c.apf := by
  unfold AudioState.live
  apply List.ext_getElem
  · simp
  · intro k h1 h2
    simp only [List.length_map, List.length_range, audioPop_ringCount] at h1
    simp only [List.getElem_map, List.getElem_range, List.getElem_drop, audioPop_ring, audioPop_ringRd]
    congr 1
    rw [Nat.mod_add_mod]
    congr 1
    omega

/-- AUDIO_POP on a consistent ring with a pending boundary, whose count goes down by one (R36, R203, R204). -/
theorem popStep_ringInv {c : Cfg R σ} (hc : 0 < c.apf) (b : U64) {s : State σ} (h : s.ringInv c)
    (hb : 0 < s.frame.bndCount) : (bndStep c b { s with frame := popBoundary s.frame }).ringInv c := by
  obtain ⟨h1, h2, h3, h4, h5, h6, h7, h8⟩ := h
  have hcap : c.ringCap = 8 * c.apf := rfl
  have hle : c.apf ≤ s.audio.ringCount := by
    rw [h7]
    have := Nat.le_mul_of_pos_left c.apf hb
    omega
  have hdvd : c.apf ∣ c.ringCap := ⟨8, by rw [hcap, Nat.mul_comm]⟩
  refine ⟨?_, Nat.mod_lt _ (hcap ▸ Nat.mul_pos (by decide) hc), h3, ?_, ?_, h6, ?_, ?_⟩
  · show s.audio.ringCount - c.apf ≤ _; omega
  · show ((s.audio.ringRd + c.apf) % c.ringCap + (s.audio.ringCount - c.apf)) % c.ringCap = s.audio.ringWr
    rw [Nat.mod_add_mod, ← h4]; congr 1; omega
  · show (s.audio.ringRd + c.apf) % c.ringCap % c.apf = 0
    rw [Nat.mod_mod_of_dvd _ hdvd, Nat.add_mod, h5]; simp
  · show s.audio.ringCount - c.apf = (s.frame.bndCount - 1) * c.apf + s.audio.accCnt
    rw [h7, Nat.sub_mul]; have := Nat.le_mul_of_pos_left c.apf hb; omega
  · show s.frame.bndCount - 1 ≤ 8; omega

/-! ## The drain of the pending boundaries -/

/-- What one turn of the drain keeps, the drain keeps. -/
theorem drain_keeps {β : Type} (g : State σ → β) (c : Cfg R σ)
    (h : ∀ b s, g (bndStep c b { s with frame := popBoundary s.frame }) = g s) (n : Nat) (s : State σ) :
    g (drainBoundaries c n s) = g s := by
  induction n generalizing s with
  | zero => rfl
  | succ n ih => rw [drainBoundaries, ih, h]

/-- An invariant that one turn of the drain keeps while boundaries are pending, the drain keeps. -/
theorem drain_induct (c : Cfg R σ) (P : State σ → Prop)
    (h : ∀ s, 0 < s.frame.bndCount → P s →
      P (bndStep c (Memory.read s.frame.bndFifo 0) { s with frame := popBoundary s.frame }))
    (n : Nat) (s : State σ) (hn : n ≤ s.frame.bndCount) (hs : P s) : P (drainBoundaries c n s) := by
  induction n generalizing s with
  | zero => exact hs
  | succ n ih =>
    rw [drainBoundaries]
    apply ih
    · show n ≤ s.frame.bndCount - 1; omega
    · exact h s (by omega) hs

/-- The drain writes the read side of the ring, the accumulator, the output planes, the FIFO, the two boundary times,
the frame count and the events; nothing else. -/
theorem drain_frame (c : Cfg R σ) (n : Nat) (s : State σ) :
    drainBoundaries c n s =
      { s with
        audio := { s.audio with
          ringRd := (drainBoundaries c n s).audio.ringRd, ringCount := (drainBoundaries c n s).audio.ringCount }
        frame := { s.frame with
          interpBuf := (drainBoundaries c n s).frame.interpBuf, outBuf := (drainBoundaries c n s).frame.outBuf
          interpTime := (drainBoundaries c n s).frame.interpTime, outTime := (drainBoundaries c n s).frame.outTime
          bndFifo := (drainBoundaries c n s).frame.bndFifo, bndCount := (drainBoundaries c n s).frame.bndCount
          framesOut := (drainBoundaries c n s).frame.framesOut }
        events := (drainBoundaries c n s).events } := by
  induction n generalizing s with
  | zero => rfl
  | succ n ih =>
    rw [drainBoundaries]
    conv_lhs => rw [ih]
    rfl

theorem drain_bndCount (c : Cfg R σ) (n : Nat) (s : State σ) :
    (drainBoundaries c n s).frame.bndCount = s.frame.bndCount - n := by
  induction n generalizing s with
  | zero => rfl
  | succ n ih =>
    rw [drainBoundaries, ih]
    show s.frame.bndCount - 1 - n = _
    omega

theorem drain_framesOut (c : Cfg R σ) (n : Nat) (s : State σ) :
    (drainBoundaries c n s).frame.framesOut = s.frame.framesOut + BitVec.ofNat 32 n := by
  induction n generalizing s with
  | zero => simp [drainBoundaries]
  | succ n ih =>
    rw [drainBoundaries, ih]
    show s.frame.framesOut + 1 + BitVec.ofNat 32 n = _
    rw [BitVec.add_assoc, Nat.add_comm n 1, BitVec.ofNat_add]
    rfl

/-- The drain emits one output frame for each boundary (R180), whole when the memories have their sizes (R216). -/
theorem drain_events (c : Cfg R σ) (n : Nat) (s : State σ) : ∃ evs : List Event,
    (drainBoundaries c n s).events = s.events ++ evs ∧ evs.length = n ∧
    (s.frame.outBuf.wf c = true → ∀ e ∈ evs, e.isWholeFrame c) := by
  induction n generalizing s with
  | zero => exact ⟨[], by simp [drainBoundaries]⟩
  | succ n ih =>
    obtain ⟨evs, h1, h2, h3⟩ :=
      ih (bndStep c (Memory.read s.frame.bndFifo 0) { s with frame := popBoundary s.frame })
    let f := cutAt c (Memory.read s.frame.bndFifo 0) (popBoundary s.frame)
    refine ⟨.frameOut f.outBuf.y f.outBuf.v f.outBuf.u (audioSlice c s.audio) :: evs, ?_, by simp [h2], ?_⟩
    · rw [drainBoundaries, h1]
      show (s.events ++ [_]) ++ evs = _
      rw [List.append_assoc]
      rfl
    · intro hw e he
      have hw' := (cutAt_wf (c := c) (Memory.read s.frame.bndFifo 0) (f := popBoundary s.frame) hw).1
      rcases List.mem_cons.mp he with rfl | he
      · rw [Planes.wf_iff] at hw'
        exact ⟨hw'.1, hw'.2.1, hw'.2.2, size_audioSlice _ _⟩
      · exact h3 hw' e he

theorem drain_ringInv {c : Cfg R σ} (hc : 0 < c.apf) (n : Nat) {s : State σ} (hn : n ≤ s.frame.bndCount)
    (h : s.ringInv c) : (drainBoundaries c n s).ringInv c :=
  drain_induct c (fun s => s.ringInv c) (fun _ hb h => popStep_ringInv hc _ h hb) n s hn h

/-- The drain takes `APF` samples from the ring for each boundary (R203). -/
theorem drain_live {c : Cfg R σ} (hc : 0 < c.apf) (n : Nat) {s : State σ} (hn : n ≤ s.frame.bndCount) (h : s.ringInv c) :
    (drainBoundaries c n s).audio.live c = (s.audio.live c).drop (c.apf * n) := by
  induction n generalizing s with
  | zero => simp [drainBoundaries]
  | succ n ih =>
    rw [drainBoundaries, ih (by show n ≤ s.frame.bndCount - 1; omega) (popStep_ringInv hc _ h (by omega))]
    rw [bndStep_audio, live_audioPop, List.drop_drop, Nat.mul_succ, Nat.add_comm]

/-- The drain moves `outTime` to the newest pending boundary (R174). -/
theorem drain_outTime (c : Cfg R σ) (n : Nat) {s : State σ} (h8 : s.frame.bndFifo.size = 8) (hb : s.frame.bndCount ≤ 8)
    (hn : n + 1 ≤ s.frame.bndCount) :
    (drainBoundaries c (n + 1) s).frame.outTime = Memory.read s.frame.bndFifo n := by
  induction n generalizing s with
  | zero => rfl
  | succ n ih =>
    rw [drainBoundaries, ih]
    · show Memory.read (Memory.update s.frame.bndFifo _) n = _
      rw [Memory.read_update, if_pos (by omega), if_pos (by omega)]
    · show (Memory.update s.frame.bndFifo _).size = 8
      rw [Memory.size_update, h8]
    · show s.frame.bndCount - 1 ≤ 8; omega
    · show n + 1 ≤ s.frame.bndCount - 1; omega

/-- The last turn of the drain. -/
theorem drain_succ (c : Cfg R σ) (n : Nat) (s : State σ) :
    drainBoundaries c (n + 1) s =
      bndStep c (Memory.read (drainBoundaries c n s).frame.bndFifo 0)
        { drainBoundaries c n s with frame := popBoundary (drainBoundaries c n s).frame } := by
  induction n generalizing s with
  | zero => rfl
  | succ n ih =>
    rw [drainBoundaries, ih]
    rfl

/-- What the drain leaves of the boundary FIFO: the boundaries after the first `n`, in order (R173). -/
theorem drain_fifo (c : Cfg R σ) (n : Nat) {s : State σ} (h8 : s.frame.bndFifo.size = 8) (hb : s.frame.bndCount ≤ 8)
    {i : Nat} (hn : n + i < s.frame.bndCount) :
    Memory.read (drainBoundaries c n s).frame.bndFifo i = Memory.read s.frame.bndFifo (n + i) := by
  induction n generalizing s with
  | zero => rw [Nat.zero_add]; rfl
  | succ n ih =>
    rw [drainBoundaries, ih]
    · show Memory.read (Memory.update s.frame.bndFifo _) (n + i) = _
      rw [Memory.read_update, if_pos (by omega), if_pos (by omega)]
      congr 1
      omega
    · show (Memory.update s.frame.bndFifo _).size = 8
      rw [Memory.size_update, h8]
    · show s.frame.bndCount - 1 ≤ 8; omega
    · show n + i < s.frame.bndCount - 1; omega

/-- After the boundary `n` the accumulator is empty and both times stand at it (R174). -/
theorem drain_restarts (c : Cfg R σ) (n : Nat) {s : State σ} (h8 : s.frame.bndFifo.size = 8)
    (hb : s.frame.bndCount ≤ 8) (hn : n < s.frame.bndCount) :
    (drainBoundaries c (n + 1) s).frame.interpBuf = Planes.fill c 0 ∧
    (drainBoundaries c (n + 1) s).frame.interpTime = Memory.read s.frame.bndFifo n ∧
    (drainBoundaries c (n + 1) s).frame.outTime = Memory.read s.frame.bndFifo n := by
  have h := drain_fifo c n h8 hb (i := 0) (by omega)
  rw [Nat.add_zero] at h
  rw [drain_succ, ← h]
  exact ⟨rfl, rfl, rfl⟩

/-- The event of boundary `j` (R174, R181): the picture cut at it, and the audio slice of the ring as it stands then. -/
theorem drain_event (c : Cfg R σ) (n : Nat) {s : State σ} (h8 : s.frame.bndFifo.size = 8)
    (hb : s.frame.bndCount ≤ 8) (hn : n ≤ s.frame.bndCount) : ∃ evs : List Event,
    (drainBoundaries c n s).events = s.events ++ evs ∧ evs.length = n ∧ ∀ j, j < n →
      let pic := (cutAt c (Memory.read s.frame.bndFifo j) (drainBoundaries c j s).frame).outBuf
      evs[j]? = some (.frameOut pic.y pic.v pic.u (audioSlice c (drainBoundaries c j s).audio)) := by
  induction n with
  | zero => exact ⟨[], (List.append_nil _).symm, rfl, fun _ h => absurd h (Nat.not_lt_zero _)⟩
  | succ n ih =>
    obtain ⟨evs, h1, h2, h3⟩ := ih (by omega)
    have h := drain_fifo c n h8 hb (i := 0) (by omega)
    rw [Nat.add_zero] at h
    let pic := (cutAt c (Memory.read s.frame.bndFifo n) (drainBoundaries c n s).frame).outBuf
    refine ⟨evs ++ [.frameOut pic.y pic.v pic.u (audioSlice c (drainBoundaries c n s).audio)], ?_, by simp [h2], ?_⟩
    · rw [drain_succ, bndStep_events, h, ← List.append_assoc, ← h1]
      rfl
    · intro j hj
      rcases Nat.lt_or_eq_of_le (Nat.le_of_lt_succ hj) with hj | rfl
      · rw [List.getElem?_append_left (by omega)]
        exact h3 j hj
      · rw [List.getElem?_append_right (by omega), h2, Nat.sub_self]
        rfl

/-- An element of ACCUM as a number: the sum wraps, and only the low half of the weight counts (R177). -/
theorem accum_element (x : U32) (b : Byte) (w : U64) :
    x + b.setWidth 32 * w.setWidth 32 = BitVec.ofNat 32 (x.toNat + b.toNat * (w.toNat % 2 ^ 32)) := by
  apply BitVec.eq_of_toNat_eq
  simp [BitVec.toNat_add, BitVec.toNat_mul, Nat.add_mod, Nat.mul_mod]

/-- An element of a plane cut at the boundary `t` (R174, R175, R177). -/
theorem read_cutPlane (t outTime interpTime : U64) {held out : Memory 8} {acc : Memory 32} {p : Nat}
    (ha : p < acc.size) (ho : p < out.size) :
    Memory.read (finalizePlane (t - outTime) held (accumPlane held (t - interpTime) acc) out) p =
      if t = outTime then Memory.read held p
      else finalByte (BitVec.ofNat 32 ((Memory.read acc p).toNat +
        (Memory.read held p).toNat * ((t - interpTime).toNat % 2 ^ 32))) (t - outTime).toNat := by
  have hz : t - outTime = 0 ↔ t = outTime :=
    ⟨fun h => (BitVec.sub_eq_iff_eq_add.mp h).trans (by simp), fun h => by simp [h]⟩
  rw [read_finalizePlane _ _ _ _ ho, read_accumPlane _ _ _ ha, accum_element]
  by_cases h : t = outTime
  · rw [if_pos h, if_pos (hz.mpr h)]
  · rw [if_neg h, if_neg (fun h' => h (hz.mp h'))]

/-! ## FRAME_DONE -/

/-- FRAME_DONE writes the read side of the ring, the Frame Resampler and the events; nothing else (R173). -/
theorem frameDone_frame (c : Cfg R σ) (s : State σ) :
    frameDone c s =
      { s with
        audio := { s.audio with
          ringRd := (frameDone c s).audio.ringRd, ringCount := (frameDone c s).audio.ringCount }
        frame := (frameDone c s).frame
        events := (frameDone c s).events } := by
  unfold frameDone accumToNow
  rw [drain_frame]

/-- The generations and the times FRAME_DONE leaves (R173, R178). -/
theorem frameDone_generations (c : Cfg R σ) (s : State σ) :
    (frameDone c s).frame.frameBuf0 = s.frame.frameBuf1 ∧ (frameDone c s).frame.frame0Time = s.frame.frame1Time ∧
    (frameDone c s).frame.frameBuf1 = planar c s.videoBuf ∧ (frameDone c s).frame.frame1Time = s.cycleCnt ∧
    (frameDone c s).frame.interpTime = s.cycleCnt := by
  unfold frameDone accumToNow
  rw [drain_frame]
  exact ⟨rfl, rfl, rfl, rfl, rfl⟩

/-- FRAME_DONE leaves no boundary pending (R183), and counts the frames it emits (R181). -/
theorem frameDone_counts (c : Cfg R σ) (s : State σ) :
    (frameDone c s).frame.bndCount = 0 ∧
    (frameDone c s).frame.framesOut = s.frame.framesOut + BitVec.ofNat 32 s.frame.bndCount := by
  constructor
  · show (drainBoundaries c s.frame.bndCount _).frame.bndCount = 0
    rw [drain_bndCount]
    exact Nat.sub_self _
  · show (drainBoundaries c s.frame.bndCount _).frame.framesOut = _
    rw [drain_framesOut]
    rfl

/-- The newest pending boundary is the end of the last interval (R174). -/
theorem frameDone_outTime (c : Cfg R σ) {s : State σ} (h8 : s.frame.bndFifo.size = 8) (hb : s.frame.bndCount ≤ 8)
    (hn : 0 < s.frame.bndCount) :
    (frameDone c s).frame.outTime = Memory.read s.frame.bndFifo (s.frame.bndCount - 1) := by
  show (drainBoundaries c s.frame.bndCount _).frame.outTime = _
  obtain ⟨n, hn'⟩ : ∃ n, s.frame.bndCount = n + 1 := ⟨s.frame.bndCount - 1, by omega⟩
  rw [hn']
  exact drain_outTime c n (s := { s with frame := swapGenerations c s.videoBuf s.cycleCnt s.frame }) h8 hb
    (Nat.le_of_eq hn'.symm)

/-- FRAME_DONE emits one whole output frame for each pending boundary (R180, R182, R216). -/
theorem frameDone_events (c : Cfg R σ) (s : State σ) : ∃ evs : List Event,
    (frameDone c s).events = s.events ++ evs ∧ evs.length = s.frame.bndCount ∧
    (s.frame.outBuf.wf c = true → ∀ e ∈ evs, e.isWholeFrame c) :=
  drain_events c s.frame.bndCount { s with frame := swapGenerations c s.videoBuf s.cycleCnt s.frame }

/-- FRAME_DONE takes `APF` samples from the ring for each pending boundary (R203). -/
theorem frameDone_live {c : Cfg R σ} (hc : 0 < c.apf) {s : State σ} (h : s.ringInv c) :
    (frameDone c s).audio.live c = (s.audio.live c).drop (c.apf * s.frame.bndCount) :=
  drain_live hc s.frame.bndCount (s := { s with frame := swapGenerations c s.videoBuf s.cycleCnt s.frame })
    (Nat.le_refl _) h

end Sys2Proof.Machine
end

