-- ==== Sys2Proof/Laws/ConfigOps.lean ====
section
/-! SUPPORT. What the configuration commands can do (40_config_ops.md R82 to R89), one lemma for each effect; and the
sizes of the memories that reset leaves (70_reset_and_hazards.md R231). -/

namespace Sys2Proof.Machine

variable {R σ : Type}

/-- All SCLK can do (R83). -/
theorem setClock_cases (c : Cfg R σ) (hz : U32) (s : State σ) :
    (8 ≤ hz.toNat ∧ setClock c hz s =
      { s with clockFreq := hz, audio := { s.audio with rs := c.resampler.init (hz.toNat / 8) c.sampleRate } }) ∨
    (hz.toNat < 8 ∧ setClock c hz s = s) := by
  unfold setClock
  by_cases h : 8 ≤ hz.toNat
  · exact .inl ⟨h, if_pos h⟩
  · exact .inr ⟨by omega, if_neg h⟩

/-- All SMODE can do (R84). -/
theorem setMode_cases (c : Cfg R σ) (n : Bool) (s : State σ) :
    (n = s.ntsc ∧ setMode c n s = s) ∨
    (n ≠ s.ntsc ∧ setMode c n s = cmBuild c { s with ntsc := n, sync := SyncState.initial c n s.sync.lineBuf }) := by
  unfold setMode
  by_cases h : n = s.ntsc
  · exact .inl ⟨h, if_pos h⟩
  · exact .inr ⟨h, if_neg h⟩

/-- All SCCP can do (R85). -/
theorem stageParam_cases (c : Cfg R σ) (idx : Nat) (val : S32) (s : State σ) :
    (idx ≤ 13 ∧ stageParam c idx val s = { s with ccp := Memory.write s.ccp idx (ccpClamp c idx val) }) ∨
    (14 ≤ idx ∧ stageParam c idx val s = s) := by
  unfold stageParam
  by_cases h : idx ≤ 13
  · exact .inl ⟨h, if_pos h⟩
  · exact .inr ⟨by omega, if_neg h⟩

/-- All SYUV can do (R86). -/
theorem writeIdxYuv_cases (n : Bool) (cmp idx : Nat) (val : S32) (s : State σ) :
    (cmp ≤ 2 ∧ writeIdxYuv n cmp idx val s =
      { s with idxYuv := Memory.write s.idxYuv (idxYuvAt n idx cmp) val }) ∨
    (3 ≤ cmp ∧ writeIdxYuv n cmp idx val s = s) := by
  unfold writeIdxYuv
  by_cases h : cmp ≤ 2
  · exact .inl ⟨h, if_pos h⟩
  · exact .inr ⟨by omega, if_neg h⟩

/-- All CMWR can do (R89). -/
theorem writeColormap_cases (c : Cfg R σ) (addr : Nat) (data : U32) (s : State σ) :
    (addr < 4608 ∧ writeColormap c addr data s =
      { s with colormapData := Memory.write s.colormapData addr (storedPixel c data) }) ∨
    (4608 ≤ addr ∧ writeColormap c addr data s = s) := by
  unfold writeColormap
  by_cases h : addr < 4608
  · exact .inl ⟨h, if_pos h⟩
  · exact .inr ⟨by omega, if_neg h⟩

/-- A 32-bit colormap stores the whole word (R89). -/
theorem storedPixel_cfg0 (data : U32) : storedPixel cfg0 data = data := by
  unfold storedPixel
  apply BitVec.eq_of_toNat_eq
  rw [BitVec.toNat_ofNat, cfg0_pixT]
  have := data.isLt
  omega

/-- The sync state of a mode change and of reset is in its bounds (R84, R231). -/
theorem syncInitial_inv (ntsc : Bool) (buf : Memory 8) :
    (SyncState.initial cfg0 ntsc buf).lineInv (cfg0.mode ntsc) ∧ (SyncState.initial cfg0 ntsc buf).bufferInv cfg0 ∧
    (SyncState.initial cfg0 ntsc buf).rowInv cfg0 := by
  have h : ∀ n, (SyncState.initial cfg0 n #[]).lineInv (cfg0.mode n) ∧ (SyncState.initial cfg0 n #[]).bufferInv cfg0 ∧
      (SyncState.initial cfg0 n #[]).rowInv cfg0 := by decide
  exact h ntsc

/-- After reset every memory has its size (20_memory.md R40, R54; R231). -/
theorem resetOf_memoryWf (c : Cfg R σ) : (State.resetOf c).memoryWf c :=
  ⟨rfl, rfl, Memory.wf_tabulate _ _, Memory.wf_tabulate _ _, Memory.wf_tabulate _ _, Memory.wf_fill _ _,
    Memory.wf_fill _ _, Memory.wf_fill _ _, Memory.wf_fill _ _, planar_wf _ _, planar_wf _ _, Planes.wf_fill _ _,
    Planes.wf_fill _ _⟩

/-- The reset state's memory has its canonical form. -/
theorem reset_memoryWf : State.reset.memoryWf cfg0 := resetOf_memoryWf cfg0

end Sys2Proof.Machine
end

