-- ==== Sys2Proof/Laws/Decode.lean ====
section
/-! SUPPORT. The fields of the command word, bit by bit (30_encoding.md R56). -/

namespace Sys2Proof

/-- The bits of a placed field. -/
theorem getLsbD_placeField {n : Nat} (v : BitVec n) (lsb i : Nat) :
    (placeField v lsb).getLsbD i = (decide (i < 64) && (decide (lsb ≤ i) && v.getLsbD (i - lsb))) := by
  unfold placeField
  by_cases h : i < 64
  · by_cases h2 : lsb ≤ i
    · simp [h, h2, Nat.not_lt.mpr h2]
    · simp [h, h2]
  · simp [h]

/-- The bits of an opcode. -/
theorem getLsbD_opcodeBits (op i : Nat) :
    (opcodeBits op).getLsbD i = (decide (i < 64) && (decide (60 ≤ i) && (BitVec.ofNat 4 op).getLsbD (i - 60))) := by
  unfold opcodeBits
  exact getLsbD_placeField _ _ _

/-- A field of a word is the value whose bits stand there. -/
theorem extract_field {n : Nat} (w : BitVec 64) (lsb : Nat) (v : BitVec n)
    (h : ∀ i, i < n → w.getLsbD (lsb + i) = v.getLsbD i) : w.extractLsb' lsb n = v := by
  apply BitVec.eq_of_getLsbD_eq
  intro i hi
  rw [BitVec.getLsbD_extractLsb', h i hi]
  simp [hi]

/-- A field of a word that ORs pieces: the piece placed there, when the others have no bit there. -/
theorem extract_or (a b : BitVec 64) (lsb n : Nat) :
    (a ||| b).extractLsb' lsb n = a.extractLsb' lsb n ||| b.extractLsb' lsb n := by
  apply BitVec.eq_of_getLsbD_eq
  intro i hi
  simp [hi]

/-- A placed field read back at its own place. -/
theorem extract_place_same {n : Nat} (v : BitVec n) (lsb : Nat) (h : lsb + n ≤ 64) :
    (placeField v lsb).extractLsb' lsb n = v := by
  apply extract_field
  intro i hi
  rw [getLsbD_placeField]
  simp [show lsb + i < 64 by omega]

/-- A placed field has no bits below or above its own. -/
theorem extract_place_other {n : Nat} (v : BitVec n) (lsb pos m : Nat) (h : pos + m ≤ lsb ∨ lsb + n ≤ pos) :
    (placeField v lsb).extractLsb' pos m = 0#m := by
  apply BitVec.eq_of_getLsbD_eq
  intro i hi
  rw [BitVec.getLsbD_extractLsb', getLsbD_placeField]
  rcases h with h | h
  · simp [show ¬ lsb ≤ pos + i by omega]
  · simp [BitVec.getLsbD_of_ge v (pos + i - lsb) (by omega)]

/-- One bit of a word as a field of one bit. -/
theorem getLsbD_eq_extract (w : BitVec 64) (i : Nat) : w.getLsbD i = (w.extractLsb' i 1).getLsbD 0 := by
  simp

end Sys2Proof
end

