-- ==== Sys2Proof/Laws/Demodulator.lean ====
section
/-! SUPPORT. What the demodulator's operations can do (42_demodulator.md): sync recovery, line assembly, line decode,
the end of a line and the whole of SMP. -/

namespace Sys2Proof.Machine

variable {R σ : Type}

/-! ## Sync recovery -/

/-- `dropStale` on a count written as `mc + k*period` with the least such `k` (R134). -/
theorem dropStale_eq {mc k top period : Nat} (hp : 0 < period) (h1 : mc ≤ top) (h2 : k = 0 ∨ top < mc + period) :
    dropStale (mc + k * period) top period = mc := by
  unfold dropStale
  rcases Nat.eq_zero_or_pos k with rfl | hk
  · simp [h1]
  · have h3 : top < mc + period := by omega
    have h4 : period ≤ k * period := Nat.le_mul_of_pos_left _ hk
    rw [if_neg (by omega)]
    have : (mc + k * period - top + period - 1) / period = k := by
      have h5 : k * period = (k - 1) * period + period := by
        rw [← Nat.succ_mul]; congr 1; omega
      rw [Nat.div_eq_iff hp]
      constructor <;> omega
    rw [this]; omega

/-- The count `dropStale` leaves is at most `top`, and differs from the count by a multiple of the period (R134). -/
theorem dropStale_le {count top period : Nat} (hp : 0 < period) : dropStale count top period ≤ top := by
  unfold dropStale
  split
  · assumption
  · have h := Nat.div_add_mod (count - top + period - 1) period
    have h' := Nat.mod_lt (count - top + period - 1) hp
    rw [Nat.mul_comm] at h
    omega

/-- The bounds both stages of the period filter keep (R134). -/
theorem roundedLength_bounds (m : ModeCfg) (h : m.lineLenMin ≤ m.lineLenMax) (filter : Nat) :
    m.lineLenMin ≤ roundedLength m filter ∧ roundedLength m filter ≤ m.lineLenMax := by
  have := clampInt_bounds (x := ((filter + 0x8000) / 65536 : Nat)) (lo := m.lineLenMin) (hi := m.lineLenMax) (by omega)
  unfold roundedLength; omega

/-- An accepted sync-run start: the three filter registers, exactly (R134). -/
theorem updatePeriod_spec {m : ModeCfg} {mc : Nat} {y : SyncState} (h1 : m.lineLenMin ≤ mc) (h2 : mc ≤ m.lineLenMax)
    (h3 : m.lineLenMax < 65536)
    (h4 : m.lineLenMin ≤ y.hsyncPeriodInt.toNat ∧ y.hsyncPeriodInt.toNat ≤ m.lineLenMax)
    (h5 : m.lineLenMin * 65536 ≤ y.lineLengthFilter.toNat ∧ y.lineLengthFilter.toNat ≤ m.lineLenMax * 65536) :
    (updatePeriod m mc y).hsyncPeriodInt.toNat = periodStage1 y.hsyncPeriodInt.toNat mc ∧
    (updatePeriod m mc y).lineLengthFilter.toNat =
      periodStage2 y.lineLengthFilter.toNat (updatePeriod m mc y).hsyncPeriodInt.toNat ∧
    (updatePeriod m mc y).lineLength.toNat = roundedLength m (updatePeriod m mc y).lineLengthFilter.toNat ∧
    (m.lineLenMin ≤ (updatePeriod m mc y).hsyncPeriodInt.toNat ∧
      (updatePeriod m mc y).hsyncPeriodInt.toNat ≤ m.lineLenMax) ∧
    (m.lineLenMin * 65536 ≤ (updatePeriod m mc y).lineLengthFilter.toNat ∧
      (updatePeriod m mc y).lineLengthFilter.toNat ≤ m.lineLenMax * 65536) := by
  have hp : (updatePeriod m mc y).hsyncPeriodInt.toNat = periodStage1 y.hsyncPeriodInt.toNat mc := by
    show (BitVec.ofNat 32 _).toNat = _
    rw [BitVec.toNat_ofNat, Nat.mod_eq_of_lt]; unfold periodStage1; omega
  have hpb : m.lineLenMin ≤ periodStage1 y.hsyncPeriodInt.toNat mc ∧
      periodStage1 y.hsyncPeriodInt.toNat mc ≤ m.lineLenMax := by unfold periodStage1; omega
  have hfb : m.lineLenMin * 65536 ≤
        periodStage2 y.lineLengthFilter.toNat (updatePeriod m mc y).hsyncPeriodInt.toNat ∧
      periodStage2 y.lineLengthFilter.toNat (updatePeriod m mc y).hsyncPeriodInt.toNat ≤ m.lineLenMax * 65536 := by
    rw [hp]; unfold periodStage2; omega
  have hf : (updatePeriod m mc y).lineLengthFilter.toNat =
      periodStage2 y.lineLengthFilter.toNat (updatePeriod m mc y).hsyncPeriodInt.toNat := by
    show (BitVec.ofNat 32 (periodStage2 y.lineLengthFilter.toNat (updatePeriod m mc y).hsyncPeriodInt.toNat)).toNat = _
    rw [BitVec.toNat_ofNat, Nat.mod_eq_of_lt]; omega
  have hl : (updatePeriod m mc y).lineLength.toNat = roundedLength m (updatePeriod m mc y).lineLengthFilter.toNat := by
    show (BitVec.ofNat 32 (roundedLength m (updatePeriod m mc y).lineLengthFilter.toNat)).toNat = _
    have := roundedLength_bounds m (by omega) (updatePeriod m mc y).lineLengthFilter.toNat
    rw [BitVec.toNat_ofNat, Nat.mod_eq_of_lt]; omega
  exact ⟨hp, hf, hl, hp ▸ hpb, hf ▸ hfb⟩

/-- All HSYNC_REACQ can do (R134): accept, lock the phase only, or nothing. -/
theorem hsyncReacq_cases (m : ModeCfg) (y : SyncState) :
    (m.lineLenMin ≤ dropStale y.hsyncCnt.toNat m.lineLenMax y.lineLength.toNat ∧ hsyncReacq m y =
      takeReference m (updatePeriod m (dropStale y.hsyncCnt.toNat m.lineLenMax y.lineLength.toNat) y)) ∨
    (dropStale y.hsyncCnt.toNat m.lineLenMax y.lineLength.toNat < m.lineLenMin ∧ m.lineLenMax < y.hsyncCnt.toNat ∧
      hsyncReacq m y = takeReference m y) ∨
    (dropStale y.hsyncCnt.toNat m.lineLenMax y.lineLength.toNat < m.lineLenMin ∧ y.hsyncCnt.toNat ≤ m.lineLenMax ∧
      hsyncReacq m y = y) := by
  unfold hsyncReacq
  by_cases h1 : m.lineLenMin ≤ dropStale y.hsyncCnt.toNat m.lineLenMax y.lineLength.toNat
  · exact .inl ⟨h1, by simp only [h1, if_true]⟩
  · by_cases h2 : m.lineLenMax < y.hsyncCnt.toNat
    · exact .inr (.inl ⟨by omega, h2, by simp only [h1, h2, if_true, if_false]⟩)
    · exact .inr (.inr ⟨by omega, by omega, by simp only [h1, h2, if_false]⟩)

/-- HSYNC_REACQ writes the period registers, the reference count and the line phase, nothing else (R134). -/
theorem hsyncReacq_frame (m : ModeCfg) (y : SyncState) :
    hsyncReacq m y =
      { y with
        hsyncCnt := (hsyncReacq m y).hsyncCnt, hsyncPeriodInt := (hsyncReacq m y).hsyncPeriodInt
        lineLengthFilter := (hsyncReacq m y).lineLengthFilter, lineLength := (hsyncReacq m y).lineLength
        lineCnt := (hsyncReacq m y).lineCnt } := by
  rcases hsyncReacq_cases m y with ⟨-, h⟩ | ⟨-, -, h⟩ | ⟨-, -, h⟩ <;> rw [h] <;> rfl

/-- HSYNC_REACQ keeps the line registers in their bounds (R25, R26, R134). -/
theorem hsyncReacq_lineInv {m : ModeCfg} {y : SyncState} (h : y.lineInv m)
    (hx : m.lineLenMax < 65536) (hp : m.hsyncPos < m.lineLenMin) : (hsyncReacq m y).lineInv m := by
  obtain ⟨h1, h2, h3, h4⟩ := h
  have hpos : (BitVec.ofNat 32 m.hsyncPos).toNat = m.hsyncPos := by
    rw [BitVec.toNat_ofNat, Nat.mod_eq_of_lt]; omega
  rcases hsyncReacq_cases m y with ⟨ha, e⟩ | ⟨-, -, e⟩ | ⟨-, -, e⟩ <;> rw [e]
  · have hle : dropStale y.hsyncCnt.toNat m.lineLenMax y.lineLength.toNat ≤ m.lineLenMax := dropStale_le (by omega)
    obtain ⟨-, -, hl, hpb, hfb⟩ := updatePeriod_spec ha hle hx h2 h3
    have hlb := roundedLength_bounds m (by omega)
      (updatePeriod m (dropStale y.hsyncCnt.toNat m.lineLenMax y.lineLength.toNat) y).lineLengthFilter.toNat
    rw [← hl] at hlb
    refine ⟨hlb, hpb, hfb, ?_⟩
    show (BitVec.ofNat 32 m.hsyncPos).toNat < _
    rw [hpos]; exact Nat.lt_of_lt_of_le hp hlb.1
  · refine ⟨h1, h2, h3, ?_⟩
    show (BitVec.ofNat 32 m.hsyncPos).toNat < y.lineLength.toNat
    omega
  · exact ⟨h1, h2, h3, h4⟩

theorem countSync_toNat (n : U32) : (countSync n).toNat = min (n.toNat + 1) (2 ^ 32 - 1) := by
  unfold countSync
  split
  · next h => subst h; decide
  · next h =>
    have h1 : n.toNat ≠ 2 ^ 32 - 1 := fun h2 => h (by apply BitVec.eq_of_toNat_eq; rw [h2]; decide)
    have := n.isLt
    rw [BitVec.toNat_add]
    have : (1 : U32).toNat = 1 := rfl
    omega

/-- FIELD_START writes the parity and the vertical counter (R136). -/
theorem fieldStart_frame (m : ModeCfg) (y : SyncState) :
    fieldStart m y = { y with fieldParity := (fieldStart m y).fieldParity, vsyncCnt := (fieldStart m y).vsyncCnt } := rfl

/-- The start of a sync run (R133): reacquire, and count the first cycle; no vertical sync, as a run of one cycle is
shorter than `VSYNC_RUN`. -/
theorem syncLevel_start {c : Cfg R σ} (hc : 1 < c.vsyncRun) (m : ModeCfg) {y : SyncState} (h : y.syncLengthCnt = 0) :
    syncLevel c m y = { hsyncReacq m y with syncLengthCnt := 1 } := by
  unfold syncLevel
  have hr : (hsyncReacq m y).syncLengthCnt = 0 := by rw [hsyncReacq_frame]; exact h
  have h1 : countSync 0 = 1 := by decide
  simp only [h, if_true]
  rw [hr, h1, if_neg]
  rintro ⟨h2, -⟩
  have : (1 : U32).toNat = 1 := rfl
  omega

/-- A later cycle of a sync run (R133, R136). -/
theorem syncLevel_run {c : Cfg R σ} (m : ModeCfg) {y : SyncState} (h : y.syncLengthCnt ≠ 0) :
    syncLevel c m y =
      if c.vsyncRun ≤ (countSync y.syncLengthCnt).toNat ∧ m.vsyncThr2 ≤ y.vsyncCnt.toInt then
        fieldStart m { y with syncLengthCnt := countSync y.syncLengthCnt }
      else { y with syncLengthCnt := countSync y.syncLengthCnt } := by
  unfold syncLevel
  simp only [h, if_false]

/-- Step 2 of SMP writes no line buffer register, no line flag and no line number (R130). -/
theorem smpSync_frame (c : Cfg R σ) (m : ModeCfg) (f : Byte) (y : SyncState) :
    smpSync c m f y =
      { y with
        syncLengthCnt := (smpSync c m f y).syncLengthCnt, hsyncCnt := (smpSync c m f y).hsyncCnt
        hsyncPeriodInt := (smpSync c m f y).hsyncPeriodInt, lineLengthFilter := (smpSync c m f y).lineLengthFilter
        lineLength := (smpSync c m f y).lineLength, lineCnt := (smpSync c m f y).lineCnt
        vsyncCnt := (smpSync c m f y).vsyncCnt, fieldParity := (smpSync c m f y).fieldParity } := by
  have h : ∀ z : SyncState, z = { z with lineBuf := z.lineBuf } := fun _ => rfl
  unfold smpSync syncLevel
  dsimp only
  by_cases h0 : y.syncLengthCnt = 0
  · simp only [h0, if_true]
    rw [hsyncReacq_frame]
    split <;> [split; skip] <;> rfl
  · simp only [h0, if_false]
    split <;> [split; skip] <;> rfl

/-- Step 2 of SMP keeps the line registers in their bounds. -/
theorem smpSync_lineInv (c : Cfg R σ) {m : ModeCfg} (f : Byte) {y : SyncState} (h : y.lineInv m)
    (hx : m.lineLenMax < 65536) (hp : m.hsyncPos < m.lineLenMin) : (smpSync c m f y).lineInv m := by
  have h' := hsyncReacq_lineInv h hx hp
  unfold smpSync syncLevel
  dsimp only
  by_cases h0 : y.syncLengthCnt = 0
  · simp only [h0, if_true]
    split <;> [split; skip] <;> first | exact h' | exact h
  · simp only [h0, if_false]
    split <;> [split; skip] <;> exact h

/-! ## Line assembly -/

theorem groupBytes_length (f c0 c1 : Byte) : (groupBytes f c0 c1).length = 1 + colourBytes f := by
  unfold groupBytes colourBytes; split <;> rfl

theorem colourBytes_bounds (f : Byte) : 1 ≤ colourBytes f ∧ colourBytes f ≤ 2 := by
  unfold colourBytes; split <;> omega

/-- Appending a group writes the line buffer and its two counters (R143). -/
theorem appendGroup_frame (f c0 c1 : Byte) (y : SyncState) :
    appendGroup f c0 c1 y =
      { y with
        lineBuf := (appendGroup f c0 c1 y).lineBuf, lineBufBytes := (appendGroup f c0 c1 y).lineBufBytes
        lineBufGroups := (appendGroup f c0 c1 y).lineBufGroups } := rfl

theorem appendGroup_size (f c0 c1 : Byte) (y : SyncState) :
    (appendGroup f c0 c1 y).lineBuf.size = y.lineBuf.size := by simp [appendGroup]

/-- Outside the bytes of the appended group the line buffer is unchanged (R143). -/
theorem appendGroup_outside (f c0 c1 : Byte) (y : SyncState) {k : Nat}
    (h : k < y.lineBufBytes.toNat ∨ y.lineBufBytes.toNat + 1 + colourBytes f ≤ k) :
    Memory.read (appendGroup f c0 c1 y).lineBuf k = Memory.read y.lineBuf k := by
  apply Memory.read_writeRange_outside
  rw [groupBytes_length]; omega

/-- The appended group can be read back whole (R62, R143). -/
theorem appendGroup_holds (f c0 c1 : Byte) (y : SyncState)
    (h : y.lineBufBytes.toNat + 1 + colourBytes f ≤ y.lineBuf.size) :
    holdsGroups (appendGroup f c0 c1 y).lineBuf y.lineBufBytes.toNat [(f, c0, c1)] := by
  have key : ∀ x, x < (groupBytes f c0 c1).length →
      Memory.read (appendGroup f c0 c1 y).lineBuf (y.lineBufBytes.toNat + x) = (groupBytes f c0 c1).getD x 0 := by
    intro x hx
    exact Memory.read_writeRange_inside y.lineBuf _ hx (by rw [groupBytes_length]; omega)
  have hl := groupBytes_length f c0 c1
  have hb := colourBytes_bounds f
  refine ⟨?_, ?_, ?_, trivial⟩
  · have := key 0 (by omega)
    rw [Nat.add_zero] at this; rw [this]; unfold groupBytes; split <;> rfl
  · rw [key 1 (by omega)]; unfold groupBytes; split <;> rfl
  · intro hf
    have h2 : colourBytes f = 2 := by simp [colourBytes, hf]
    rw [key 2 (by omega)]; simp [groupBytes, hf]

/-- The counters after an append that stays in the capacity (R143). -/
theorem appendGroup_counts (f c0 c1 : Byte) (y : SyncState) (hb : y.lineBufBytes.toNat + 3 < 65536)
    (hg : y.lineBufGroups.toNat + 1 < 65536) :
    (appendGroup f c0 c1 y).lineBufBytes.toNat = y.lineBufBytes.toNat + 1 + colourBytes f ∧
    (appendGroup f c0 c1 y).lineBufGroups.toNat = y.lineBufGroups.toNat + 1 := by
  have hc := colourBytes_bounds f
  constructor
  · show (y.lineBufBytes + BitVec.ofNat 16 _).toNat = _
    rw [groupBytes_length, BitVec.toNat_add, BitVec.toNat_ofNat]; omega
  · show (y.lineBufGroups + 1).toNat = _
    rw [BitVec.toNat_add]
    have : (1 : U16).toNat = 1 := rfl
    omega

/-- All step 4 of SMP can do (R142, R143): append the group and note its odd-phase bit, or nothing. -/
theorem smpAppend_cases (c : Cfg R σ) (m : ModeCfg) (f c0 c1 : Byte) (y : SyncState) :
    ((m.lineStart ≤ y.lineCnt.toNat ∧ y.lineBufGroups.toNat < c.lineBufGroups) ∧ smpAppend c m f c0 c1 y =
      { appendGroup f c0 c1 y with
        lineFlags := if flagPhase f then setOddFlag y.lineFlags else y.lineFlags }) ∨
    (¬(m.lineStart ≤ y.lineCnt.toNat ∧ y.lineBufGroups.toNat < c.lineBufGroups) ∧ smpAppend c m f c0 c1 y = y) := by
  unfold smpAppend
  by_cases h : m.lineStart ≤ y.lineCnt.toNat ∧ y.lineBufGroups.toNat < c.lineBufGroups
  · refine .inl ⟨h, ?_⟩
    rw [if_pos h]
    cases flagPhase f <;> rfl
  · exact .inr ⟨h, if_neg h⟩

theorem smpAppend_frame (c : Cfg R σ) (m : ModeCfg) (f c0 c1 : Byte) (y : SyncState) :
    smpAppend c m f c0 c1 y =
      { y with
        lineBuf := (smpAppend c m f c0 c1 y).lineBuf, lineBufBytes := (smpAppend c m f c0 c1 y).lineBufBytes
        lineBufGroups := (smpAppend c m f c0 c1 y).lineBufGroups
        lineFlags := (smpAppend c m f c0 c1 y).lineFlags } := by
  rcases smpAppend_cases c m f c0 c1 y with ⟨-, h⟩ | ⟨-, h⟩
  · rw [h]; rfl
  · rw [h]

theorem smpAppend_size (c : Cfg R σ) (m : ModeCfg) (f c0 c1 : Byte) (y : SyncState) :
    (smpAppend c m f c0 c1 y).lineBuf.size = y.lineBuf.size := by
  rcases smpAppend_cases c m f c0 c1 y with ⟨-, h⟩ | ⟨-, h⟩
  · rw [h]; exact appendGroup_size f c0 c1 y
  · rw [h]

/-- Outside the bytes of the group of this cycle, steps 2 to 4 leave the line buffer alone. -/
theorem smpAppend_outside (c : Cfg R σ) (m : ModeCfg) (f c0 c1 : Byte) (y : SyncState) {k : Nat}
    (h : k < y.lineBufBytes.toNat ∨ y.lineBufBytes.toNat + 1 + colourBytes f ≤ k) :
    Memory.read (smpAppend c m f c0 c1 y).lineBuf k = Memory.read y.lineBuf k := by
  rcases smpAppend_cases c m f c0 c1 y with ⟨-, e⟩ | ⟨-, e⟩
  · rw [e]; exact appendGroup_outside f c0 c1 y h
  · rw [e]

theorem smpAppend_bufferInv {c : Cfg R σ} (hc : c.lineBufGroups < 16384) (m : ModeCfg) (f c0 c1 : Byte) {y : SyncState}
    (h : y.bufferInv c) : (smpAppend c m f c0 c1 y).bufferInv c := by
  obtain ⟨h1, h2, h3⟩ := h
  rcases smpAppend_cases c m f c0 c1 y with ⟨hw, e⟩ | ⟨-, e⟩ <;> rw [e]
  · obtain ⟨hb, hg⟩ := appendGroup_counts f c0 c1 y (by omega) (by omega)
    have := colourBytes_bounds f
    refine ⟨?_, ?_, ?_⟩
    · show (appendGroup f c0 c1 y).lineBufGroups.toNat ≤ _; omega
    · show _ ≤ (appendGroup f c0 c1 y).lineBufBytes.toNat
      change 2 * (appendGroup f c0 c1 y).lineBufGroups.toNat ≤ _; omega
    · show (appendGroup f c0 c1 y).lineBufBytes.toNat ≤ 3 * (appendGroup f c0 c1 y).lineBufGroups.toNat; omega
  · exact ⟨h1, h2, h3⟩

/-- Step 3 of SMP writes the burst flag only (R141). -/
theorem smpBurst_frame (c : Cfg R σ) (f : Byte) (y : SyncState) :
    smpBurst c f y =
      { y with lineFlags := if isBurstSample c f then setBurstFlag y.lineFlags else y.lineFlags } := by
  unfold smpBurst; split <;> rfl

/-- Steps 2 to 4 of SMP keep the line number and the bounds of the line and buffer registers. -/
theorem smpLine_keeps {c : Cfg R σ} (hc : c.lineBufGroups < 16384) {m : ModeCfg}
    (hx : m.lineLenMax < 65536) (hp : m.hsyncPos < m.lineLenMin) (f c0 c1 : Byte) {y : SyncState} :
    (smpLine c m f c0 c1 y).curLine = y.curLine ∧
    (smpLine c m f c0 c1 y).lineBuf.size = y.lineBuf.size ∧
    (y.lineInv m → (smpLine c m f c0 c1 y).lineInv m) ∧ (y.bufferInv c → (smpLine c m f c0 c1 y).bufferInv c) := by
  unfold smpLine
  refine ⟨?_, ?_, ?_, ?_⟩
  · rw [smpAppend_frame, smpBurst_frame, smpSync_frame]
  · rw [smpAppend_size, smpBurst_frame, smpSync_frame]
  · intro h
    have h' := smpSync_lineInv c f h hx hp
    rw [smpAppend_frame, smpBurst_frame]
    exact h'
  · intro h
    apply smpAppend_bufferInv hc
    rw [smpBurst_frame, smpSync_frame]
    exact h

/-! ## Line decode -/

theorem dec4_length (c : Cfg R σ) (s : State σ) (k : Nat) (nc : Bool) : (dec4 c s k nc).1.length = 4 := rfl

theorem decodeGroups_length (c : Cfg R σ) (s : State σ) (nc : Bool) (n k : Nat) :
    (decodeGroups c s nc n k).length = 4 * n := by
  induction n generalizing k with
  | zero => rfl
  | succ n ih => rw [decodeGroups, List.length_append, ih, dec4_length]; omega

/-- The pixels of a group that the line buffer holds (R118). -/
theorem dec4_holds {c : Cfg R σ} {s : State σ} {k : Nat} {nc : Bool} {f c0 c1 : Byte} {rest : List (Byte × Byte × Byte)}
    (h : holdsGroups s.sync.lineBuf k ((f, c0, c1) :: rest)) :
    dec4 c s k nc =
      ([cmPix c s f c0 nc, cmPix c s f c0 nc, cmPix c s f (if flagHalfWidth f then c1 else c0) nc,
        cmPix c s f (if flagHalfWidth f then c1 else c0) nc], 1 + colourBytes f) := by
  obtain ⟨h1, h2, h3, -⟩ := h
  unfold dec4 colourBytes
  rw [h1, h2]
  cases hf : flagHalfWidth f
  · simp [hf]
  · simp [hf, h3 hf]

/-- The source pixels of a line of groups: pixel `x` belongs to group `x / 4` (R118, R151). -/
theorem decodeGroups_getElem {c : Cfg R σ} {s : State σ} {nc : Bool} {gs : List (Byte × Byte × Byte)} {k x : Nat}
    {f c0 c1 : Byte} (h : holdsGroups s.sync.lineBuf k gs) (hx : gs[x / 4]? = some (f, c0, c1)) :
    (decodeGroups c s nc gs.length k)[x]? =
      some (cmPix c s f (if x % 4 < 2 ∨ flagHalfWidth f = false then c0 else c1) nc) := by
  induction gs generalizing k x with
  | nil => simp at hx
  | cons g rest ih =>
    obtain ⟨g0, g1, g2⟩ := g
    rw [List.length_cons, decodeGroups, dec4_holds h]
    by_cases h4 : x < 4
    · have : x / 4 = 0 := by omega
      rw [this] at hx
      simp only [List.getElem?_cons_zero, Option.some.injEq, Prod.mk.injEq] at hx
      obtain ⟨rfl, rfl, rfl⟩ := hx
      rw [List.getElem?_append_left (by simpa using h4)]
      obtain rfl | rfl | rfl | rfl : x = 0 ∨ x = 1 ∨ x = 2 ∨ x = 3 := by omega
      · simp
      · simp
      · cases flagHalfWidth g0 <;> simp
      · cases flagHalfWidth g0 <;> simp
    · rw [List.getElem?_append_right (by simp; omega)]
      have hd : x / 4 = (x - 4) / 4 + 1 := by omega
      rw [hd, List.getElem?_cons_succ] at hx
      have h' : holdsGroups s.sync.lineBuf (k + (1 + colourBytes g0)) rest := by
        rw [← Nat.add_assoc]; exact h.2.2.2
      have := ih h' hx
      rw [show (x - 4) % 4 = x % 4 by omega] at this
      simpa using this

/-- DECODE_LINE writes `videoBuf` only (R150). -/
theorem decodeLine_frame (c : Cfg R σ) (s : State σ) : decodeLine c s = { s with videoBuf := (decodeLine c s).videoBuf } := by
  unfold decodeLine; dsimp only; split <;> rfl

/-- A line that is not decoded (R150). -/
theorem decodeLine_skip {c : Cfg R σ} {s : State σ}
    (h : s.sync.curLine.toInt < 0 ∨ 2 * (c.videoHeight : Int) ≤ s.sync.curLine.toInt ∨ s.sync.lineBufGroups.toNat = 0) :
    decodeLine c s = s := by
  unfold decodeLine; dsimp only; rw [if_pos (by omega)]

/-- A decoded line (R150). -/
theorem decodeLine_write {c : Cfg R σ} {s : State σ}
    (h : ¬(s.sync.curLine.toInt < 0 ∨ 2 * (c.videoHeight : Int) ≤ s.sync.curLine.toInt ∨
      s.sync.lineBufGroups.toNat = 0)) :
    (decodeLine c s).videoBuf = Memory.writeRange s.videoBuf ((s.sync.curLine.toInt / 2).toNat * c.videoWidth)
      c.videoWidth (rowPixel c (oddFlag s.sync.lineFlags)
        (decodeGroups c s (!burstFlag s.sync.lineFlags) s.sync.lineBufGroups.toNat 0).toArray
        (4 * s.sync.lineBufGroups.toNat)) := by
  unfold decodeLine; dsimp only; rw [if_neg (by omega)]

theorem decodeLine_size (c : Cfg R σ) (s : State σ) : (decodeLine c s).videoBuf.size = s.videoBuf.size := by
  unfold decodeLine; dsimp only; split <;> simp

/-- Outside the row of the current output line DECODE_LINE writes nothing (R150, R54). -/
theorem decodeLine_outside (c : Cfg R σ) (s : State σ) {k : Nat}
    (h : k < (s.sync.curLine.toInt / 2).toNat * c.videoWidth ∨
      (s.sync.curLine.toInt / 2).toNat * c.videoWidth + c.videoWidth ≤ k) :
    Memory.read (decodeLine c s).videoBuf k = Memory.read s.videoBuf k := by
  unfold decodeLine; dsimp only; split
  · rfl
  · exact Memory.read_writeRange_outside _ _ h

/-! ## The end of a line -/

/-- All LINE_DONE can do (R146): decode and advance the counters; and when that brings the vertical counter to 0, start
at the top of the field and complete the frame. -/
theorem lineDone_cases (c : Cfg R σ) (s : State σ) :
    ((lineAdvance c s.sync).vsyncCnt ≠ 0 ∧ lineDone c s =
      { s with videoBuf := (decodeLine c s).videoBuf, sync := lineAdvance c s.sync }) ∨
    ((lineAdvance c s.sync).vsyncCnt = 0 ∧ lineDone c s =
      frameDone c { s with
        videoBuf := (decodeLine c s).videoBuf, sync := topOfField (lineAdvance c s.sync) }) := by
  unfold lineDone
  dsimp only
  rw [decodeLine_frame]
  by_cases h : (lineAdvance c s.sync).vsyncCnt = 0
  · exact .inr ⟨h, if_pos h⟩
  · exact .inl ⟨h, if_neg h⟩

/-- The vertical counter counts every line, up to its greatest value (R146, R148). -/
theorem lineAdvance_vsyncCnt_toInt (c : Cfg R σ) (y : SyncState) :
    (lineAdvance c y).vsyncCnt.toInt = min (y.vsyncCnt.toInt + 1) (2 ^ 31 - 1) := by
  show (if y.vsyncCnt.toInt < 2 ^ 31 - 1 then y.vsyncCnt + 1 else y.vsyncCnt).toInt = _
  have h1 := BitVec.toInt_lt (x := y.vsyncCnt)
  have h2 := BitVec.le_toInt (x := y.vsyncCnt)
  split
  · rw [BitVec.toInt_add, Int.bmod_eq_of_le] <;> (have : (1 : S32).toInt = 1 := rfl) <;> omega
  · omega

/-- The output line moves on by two until it is past the picture (R146, R148). -/
theorem lineAdvance_curLine_toInt (c : Cfg R σ) (hc : c.videoHeight < 2 ^ 29) (y : SyncState) :
    (lineAdvance c y).curLine.toInt =
      if y.curLine.toInt < 2 * (c.videoHeight : Int) then y.curLine.toInt + 2 else y.curLine.toInt := by
  show (if y.curLine.toInt < 2 * (c.videoHeight : Int) then y.curLine + 2 else y.curLine).toInt = _
  have h2 := BitVec.le_toInt (x := y.curLine)
  split
  · rw [BitVec.toInt_add, Int.bmod_eq_of_le] <;> (have : (2 : S32).toInt = 2 := rfl) <;> omega
  · rfl

/-- All step 5 of SMP can do (R130, R139). -/
theorem smpAdvance_cases (c : Cfg R σ) (s : State σ) :
    ((s.sync.lineCnt + 1).toNat < s.sync.lineLength.toNat ∧ smpAdvance c s =
      { s with sync := { s.sync with lineCnt := s.sync.lineCnt + 1 } }) ∨
    (s.sync.lineLength.toNat ≤ (s.sync.lineCnt + 1).toNat ∧ smpAdvance c s =
      lineDone c { s with sync := { s.sync with lineCnt := s.sync.lineCnt + 1 } }) := by
  unfold smpAdvance
  by_cases h : s.sync.lineLength.toNat ≤ (s.sync.lineCnt + 1).toNat
  · exact .inr ⟨h, if_pos h⟩
  · exact .inl ⟨by omega, if_neg h⟩

end Sys2Proof.Machine
end

