-- ==== Sys2Proof/Laws/Invariants.lean ====
section
/-! SUPPORT. What each operation keeps of a good state (Safety.lean): one lemma per operation and clause. -/

namespace Sys2Proof.Machine

variable {R σ : Type}

/-! ## The audio step -/

theorem smpAudio_ringInv {c : Cfg R σ} (hc : 0 < c.apf) (a : S16) {s : State σ} (h : s.ringInv c) :
    (smpAudio c a s).ringInv c := by
  by_cases h7 : s.audio.audioCnt = 7
  · rw [smpAudio_folds a h7]
    exact audioBurst_ringInv hc _ h
  · rw [smpAudio_accumulates a h7]
    exact h

theorem smpAudio_sizes (c : Cfg R σ) (a : S16) (s : State σ) :
    (smpAudio c a s).audio.ring.size = s.audio.ring.size ∧
    (smpAudio c a s).frame.bndFifo.size = s.frame.bndFifo.size := by
  by_cases h7 : s.audio.audioCnt = 7
  · rw [smpAudio_folds a h7]
    exact audioBurst_sizes c _ _
  · rw [smpAudio_accumulates a h7]
    exact ⟨rfl, rfl⟩

/-- The count of step 1, on the seven cycles that do not fold (R131). -/
theorem audioCnt_succ {n : BitVec 3} (h : n ≠ 7) : (n + 1).toNat = n.toNat + 1 := by
  revert n; decide

theorem toInt_signExtend_s16 (a : S16) : (a.signExtend 32).toInt = a.toInt := by
  rw [BitVec.toInt_signExtend, show min 32 16 = 16 from rfl]
  have h1 := BitVec.toInt_lt (x := a)
  have h2 := BitVec.le_toInt (x := a)
  exact Int.bmod_eq_of_le (by omega) (by omega)

/-- The sum of step 1 does not wrap (R131). -/
theorem audioSum_add {sum : S32} {n : Nat} (hn : n ≤ 7)
    (h : -32768 * (n : Int) ≤ sum.toInt ∧ sum.toInt ≤ 32767 * (n : Int)) (a : S16) :
    (sum + a.signExtend 32).toInt = sum.toInt + a.toInt := by
  have h1 := BitVec.toInt_lt (x := a)
  have h2 := BitVec.le_toInt (x := a)
  rw [BitVec.toInt_add, toInt_signExtend_s16]
  exact Int.bmod_eq_of_le (by omega) (by omega)

/-- Step 1 of SMP steps the converter on the eighth cycle only (R131, R193). -/
theorem smpAudio_rs (c : Cfg R σ) (a : S16) (s : State σ) :
    (smpAudio c a s).audio.rs =
      if s.audio.audioCnt = 7 then
        (c.resampler.step s.audio.rs (foldedSample c (s.audio.audioSum + a.signExtend 32))).1
      else s.audio.rs := by
  by_cases h7 : s.audio.audioCnt = 7
  · rw [smpAudio_folds a h7, audioIn, if_pos h7]
    dsimp only
    rw [audioBurst_frame]
  · rw [smpAudio_accumulates a h7, if_neg h7]

theorem smpAudio_sum (c : Cfg R σ) (a : S16) (s : State σ) :
    (smpAudio c a s).audio.audioCnt = s.audio.audioCnt + 1 ∧
    (smpAudio c a s).audio.audioSum =
      if s.audio.audioCnt = 7 then 0 else s.audio.audioSum + a.signExtend 32 := by
  by_cases h7 : s.audio.audioCnt = 7
  · rw [smpAudio_folds a h7, audioIn, if_pos h7]
    dsimp only
    rw [audioBurst_frame]
    refine ⟨?_, rfl⟩
    show (0 : BitVec 3) = _
    rw [h7]; decide
  · rw [smpAudio_accumulates a h7, if_neg h7]
    exact ⟨rfl, rfl⟩

theorem smpAudio_converterInv (a : S16) {s : State} (h : s.converterInv cfg0) :
    (smpAudio cfg0 a s).converterInv cfg0 := by
  obtain ⟨h1, h2, h3, h4, h5, h6⟩ := h
  have hin : 0 < s.audio.rs.inRate.toNat := by omega
  have hrs : (smpAudio cfg0 a s).audio.rs.inRate = s.audio.rs.inRate ∧
      (smpAudio cfg0 a s).audio.rs.outRate = s.audio.rs.outRate ∧
      (smpAudio cfg0 a s).audio.rs.phase.toNat < s.audio.rs.inRate.toNat := by
    rw [smpAudio_rs]
    split
    · exact ⟨rfl, rfl, (refResamplerStep_state _ _ hin).2.2.2⟩
    · exact ⟨rfl, rfl, h4⟩
  have hclk : (smpAudio cfg0 a s).clockFreq = s.clockFreq := by rw [smpAudio_frame]
  obtain ⟨hcnt, hsum⟩ := smpAudio_sum cfg0 a s
  have hlt := s.audio.audioCnt.isLt
  have ha1 := BitVec.toInt_lt (x := a)
  have ha2 := BitVec.le_toInt (x := a)
  refine ⟨hclk ▸ h1, ?_, ?_, ?_, ?_, ?_⟩
  · rw [hrs.1, hclk]; exact h2
  · rw [hrs.2.1]; exact h3
  · rw [hrs.1]; exact hrs.2.2
  · rw [hcnt, hsum]
    split
    · next h7 => rw [h7]; decide
    · next h7 => rw [audioCnt_succ h7, audioSum_add (by omega) ⟨h5, h6⟩]; omega
  · rw [hcnt, hsum]
    split
    · next h7 => rw [h7]; decide
    · next h7 => rw [audioCnt_succ h7, audioSum_add (by omega) ⟨h5, h6⟩]; omega

/-! ## The frame -/

theorem frameDone_ringInv {c : Cfg R σ} (hc : 0 < c.apf) {s : State σ} (h : s.ringInv c) : (frameDone c s).ringInv c :=
  drain_ringInv hc s.frame.bndCount (Nat.le_refl _) h

/-- The sizes of the Frame Resampler's memories. -/
abbrev FrameState.sizesWf (c : Cfg R σ) (f : FrameState) : Prop :=
  Memory.wf 8 f.bndFifo = true ∧ f.frameBuf0.wf c = true ∧ f.frameBuf1.wf c = true ∧
  f.interpBuf.wf c = true ∧ f.outBuf.wf c = true

theorem accum_sizes {c : Cfg R σ} (w : U64) {f : FrameState} (h : f.sizesWf c) : (accum w f).sizesWf c := by
  obtain ⟨h1, h2, h3, h4, h5⟩ := h
  refine ⟨h1, h2, h3, ?_, h5⟩
  rw [Planes.wf_iff] at h4 ⊢
  simpa [accum] using h4

theorem popBoundary_sizes {c : Cfg R σ} {f : FrameState} (h : f.sizesWf c) : (popBoundary f).sizesWf c := by
  obtain ⟨h1, h2, h3, h4, h5⟩ := h
  exact ⟨by simpa [Memory.wf_iff, popBoundary] using h1, h2, h3, h4, h5⟩

theorem bndStep_sizes {c : Cfg R σ} (t : U64) {s : State σ} (h : s.frame.sizesWf c) :
    (bndStep c t s).frame.sizesWf c := by
  obtain ⟨h1, h2, h3, h4, h5⟩ := h
  have := cutAt_wf (c := c) t h5
  exact ⟨h1, h2, h3, this.2, this.1⟩

theorem drain_sizes {c : Cfg R σ} (n : Nat) {s : State σ} (h : s.frame.sizesWf c) :
    (drainBoundaries c n s).frame.sizesWf c := by
  induction n generalizing s with
  | zero => exact h
  | succ n ih =>
    rw [drainBoundaries]
    exact ih (bndStep_sizes _ (s := { s with frame := popBoundary s.frame }) (popBoundary_sizes h))

theorem frameDone_sizes {c : Cfg R σ} {s : State σ} (h : s.frame.sizesWf c) : (frameDone c s).frame.sizesWf c := by
  obtain ⟨h1, h2, h3, h4, h5⟩ := h
  exact accum_sizes (f := (drainBoundaries c s.frame.bndCount _).frame) _
    (drain_sizes _ ⟨h1, h3, planar_wf c _, h4, h5⟩)

/-! ## The end of a line -/

theorem lineAdvance_lineInv {c : Cfg R σ} {m : ModeCfg} (hm : 0 < m.lineLenMin) {y : SyncState}
    (h1 : m.lineLenMin ≤ y.lineLength.toNat ∧ y.lineLength.toNat ≤ m.lineLenMax)
    (h2 : m.lineLenMin ≤ y.hsyncPeriodInt.toNat ∧ y.hsyncPeriodInt.toNat ≤ m.lineLenMax)
    (h3 : m.lineLenMin * 65536 ≤ y.lineLengthFilter.toNat ∧ y.lineLengthFilter.toNat ≤ m.lineLenMax * 65536) :
    (lineAdvance c y).lineInv m :=
  ⟨h1, h2, h3, by show 0 < y.lineLength.toNat; omega⟩

theorem lineAdvance_bufferInv (c : Cfg R σ) (y : SyncState) : (lineAdvance c y).bufferInv c :=
  ⟨Nat.zero_le _, Nat.le_refl _, Nat.le_refl _⟩

theorem lineAdvance_rowInv {c : Cfg R σ} (hc : c.videoHeight < 2 ^ 29) {y : SyncState} (h : y.rowInv c) :
    (lineAdvance c y).rowInv c := by
  obtain ⟨h1, h2⟩ := h
  rw [SyncState.rowInv, lineAdvance_curLine_toInt c hc]
  split <;> omega

theorem topOfField_rowInv {c : Cfg R σ} (y : SyncState) : (topOfField y).rowInv c := by
  have : (topOfField y).curLine.toInt = 0 ∨ (topOfField y).curLine.toInt = 1 := by
    show (BitVec.ofNat 32 (bit y.fieldParity)).toInt = 0 ∨ (BitVec.ofNat 32 (bit y.fieldParity)).toInt = 1
    cases y.fieldParity <;> decide
  rw [SyncState.rowInv]; omega

end Sys2Proof.Machine
end

