-- ==== Sys2Proof/Laws/Smp.lean ====
section
/-! SUPPORT. What the whole of SMP can do (42_demodulator.md R130), from its steps: one equation for the whole, one for a
cycle inside a line, and what the last step keeps. -/

namespace Sys2Proof.Machine

variable {R σ : Type}

/-- SMP is: the audio step at the new cycle count, the sync and assembly steps, the advance of the line (R130). -/
theorem smp_eq (c : Cfg R σ) (f c0 c1 : Byte) (a : S16) (s : State σ) :
    smp c f c0 c1 a s =
      smpAdvance c { smpAudio c a { s with cycleCnt := s.cycleCnt + 1 } with
        sync := smpLine c (c.mode s.ntsc) f c0 c1 s.sync } := by
  unfold smp
  dsimp only
  rw [smpAudio_frame]

/-- Steps 3 and 4 of SMP write the line buffer registers and the line flags only (R141, R143). -/
theorem smpLine_frame (c : Cfg R σ) (m : ModeCfg) (f c0 c1 : Byte) (y : SyncState) :
    smpLine c m f c0 c1 y =
      { smpSync c m f y with
        lineBuf := (smpLine c m f c0 c1 y).lineBuf, lineBufBytes := (smpLine c m f c0 c1 y).lineBufBytes
        lineBufGroups := (smpLine c m f c0 c1 y).lineBufGroups, lineFlags := (smpLine c m f c0 c1 y).lineFlags } := by
  unfold smpLine
  rw [smpAppend_frame, smpBurst_frame]

/-- Step 2 of SMP on a cycle that is not sync (R130). -/
theorem smpSync_noSync (c : Cfg R σ) (m : ModeCfg) {f : Byte} (h : flagSync f = false) (y : SyncState) :
    smpSync c m f y = { y with syncLengthCnt := 0, hsyncCnt := y.hsyncCnt + 1 } := by
  unfold smpSync
  rw [h]
  rfl

/-- Step 2 of SMP on the first cycle of a sync run (R133). -/
theorem smpSync_start {c : Cfg R σ} (hc : 1 < c.vsyncRun) (m : ModeCfg) {f : Byte} (hf : flagSync f = true)
    {y : SyncState} (h : y.syncLengthCnt = 0) :
    smpSync c m f y =
      { hsyncReacq m y with syncLengthCnt := 1, hsyncCnt := (hsyncReacq m y).hsyncCnt + 1 } := by
  unfold smpSync
  rw [hf, if_pos rfl, syncLevel_start hc m h]

/-- Step 2 of SMP on a later cycle of a sync run that starts no field (R133). -/
theorem smpSync_run {c : Cfg R σ} (m : ModeCfg) {f : Byte} (hf : flagSync f = true) {y : SyncState}
    (h : y.syncLengthCnt ≠ 0)
    (hn : ¬(c.vsyncRun ≤ (countSync y.syncLengthCnt).toNat ∧ m.vsyncThr2 ≤ y.vsyncCnt.toInt)) :
    smpSync c m f y = { y with syncLengthCnt := countSync y.syncLengthCnt, hsyncCnt := y.hsyncCnt + 1 } := by
  unfold smpSync
  rw [hf, if_pos rfl, syncLevel_run m h, if_neg hn]

/-- Step 2 of SMP on a later cycle of a sync run that starts a field (R136). -/
theorem smpSync_field {c : Cfg R σ} (m : ModeCfg) {f : Byte} (hf : flagSync f = true) {y : SyncState}
    (h : y.syncLengthCnt ≠ 0)
    (hn : c.vsyncRun ≤ (countSync y.syncLengthCnt).toNat ∧ m.vsyncThr2 ≤ y.vsyncCnt.toInt) :
    smpSync c m f y =
      { y with
        syncLengthCnt := countSync y.syncLengthCnt, hsyncCnt := y.hsyncCnt + 1
        fieldParity := parityOf y.lineCnt.toNat y.lineLength.toNat m.hsyncPos
        vsyncCnt := BitVec.ofInt 32 (m.vsyncReload (parityOf y.lineCnt.toNat y.lineLength.toNat m.hsyncPos)) } := by
  unfold smpSync
  rw [hf, if_pos rfl, syncLevel_run m h, if_pos hn]
  rfl

/-- SMP inside a line: no line is finalised (R139). -/
theorem smp_inside {c : Cfg R σ} {f c0 c1 : Byte} {a : S16} {s : State σ}
    (h : (smpLine c (c.mode s.ntsc) f c0 c1 s.sync).lineCnt.toNat + 1 <
      (smpLine c (c.mode s.ntsc) f c0 c1 s.sync).lineLength.toNat) :
    smp c f c0 c1 a s =
      { smpAudio c a { s with cycleCnt := s.cycleCnt + 1 } with
        sync := { smpLine c (c.mode s.ntsc) f c0 c1 s.sync with
          lineCnt := (smpLine c (c.mode s.ntsc) f c0 c1 s.sync).lineCnt + 1 } } := by
  rw [smp_eq]
  generalize smpLine c (c.mode s.ntsc) f c0 c1 s.sync = y at *
  rcases smpAdvance_cases c { smpAudio c a { s with cycleCnt := s.cycleCnt + 1 } with sync := y } with
    ⟨-, e⟩ | ⟨h', e⟩
  · exact e
  · exfalso
    dsimp only at h'
    have := y.lineLength.isLt
    rw [BitVec.toNat_add] at h'
    have : (1 : U32).toNat = 1 := rfl
    omega

/-- SMP at the end of a line (R139, R146). -/
theorem smp_lineEnd {c : Cfg R σ} {f c0 c1 : Byte} {a : S16} {s : State σ}
    (h : (smpLine c (c.mode s.ntsc) f c0 c1 s.sync).lineLength.toNat ≤
      ((smpLine c (c.mode s.ntsc) f c0 c1 s.sync).lineCnt + 1).toNat) :
    smp c f c0 c1 a s =
      lineDone c { smpAudio c a { s with cycleCnt := s.cycleCnt + 1 } with
        sync := { smpLine c (c.mode s.ntsc) f c0 c1 s.sync with
          lineCnt := (smpLine c (c.mode s.ntsc) f c0 c1 s.sync).lineCnt + 1 } } := by
  rw [smp_eq, smpAdvance]
  exact if_pos h

/-- DECODE_LINE does not read the line phase, and reads of the state only what the audio step leaves alone. -/
theorem decodeLine_videoBuf_congr {c : Cfg R σ} {s t : State σ} (hv : t.videoBuf = s.videoBuf)
    (hd : t.colormapData = s.colormapData) (ht : t.colormapTable = s.colormapTable) (y : SyncState) (n : U32) :
    (decodeLine c { t with sync := { y with lineCnt := n } }).videoBuf = (decodeLine c { s with sync := y }).videoBuf := by
  have hg : ∀ nc k i, decodeGroups c { t with sync := { y with lineCnt := n } } nc k i =
      decodeGroups c { s with sync := y } nc k i := by
    intro nc k
    induction k with
    | zero => intro i; rfl
    | succ k ih =>
      intro i
      have h4 : dec4 c { t with sync := { y with lineCnt := n } } i nc = dec4 c { s with sync := y } i nc := by
        simp [dec4, cmPix, cmBand, hd, ht]
      rw [decodeGroups, decodeGroups, h4, ih]
  unfold decodeLine
  dsimp only
  split
  · exact hv
  · rw [hg, hv]

/-- What step 2 of SMP does to the vertical registers: FIELD_START where the cycle starts a field, else nothing (R133,
R136). -/
theorem smpSync_vertical {c : Cfg R σ} (hc : 1 < c.vsyncRun) (f : Byte) (s : State σ) :
    let y := smpSync c (c.mode s.ntsc) f s.sync
    let p := parityOf s.sync.lineCnt.toNat s.sync.lineLength.toNat (c.mode s.ntsc).hsyncPos
    (startsField c f s = true → y.fieldParity = p ∧ y.vsyncCnt = BitVec.ofInt 32 ((c.mode s.ntsc).vsyncReload p)) ∧
    (startsField c f s = false → y.fieldParity = s.sync.fieldParity ∧ y.vsyncCnt = s.sync.vsyncCnt) := by
  dsimp only
  cases hf : flagSync f with
  | false =>
    rw [smpSync_noSync c _ hf]
    simp [startsField, hf]
  | true =>
    by_cases h0 : s.sync.syncLengthCnt = 0
    · rw [smpSync_start hc _ hf h0, hsyncReacq_frame]
      have h1 : ¬ c.vsyncRun ≤ (countSync 0).toNat := by
        have : (countSync 0).toNat = 1 := by decide
        omega
      have : startsField c f s = false := by
        rw [startsField, h0, decide_eq_false h1, Bool.and_false, Bool.false_and]
      exact ⟨fun h => absurd (this.symm.trans h) (by decide), fun _ => ⟨rfl, rfl⟩⟩
    · by_cases hn : c.vsyncRun ≤ (countSync s.sync.syncLengthCnt).toNat ∧
        (c.mode s.ntsc).vsyncThr2 ≤ s.sync.vsyncCnt.toInt
      · rw [smpSync_field _ hf h0 hn]
        simp [startsField, hf, hn.1, hn.2]
      · rw [smpSync_run _ hf h0 hn]
        have : startsField c f s = false := by
          rw [Bool.eq_false_iff]
          intro h
          apply hn
          simpa [startsField, hf] using h
        simp [this]

/-- The vertical registers after SMP: those of step 2, and one line more where the cycle ends a line (R146, R148). -/
theorem smp_vertical (c : Cfg R σ) (f c0 c1 : Byte) (a : S16) (s : State σ) :
    (smp c f c0 c1 a s).sync.fieldParity = (smpSync c (c.mode s.ntsc) f s.sync).fieldParity ∧
    (smp c f c0 c1 a s).sync.vsyncCnt.toInt =
      min ((smpSync c (c.mode s.ntsc) f s.sync).vsyncCnt.toInt + bit (endsLine c f s)) (2 ^ 31 - 1) ∧
    (smp c f c0 c1 a s).sync.syncLengthCnt = (smpSync c (c.mode s.ntsc) f s.sync).syncLengthCnt ∧
    (smp c f c0 c1 a s).ntsc = s.ntsc := by
  have hy := smpLine_frame c (c.mode s.ntsc) f c0 c1 s.sync
  have hlt := BitVec.toInt_lt (x := (smpSync c (c.mode s.ntsc) f s.sync).vsyncCnt)
  have hA := smpAudio_frame c a { s with cycleCnt := s.cycleCnt + 1 }
  rw [smp_eq]
  generalize smpLine c (c.mode s.ntsc) f c0 c1 s.sync = y at *
  generalize smpAudio c a { s with cycleCnt := s.cycleCnt + 1 } = p at *
  have hn : p.ntsc = s.ntsc := by rw [hA]
  have hl : y.lineCnt = (smpSync c (c.mode s.ntsc) f s.sync).lineCnt := by rw [hy]
  have hL : y.lineLength = (smpSync c (c.mode s.ntsc) f s.sync).lineLength := by rw [hy]
  have hv : y.vsyncCnt = (smpSync c (c.mode s.ntsc) f s.sync).vsyncCnt := by rw [hy]
  have hp : y.fieldParity = (smpSync c (c.mode s.ntsc) f s.sync).fieldParity := by rw [hy]
  have hs : y.syncLengthCnt = (smpSync c (c.mode s.ntsc) f s.sync).syncLengthCnt := by rw [hy]
  rcases smpAdvance_cases c { p with sync := y } with ⟨h, e⟩ | ⟨h, e⟩ <;> rw [e]
  · have he : endsLine c f s = false := by
      rw [Bool.eq_false_iff]
      intro hh
      have := of_decide_eq_true hh
      rw [← hl, ← hL] at this
      dsimp only at h
      omega
    rw [he, ← hv, ← hp, ← hs]
    refine ⟨rfl, ?_, rfl, hn⟩
    show y.vsyncCnt.toInt = _
    rw [← hv] at hlt
    simp only [bit]
    norm_num at *
    omega
  · have he : endsLine c f s = true := by
      refine decide_eq_true ?_
      rw [← hl, ← hL]
      exact h
    rw [he, ← hv, ← hp, ← hs]
    have key := lineAdvance_vsyncCnt_toInt c { y with lineCnt := y.lineCnt + 1 }
    rcases lineDone_cases c { p with sync := { y with lineCnt := y.lineCnt + 1 } } with ⟨-, e⟩ | ⟨-, e⟩ <;> rw [e]
    · exact ⟨rfl, key, rfl, hn⟩
    · rw [frameDone_frame]
      exact ⟨rfl, key, rfl, hn⟩

/-- A cycle finalises at most one line. -/
theorem lineEnds_le_length (c : Cfg R σ) (l : List (Byte × Byte × Byte × S16)) (s : State σ) :
    lineEnds c l s ≤ l.length := by
  induction l generalizing s with
  | nil => exact Nat.le_refl _
  | cons x l ih =>
    have h := ih (smp c x.1 x.2.1 x.2.2.1 x.2.2.2 s)
    have hb : bit (endsLine c x.1 s) ≤ 1 := by cases endsLine c x.1 s <;> decide
    rw [lineEnds, List.length_cons, Nat.add_comm l.length 1]
    exact Nat.add_le_add hb h

/-- What step 5 of SMP keeps of the sync registers, whatever it does (R139, R146). -/
theorem smpAdvance_keeps (c : Cfg R σ) (s : State σ) :
    (smpAdvance c s).ntsc = s.ntsc ∧
    (smpAdvance c s).sync.syncLengthCnt = s.sync.syncLengthCnt ∧
    (smpAdvance c s).sync.hsyncCnt = s.sync.hsyncCnt ∧
    (smpAdvance c s).sync.hsyncPeriodInt = s.sync.hsyncPeriodInt ∧
    (smpAdvance c s).sync.lineLengthFilter = s.sync.lineLengthFilter ∧
    (smpAdvance c s).sync.lineLength = s.sync.lineLength ∧
    (smpAdvance c s).sync.fieldParity = s.sync.fieldParity ∧
    ((s.sync.lineCnt + 1).toNat < s.sync.lineLength.toNat →
      (smpAdvance c s).sync.lineCnt = s.sync.lineCnt + 1) := by
  rcases smpAdvance_cases c s with ⟨-, e⟩ | ⟨h, e⟩ <;> rw [e]
  · exact ⟨rfl, rfl, rfl, rfl, rfl, rfl, rfl, fun _ => rfl⟩
  · rcases lineDone_cases c { s with sync := { s.sync with lineCnt := s.sync.lineCnt + 1 } } with ⟨-, e⟩ | ⟨-, e⟩ <;>
      rw [e]
    · exact ⟨rfl, rfl, rfl, rfl, rfl, rfl, rfl, fun h' => by omega⟩
    · rw [frameDone_frame]
      exact ⟨rfl, rfl, rfl, rfl, rfl, rfl, rfl, fun h' => by omega⟩

/-- What step 5 of SMP does to the vertical counter: nothing, or one line more (R146, R148). -/
theorem smpAdvance_vsyncCnt (c : Cfg R σ) (s : State σ) :
    (smpAdvance c s).sync.vsyncCnt = s.sync.vsyncCnt ∨
    (smpAdvance c s).sync.vsyncCnt.toInt = min (s.sync.vsyncCnt.toInt + 1) (2 ^ 31 - 1) := by
  rcases smpAdvance_cases c s with ⟨-, e⟩ | ⟨-, e⟩ <;> rw [e]
  · exact .inl rfl
  · rcases lineDone_cases c { s with sync := { s.sync with lineCnt := s.sync.lineCnt + 1 } } with ⟨-, e⟩ | ⟨-, e⟩ <;>
      rw [e]
    · exact .inr (lineAdvance_vsyncCnt_toInt c { s.sync with lineCnt := s.sync.lineCnt + 1 })
    · rw [frameDone_frame]
      exact .inr (lineAdvance_vsyncCnt_toInt c { s.sync with lineCnt := s.sync.lineCnt + 1 })

end Sys2Proof.Machine
end

