-- ==== Sys2Proof/Tests/Slice0.lean ====
section
/-! SUPPORT. Tests against the words and vectors of spec/95_test_vectors.md (V1 to V51, each named at its test), the smoke
test of `Instr.wellFormed`, and a witness for the hypotheses of every statement that has some. -/

open Sys2Proof Sys2Proof.Machine

namespace Sys2Proof.Tests

-- One theorem at a time: elaborated all at once, their kernel evaluations hold too many thread stacks.
set_option Elab.async false

/-! ## Encoding (V1, and R56 for the words V1 does not list) -/

theorem test_decode_nop : decode 0x0000000000000000 = .nop := by decide +kernel
theorem test_decode_smp : decode 0x1000001000008000 = .smp 0x00 0x80 0x00 0x0010 := by decide +kernel
theorem test_decode_smp_every_field : decode 0x1000FFFB00563412 = .smp 0x12 0x34 0x56 0xFFFB := by decide +kernel
theorem test_decode_sclk : decode 0x20000000001B0F88 = .sclk 1773448 := by decide +kernel
theorem test_decode_smode : decode 0x3000000000000001 = .smode true := by decide +kernel
theorem test_decode_sccp : decode 0x4000000400030000 = .sccp 4 0x00030000 := by decide +kernel
theorem test_decode_syuv : decode 0x5000058000002000 = .syuv true 1 0x80 0x2000 := by decide +kernel
theorem test_decode_cbld : decode 0x6000000000000001 = .cbld true := by decide +kernel
theorem test_decode_cmrd : decode 0x7000070000000000 = .cmrd 0x700 := by decide +kernel
theorem test_decode_cmwr : decode 0x8000098000123456 = .cmwr 0x980 0x00123456 := by decide +kernel
theorem test_decode_rdsr : decode 0x9000000300000000 = .rdsr 3 := by decide +kernel
theorem test_decode_rst : decode 0xA000000000000000 = .rst := by decide +kernel
theorem test_decode_reservedB : decode 0xB000000000000000 = .reservedB := by decide +kernel
theorem test_decode_reservedC : decode 0xC000000000000000 = .reservedC := by decide +kernel
theorem test_decode_reservedD : decode 0xD000000000000000 = .reservedD := by decide +kernel
theorem test_decode_reservedE : decode 0xE000000000000000 = .reservedE := by decide +kernel
theorem test_decode_reservedF : decode 0xFFFFFFFFFFFFFFFF = .reservedF := by decide +kernel

/-- Reserved bits set in the words of SMP, SMODE and CMRD change nothing (R58). -/
theorem test_decode_ignores_reserved_bits :
    decode 0x1FFF0010FF008000 = decode 0x1000001000008000 ∧ decode 0x3FFFFFFFFFFFFFFE = .smode false ∧
    decode 0x7FFFE700FFFFFFFF = .cmrd 0x700 := by decide +kernel

theorem test_decodeTableWord :
    decodeTableWord 64 0x5000012000004000 = some (.syuv false 1 0x20 0x4000) ∧
    decodeTableWord 8 0x00 = some .nop ∧ decodeTableWord 72 0 = none := by decide +kernel

/-- The assembler's words of V1 (R70). -/
theorem test_encode :
    encode (.smp 0x00 0x80 0x00 0x0010) = 0x1000001000008000 ∧ encode (.syuv true 1 0x80 0x2000) = 0x5000058000002000 ∧
    encode (.cmwr 0 0x00FFFFFF) = 0x8000000000FFFFFF ∧ encode (.rdsr 3) = 0x9000000300000000 := by decide +kernel

/-- R71. -/
theorem test_pseudo : pseudoSmp1 1 2 3 = [.smp 1 2 0 3] ∧ pseudoRep 2 pseudoNtsc = [.smode true, .smode true] ∧
    (pseudoSetcc [7, 8] true).take 2 = [.sccp 0 7, .sccp 1 8] ∧ (pseudoSetcc [] true).length = 15 := by decide +kernel

/-! ## Well-formedness: one ill-formed term for each check -/

theorem test_illFormed_sccp : (Instr.sccp 256 0).wellFormed = false := by decide
theorem test_illFormed_syuv_cmp : (Instr.syuv false 4 0 0).wellFormed = false := by decide
theorem test_illFormed_syuv_idx : (Instr.syuv false 0 256 0).wellFormed = false := by decide
theorem test_illFormed_cmrd : (Instr.cmrd 8192).wellFormed = false := by decide
theorem test_illFormed_cmwr : (Instr.cmwr 8192 0).wellFormed = false := by decide
theorem test_illFormed_rdsr : (Instr.rdsr 256).wellFormed = false := by decide

/-! ## One step of each command -/

/-- Running `i` from `s` answers a next state of which `p` holds. -/
def after (i : Instr) (s : State) (p : State → Bool) : Bool :=
  match exec i s with
  | .next t => p t
  | .fault _ => false
  | .refused _ => false

/-- The last event of the next state is this ReadData. -/
def answers (i : Instr) (s : State) (v : U32) : Bool :=
  after i s fun t => decide (t.events = [.readData v])

/-- The reset state with these values of the index-to-YUV table replaced. -/
def withYuv (l : List (Nat × S32)) : State :=
  { State.reset with idxYuv := l.foldl (fun m kv => Memory.write m kv.1 kv.2) State.reset.idxYuv }

/-- V30. -/
theorem test_smp_first_cycle : after (.smp 0x00 0x80 0x00 0x0010) State.reset (fun t =>
    decide (t.cycleCnt = 1 ∧ t.audio.audioSum = 16 ∧ t.audio.audioCnt = 1 ∧ t.sync.syncLengthCnt = 0 ∧
      t.sync.hsyncCnt = 1 ∧ t.sync.lineCnt = 1 ∧ t.sync.lineBufGroups = 0)) = true := by decide +kernel

/-- V50: eight samples of -1 fold to -1 (here the eighth, over the sum of the first seven). -/
theorem test_smp_fold : after (.smp 0 0 0 0xFFFF)
    { State.reset with audio := { State.reset.audio with audioSum := BitVec.ofInt 32 (-7), audioCnt := 7 } } (fun t =>
    decide (t.audio.audioSum = 0 ∧ t.audio.audioCnt = 0 ∧ t.audio.rs.prev = 0xFFFF ∧ t.audio.rs.phase = 48000 ∧
      t.audio.ringCount = 0)) = true := by decide +kernel

/-- V4. -/
theorem test_sclk : after (.sclk 8) State.reset (fun t =>
    decide (t.clockFreq = 8 ∧ t.audio.rs = { inRate := 1, outRate := 48000, phase := 0, prev := 0 })) = true := by
  decide +kernel

/-- V4. -/
theorem test_sclk_ignored : after (.sclk 7) State.reset (fun t => decide (t.clockFreq = 1773448)) = true := by
  decide +kernel

/-- V5. -/
theorem test_smode : after (.smode true) State.reset (fun t =>
    decide (t.ntsc = true ∧ t.sync.vsyncCnt = 210 ∧ Memory.read t.colormapTable 0x00 = 9 ∧
      Memory.read t.colormapTable 0x40 = 17 ∧ Memory.read t.colormapTable 0x80 = 7)) = true := by decide +kernel

/-- V3. -/
theorem test_sccp_above : after (.sccp 3 0x00C80000) State.reset (fun t =>
    decide (Memory.read t.ccp 3 = 0x00B40000)) = true := by decide +kernel

/-- V3. -/
theorem test_sccp_below : after (.sccp 0 0x80000000) State.reset (fun t =>
    decide (Memory.read t.ccp 0 = 0xFFFF8000)) = true := by decide +kernel

/-- R86: the word of V1 writes the NTSC `U` of index 0x80 and not the PAL one. -/
theorem test_syuv : after (.syuv true 1 0x80 0x2000) State.reset (fun t =>
    decide (Memory.read t.idxYuv (idxYuvAt true 0x80 1) = 0x2000 ∧
      Memory.read t.idxYuv (idxYuvAt false 0x80 1) = 0)) = true := by decide +kernel

/-- V11: with brightness 0.25, band 7 and two greys. -/
theorem test_cbld_brightness : after (.cbld true)
    { State.reset with ccp := Memory.write State.reset.ccp 0 0x4000 } (fun t =>
    decide (Memory.read t.colormapData 0x700 = 0x00808047 ∧ Memory.read t.colormapData 0x080 = 0x008080B5 ∧
      Memory.read t.colormapData 0x0FF = 0x008080EB)) = true := by decide +kernel

/-- V15: a chroma vector of magnitude 0.5 is limited, its irrational length cancels in the luma. -/
theorem test_cbld_limit : after (.cbld true) (withYuv [(15, 0x8000), (16, 0x4CCD), (17, 0x6666)]) (fun t =>
    decide (Memory.read t.colormapData 0x005 = 0x009FA07E)) = true := by decide +kernel

/-- R112, R108: V15's vector in band 5, which halves chroma: limited to (0.126, 0.168), then scaled to (0.063, 0.084), so
`U8 = rnd(128 + 224*0.063/0.872) = 0x90` and `V8 = rnd(128 + 224*0.084/1.230) = 0x8F`. -/
theorem test_colormap_limit_before_scale : colormapEntry cfg0 neutralCcp true
    (Memory.write (Memory.write (Memory.write identityIdxYuv 15 0x8000) 16 0x4CCD) 17 0x6666) 5 5 = 0x008F907E := by
  decide +kernel

/-- V10: the PAL burst entry after reset, with the irrational sine and cosine of 135 degrees. -/
theorem test_colormap_burst : colormapEntry cfg0 neutralCcp true identityIdxYuv 8 0 = 0x00927A1B := by decide +kernel

/-- V16: the same entry as RGB32. -/
theorem test_colormap_burst_rgb : colormapEntry cfg0 neutralCcp false identityIdxYuv 8 0 = 0x00290000 := by
  decide +kernel

/-- V13: a gamma of 2 at a luma of 1/16. -/
theorem test_colormap_gamma : colormapEntry cfg0 (Memory.write neutralCcp 2 0x20000) true
    (Memory.write identityIdxYuv 3 0x1000) 0 1 = 0x00808047 := by decide +kernel

/-- V14: a band that rotates by 90 degrees. -/
theorem test_colormap_rotation : colormapEntry cfg0 neutralCcp true
    (Memory.write (Memory.write identityIdxYuv (idxYuvAt false 0x80 1) 0x2000) (idxYuvAt false 0x80 2) 0x1000) 2 0x80 =
      0x0097707E := by decide +kernel

/-- What is known of an irrational number is narrow: the root of 2, the cosine of 60 degrees by the loop of angle bits, the
cube root of 8 by the loop of exponent bits. -/
theorem test_enclosures :
    (match known (.sqrt (.rat 2)) with
      | .within a b => decide (14142135623 / 10000000000 < a ∧ b < 14142135624 / 10000000000)
      | .unknown => false) = true ∧
    (match loopCos 60 with
      | .within a b => decide (a ≤ 1 / 2 ∧ 1 / 2 ≤ b ∧ b - a < 1 / 10000000000)
      | .unknown => false) = true ∧
    (match ratPow 8 (1 / 3) with
      | .within a b => decide (a ≤ 2 ∧ 2 ≤ b ∧ b - a < 1 / 10000000000)
      | .unknown => false) = true := by decide +kernel

/-- V6. -/
theorem test_cmrd : answers (.cmrd 0x700) State.reset 0x00808010 = true := by decide +kernel
/-- V6. -/
theorem test_cmrd_outside : answers (.cmrd 4608) State.reset 0 = true := by decide +kernel

/-- V6. -/
theorem test_cmwr : after (.cmwr 0 0x00FFFFFF) State.reset (fun t =>
    decide (Memory.read t.colormapData 0 = 0x00FFFFFF ∧ Memory.read t.colormapData 1 ≠ 0x00FFFFFF)) = true := by
  decide +kernel

/-- V2. -/
theorem test_rdsr : answers (.rdsr 14) State.reset 7471104 = true := by decide +kernel
/-- V2. -/
theorem test_rdsr_outside : answers (.rdsr 16) State.reset 0 = true := by decide +kernel

/-- R82: RST of a state in the middle of a line. -/
theorem test_rst : after .rst { State.reset with ntsc := true, cycleCnt := 9, clockFreq := 8 } (fun t =>
    decide (t.ntsc = false ∧ t.cycleCnt = 0 ∧ t.clockFreq = 1773448)) = true := by decide +kernel

/-- V7: a reserved opcode leaves the counter alone. -/
theorem test_reserved : after (decode 0xB000000000000001) { State.reset with cycleCnt := 9 } (fun t =>
    decide (t.cycleCnt = 9)) = true := by decide +kernel

/-! ## Operations -/

/-- V42. -/
theorem test_recip : recip 1 = 4294967295 ∧ recip 8 = 536870912 ∧ recip 35472 = 121080 ∧ recip 16843010 = 254 ∧
    recip (2 ^ 32) = 0 := by decide +kernel

/-- V43, V44. -/
theorem test_finalByte : finalByte 2393112 35472 = 67 ∧ finalByte 6147064 35464 = 173 ∧ finalByte 128 8 = 16 ∧
    finalByte 254 16843010 = 0 := by decide +kernel

/-- V25. -/
theorem test_blend : blend cfg0 0x808010 0x8080EB 0 384 = 0x808010 ∧ blend cfg0 0x808010 0x8080EB 192 384 = 0x80807E ∧
    blend cfg0 0x808010 0x8080EB 383 384 = 0x8080EA ∧ blend cfg0 0x00FF00 0xFF00FF 96 384 = 0x40BF40 := by
  decide +kernel

/-- V38: both filter stages of the first 116-cycle line. -/
theorem test_period : periodStage1 114 116 = 115 ∧ periodStage1 115 116 = 115 ∧ periodStage2 7471104 115 = 7477658 ∧
    roundedLength (cfg0.mode false) 7505295 = 115 := by decide +kernel

/-- V51: the first output of the reference converter. -/
theorem test_converter : refResamplerStep { inRate := 221681, outRate := 48000, phase := 192000, prev := 400 } 500 =
    ({ inRate := 221681, outRate := 48000, phase := 18319, prev := 500 }, [462]) := by decide +kernel

/-- V33, V34, V36: the parity of a vertical sync early, in the middle and at the start of a line. -/
theorem test_parity : parityOf 31 114 6 = false ∧ parityOf 88 114 6 = true ∧ parityOf 25 114 6 = false := by
  decide +kernel

/-! ## Witnesses: each statement's hypotheses are met, each clause at the boundary of its range -/

/-- DecodeInvertsEncode. -/
theorem witness_DecodeInvertsEncode :
    (Instr.sccp 255 0x80000000).wellFormed = true ∧ (Instr.syuv true 3 255 0xFFFFFFFF).wellFormed = true ∧
    (Instr.cmrd 8191).wellFormed = true ∧ (Instr.cmwr 8191 0).wellFormed = true ∧ (Instr.rdsr 255).wellFormed = true := by
  decide

/-- DecodeIsTotalAndIgnoresReservedBits: two different words, alike in their assigned bits. -/
theorem witness_DecodeIsTotalAndIgnoresReservedBits :
    let w : BitVec 64 := 0x1000001000008000
    let w' : BitVec 64 := 0x1FFF0010FF008000
    w ≠ w' ∧ opcode w = opcode w' ∧ w &&& assignedBits (opcode w) = w' &&& assignedBits (opcode w) := by decide +kernel

/-- StepRunsDecodedCommand. -/
theorem witness_StepRunsDecodedCommand :
    (State.reset.withFetchWord 64 0xA000000000000000).input = .command 0xA000000000000000 :: [] := by decide +kernel

/-- IdleHoldsAndResetInputIsRst, both clauses. -/
theorem witness_IdleHoldsAndResetInputIsRst :
    State.reset.input = [] ∧
    { State.reset with input := [.resetInput, .command 0] }.input = .resetInput :: [.command 0] := ⟨rfl, rfl⟩

/-- NopAndReservedChangeNothing: the least and greatest words of NOP and of the reserved opcodes. -/
theorem witness_NopAndReservedChangeNothing :
    opcode 0x0000000000000000 = 0 ∧ opcode 0x0FFFFFFFFFFFFFFF = 0 ∧ 0xB ≤ opcode 0xB000000000000000 ∧
    0xB ≤ opcode 0xFFFFFFFFFFFFFFFF := by decide +kernel

/-- SclkSetsClockAndConverter, both clauses. -/
theorem witness_SclkSetsClockAndConverter :
    8 ≤ (8 : U32).toNat ∧ 8 ≤ (0xFFFFFFFF : U32).toNat ∧ (7 : U32).toNat < 8 := by decide

/-- SmodeRestartsSyncOnChange, both clauses. -/
theorem witness_SmodeRestartsSyncOnChange : false = State.reset.ntsc ∧ true ≠ State.reset.ntsc := by decide +kernel

/-- SccpClampsOnAssignment, both clauses, and a range of the table. -/
theorem witness_SccpClampsOnAssignment :
    State.reset.ccp.size = 14 ∧ 13 ≤ 13 ∧ 14 ≤ 14 ∧ (12 : Nat) ≠ 13 ∧
    ([(-32768, 32768), (32768, 131072), (16384, 262144), (-11796480, 11796480), (0, 131072),
      (-32768, 32768), (32768, 131072), (16384, 262144), (-32768, 32768), (32768, 131072), (16384, 262144),
      (-32768, 32768), (32768, 131072), (16384, 262144)] : List (Int × Int))[13]? = some (16384, 262144) := by
  decide +kernel

/-- SyuvWritesOneValue, both clauses. -/
theorem witness_SyuvWritesOneValue :
    opcode 0x5000012000004000 = 0x5 ∧ State.reset.idxYuv.size = 1536 ∧ 255 < 256 ∧ 2 ≤ 2 ∧ 3 = 3 ∧
    ((false, 255, 2) : Bool × Nat × Nat) ≠ (true, 255, 2) := by decide +kernel

/-- CbldCommitsAndRebuilds: the last band and index. -/
theorem witness_CbldCommitsAndRebuilds : 17 < 18 ∧ 255 < 256 := by decide

/-- CmrdAnswersEntry, both clauses. -/
theorem witness_CmrdAnswersEntry : opcode 0x7000070000000000 = 0x7 ∧ 4607 < 4608 ∧ 4608 ≤ 4608 := by decide +kernel

/-- RdsrAnswersStatusView. -/
theorem witness_RdsrAnswersStatusView : opcode 0x9000000300000000 = 0x9 := by decide +kernel

/-- CmwrWritesOneEntry, both clauses. -/
theorem witness_CmwrWritesOneEntry :
    State.reset.colormapData.size = 4608 ∧ 4607 < 4608 ∧ 4608 ≤ 4608 ∧ (0 : Nat) ≠ 4607 := by decide +kernel

/-- ResetLeavesStatedValues: the last index of each range. -/
theorem witness_ResetLeavesStatedValues : 255 < 256 ∧ 110591 < 110592 ∧ 27647 < 27648 := by decide

/-- RebuildDiscardsColormapEdits. -/
theorem witness_RebuildDiscardsColormapEdits : true ≠ State.reset.ntsc := by decide +kernel

/-- ColormapEditSeenByNextLookup: PAL burst, the last band a PAL pattern reaches (R109). -/
theorem witness_ColormapEditSeenByNextLookup :
    State.reset.colormapData.size = 4608 ∧ cmBand cfg0 State.reset 0x40 false = 8 ∧
    cmBand cfg0 State.reset 0x40 false < 18 ∧ cmBand cfg0 State.reset 0x40 true < 18 := by decide +kernel

/-- CycleCountAdvancesOnlyInSmp. -/
theorem witness_CycleCountAdvancesOnlyInSmp :
    exec .nop State.reset = .next State.reset ∧ Instr.nop ≠ .rst ∧ ∀ f c0 c1 a, Instr.nop ≠ .smp f c0 c1 a :=
  ⟨rfl, nofun, nofun⟩

/-- SmpFrame: the premise of its last clause, and the bytes next to the row and to the group. -/
theorem witness_SmpFrame :
    State.reset.memoryWf cfg0 ∧ (State.reset.sync.curLine.toInt / 2).toNat * 384 + 384 ≤ 384 ∧
    State.reset.sync.lineBufBytes.toNat + 1 + colourBytes 0 ≤ 2 ∧
    (0 : Nat) < { State.reset.sync with lineBufBytes := 1 }.lineBufBytes.toNat ∧
    383 < ({ State.reset.sync with curLine := 2 }.curLine.toInt / 2).toNat * 384 :=
  ⟨reset_memoryWf, by decide +kernel, by decide +kernel, by decide, by decide⟩

/-- The size of the picture memory after reset. -/
theorem reset_videoBuf_size : State.reset.videoBuf.size = 110592 := by
  obtain ⟨-, -, -, -, -, -, -, h, -⟩ := reset_memoryWf
  exact (Memory.wf_iff _ _).mp h

/-- A state in the middle of a line. -/
def inLine (phase : U32) (groups bytes : U16) : State :=
  { State.reset with
    sync := { State.reset.sync with lineCnt := phase, lineBufGroups := groups, lineBufBytes := bytes } }

/-- The hypotheses of SmpInsideLineAssembles, and whether the cycle is in the window. -/
abbrev InsideLine (f : Byte) (s : State) (inWindow : Prop) : Prop :=
  flagSync f = false ∧ s.sync.lineCnt.toNat + 1 < s.sync.lineLength.toNat ∧ s.audio.audioCnt ≠ 7 ∧
  s.sync.lineBuf.size = 384 ∧ s.sync.bufferInv cfg0 ∧
  (18 ≤ s.sync.lineCnt.toNat ∧ s.sync.lineBufGroups.toNat < 128 ↔ inWindow)

/-- SmpInsideLineAssembles: in the window (at its first cycle and at the last free group) and outside it (one cycle
before it, and with the buffer full). -/
theorem witness_SmpInsideLineAssembles :
    InsideLine 0x03 (inLine 18 0 0) True ∧ InsideLine 0x03 (inLine 112 127 381) True ∧
    InsideLine 0x03 (inLine 17 0 0) False ∧ InsideLine 0x03 (inLine 112 128 384) False := by decide +kernel

/-- SyncRunStartReacquires: starts that are accepted (at `LINE_LEN_MIN`, and after one stale period), too early, and
stale. Each row is `hsyncCnt`, `mc`, `k`. -/
theorem witness_SyncRunStartReacquires :
    ∀ x ∈ [((110 : U32), 110, 0), (118, 118, 0), (228, 114, 1), (109, 109, 0), (0, 0, 0), (119, 5, 1), (310, 82, 2)],
    let s := { State.reset with sync := { State.reset.sync with hsyncCnt := x.1 } }
    flagSync 0x80 = true ∧ s.sync.syncLengthCnt = 0 ∧ s.sync.lineInv (cfg0.mode s.ntsc) ∧
    s.sync.hsyncCnt.toNat = x.2.1 + x.2.2 * s.sync.lineLength.toNat ∧ x.2.1 ≤ (cfg0.mode s.ntsc).lineLenMax ∧
    (x.2.2 = 0 ∨ (cfg0.mode s.ntsc).lineLenMax < x.2.1 + s.sync.lineLength.toNat) ∧
    (s.sync.lineCnt.toNat + 1 < s.sync.lineLength.toNat) := by decide +kernel

/-- The hypotheses of SmpAssemblesLine in the middle of a PAL line with this phase, `hsyncCnt` and number of groups and
bytes; the phase after the sync step; and whether the cycle appends. -/
abbrev Assembles (f : Byte) (phase hsyncCnt : U32) (groups bytes : U16) (phase' : U32) (inWindow : Prop) : Prop :=
  let z := { (inLine phase groups bytes).sync with hsyncCnt := hsyncCnt }
  let y := smpSync cfg0 (cfg0.mode false) f z
  y.lineCnt.toNat + 1 < y.lineLength.toNat ∧ z.lineBuf.size = 384 ∧ z.bufferInv cfg0 ∧ y.lineCnt = phase' ∧
  (18 ≤ y.lineCnt.toNat ∧ groups.toNat < 128 ↔ inWindow)

/-- SmpAssemblesLine: outside sync at the first window cycle and at the last free group, before the window and with the
buffer full; at sync level inside the window; and at a run start that re-references, which leaves the window. -/
theorem witness_SmpAssemblesLine : State.reset.ntsc = false ∧
    Assembles 0x03 18 1 0 0 18 True ∧ Assembles 0x03 112 1 127 381 112 True ∧ Assembles 0x03 17 1 0 0 17 False ∧
    Assembles 0x03 112 1 128 384 112 False ∧ Assembles 0x80 50 1 3 6 50 True ∧
    Assembles 0x80 50 114 3 6 6 False := by decide +kernel

/-- The hypotheses of VerticalSyncStartsField on the state with these counters. -/
abbrev InRun (syncLengthCnt : U32) (vsyncCnt : S32) (lineCnt : U32) (clause : SyncState → Prop) : Prop :=
  let y := { State.reset.sync with syncLengthCnt := syncLengthCnt, vsyncCnt := vsyncCnt, lineCnt := lineCnt }
  flagSync 0x80 = true ∧ y.syncLengthCnt ≠ 0 ∧ 6 ≤ y.lineLength.toNat ∧ y.lineCnt.toNat < y.lineLength.toNat ∧
  clause y

/-- VerticalSyncStartsField (PAL): both clauses, at the run length and at the threshold, inside a line and at its end. -/
theorem witness_VerticalSyncStartsField :
    State.reset.ntsc = false ∧
    InRun 25 250 25 (fun y => 25 ≤ y.syncLengthCnt.toNat ∧ 250 ≤ y.vsyncCnt.toInt) ∧
    InRun 0xFFFFFFFF 250 113 (fun y => 25 ≤ y.syncLengthCnt.toNat ∧ 250 ≤ y.vsyncCnt.toInt ∧
      y.lineCnt.toNat + 1 = y.lineLength.toNat) ∧
    InRun 24 250 0 (fun y => y.syncLengthCnt.toNat < 25) ∧ InRun 25 249 113 (fun y => y.vsyncCnt.toInt < 250) := by
  decide +kernel

/-- Sync runs of any length. -/
theorem syncRun (n : Nat) :
    (∀ x ∈ List.replicate n ((0x80, 0, 0, 0) : Byte × Byte × Byte × S16), flagSync x.1 = true) ∧
    (List.replicate n ((0x80, 0, 0, 0) : Byte × Byte × Byte × S16)).length = n := by
  refine ⟨fun x h => ?_, List.length_replicate⟩
  rw [List.eq_of_mem_replicate h]
  decide

/-- SyncRunStartsOneField (PAL): from reset, at the threshold, a run of 26 cycles, V36's run of 300 and any run of fewer
than 270 more lines than it has cycles meet the premises of both clauses. -/
theorem witness_SyncRunStartsOneField :
    (∀ n ∈ [25, 26, 200],
      (∀ x ∈ List.replicate n ((0x80, 0, 0, 0) : Byte × Byte × Byte × S16), flagSync x.1 = true) ∧
      lineEnds cfg0 (List.replicate n ((0x80, 0, 0, 0) : Byte × Byte × Byte × S16)).dropLast State.reset < 270) ∧
    State.reset.ntsc = false ∧ State.reset.sync.syncLengthCnt = 0 ∧ (250 : Int) ≤ State.reset.sync.vsyncCnt.toInt ∧
    State.reset.sync.lineInv (cfg0.mode State.reset.ntsc) := by
  refine ⟨fun n hn => ⟨(syncRun n).1, ?_⟩, by decide +kernel, by decide +kernel, by decide +kernel, by decide +kernel⟩
  refine Nat.lt_of_le_of_lt (lineEnds_le_length cfg0 _ _) ?_
  rw [List.length_dropLast, (syncRun n).2]
  simp only [List.mem_cons, List.not_mem_nil, or_false] at hn
  omega

/-- NoFieldStartBelowThreshold (PAL): a cycle one below the threshold, and one that starts a field and the next. -/
theorem witness_NoFieldStartBelowThreshold :
    let below : State := { State.reset with sync := { State.reset.sync with syncLengthCnt := 25, vsyncCnt := 249 } }
    let at26 : State := { State.reset with sync := { State.reset.sync with syncLengthCnt := 25 } }
    let x : Byte × Byte × Byte × S16 := (0x80, 0, 0, 0)
    below.sync.vsyncCnt.toInt + lineEnds cfg0 [x].dropLast below < 250 ∧
    startsField cfg0 x.1 at26 = true ∧ lineEnds cfg0 ([x, x] : List _).dropLast at26 < 270 := by decide +kernel

/-- A state one cycle before the end of its line. -/
def atLineEnd (vsyncCnt curLine : S32) : State :=
  { State.reset with sync := { State.reset.sync with lineCnt := 113, vsyncCnt := vsyncCnt, curLine := curLine } }

/-- The hypotheses of LineEndResetsAccumulators, and whether the cycle starts a field. -/
abbrev EndsLine (f : Byte) (s : State) (starts : Bool) : Prop :=
  let y := smpLine cfg0 (cfg0.mode s.ntsc) f 0 0 s.sync
  y.lineLength.toNat ≤ (y.lineCnt + 1).toNat ∧ y.vsyncCnt.toInt ≠ -1 ∧ startsField cfg0 f s = starts

/-- LineEndResetsAccumulators: around 0, at the largest count, and at the bounds of the output line; outside sync, in a
sync run, and in the cycle that starts a field. -/
theorem witness_LineEndResetsAccumulators :
    EndsLine 0x1C (atLineEnd (-2) 575) false ∧ EndsLine 0x1C (atLineEnd 0 576) false ∧
    EndsLine 0x1C (atLineEnd 0x7FFFFFFF 0) false ∧
    EndsLine 0x80
      { atLineEnd 249 0 with sync := { (atLineEnd 249 0).sync with syncLengthCnt := 25 } } false ∧
    EndsLine 0x80
      { atLineEnd 250 0 with sync := { (atLineEnd 250 0).sync with syncLengthCnt := 25 } } true := by
  decide +kernel

/-- A state one cycle before a frame is complete, with one boundary and two more samples pending. -/
def beforeFrame : State :=
  { atLineEnd (-1) 40 with
    cycleCnt := 40000
    audio := { State.reset.audio with ringWr := 962, ringCount := 962, accCnt := 2 }
    frame := { State.reset.frame with bndFifo := Memory.write State.reset.frame.bndFifo 0 35472, bndCount := 1 }
    input := [.command 0x100003E80000001C] }

theorem beforeFrame_memoryWf : beforeFrame.memoryWf cfg0 := by
  obtain ⟨h1, h2, h3, h4, h5, h6, h7, h8, h9, h10⟩ := reset_memoryWf
  exact ⟨h1, h2, h3, h4, h5, h6, h7, h8, Memory.wf_write h9 0 _, h10⟩

/-- FrameCompletionEmitsPendingFrames: one boundary is pending, and the cycle folds no audio. -/
theorem witness_FrameCompletionEmitsPendingFrames :
    let y := smpLine cfg0 (cfg0.mode beforeFrame.ntsc) 0x1C 0 0 beforeFrame.sync
    (y.lineLength.toNat ≤ (y.lineCnt + 1).toNat ∧ y.vsyncCnt.toInt = -1) ∧
    beforeFrame.audio.audioCnt ≠ 7 ∧ beforeFrame.memoryWf cfg0 ∧ beforeFrame.ringInv cfg0 ∧
    (smpAudio cfg0 1000 { beforeFrame with cycleCnt := beforeFrame.cycleCnt + 1 }).frame.bndCount = 1 ∧
    0 < 1 ∧ 110591 < 110592 ∧ 27647 < 27648 :=
  ⟨by decide +kernel, by decide +kernel, beforeFrame_memoryWf, by decide +kernel, by decide +kernel, by decide,
    by decide, by decide⟩

/-- FramesOnlyAtFrameCompletion: the premise of its last clause, some cycle does emit. -/
theorem witness_FramesOnlyAtFrameCompletion : after (.smp 0x1C 0 0 1000) beforeFrame (fun t =>
    decide (t.events.length = 1)) = true := by decide +kernel

/-- A state about to decode this line with this many groups. -/
def atLine (curLine : S32) (groups : U16) : State :=
  { State.reset with sync := { State.reset.sync with curLine := curLine, lineBufGroups := groups } }

/-- A property of the sync state of `atLine`. -/
abbrev AtLine (curLine : S32) (groups : U16) (p : SyncState → Prop) : Prop := p (atLine curLine groups).sync

/-- A line buffer of zeros holds groups of zeros anywhere. -/
theorem holdsGroups_zeros (buf : Memory 8) (h : ∀ i, Memory.read buf i = 0) :
    ∀ n k, holdsGroups buf k (List.replicate n (0, 0, 0))
  | 0, _ => trivial
  | n + 1, _ => ⟨h _, h _, fun _ => h _, holdsGroups_zeros buf h n _⟩

/-- DecodeLineWritesExactlyOneRow: the first and last visible line; a line above, one below, and one with no group. -/
theorem witness_DecodeLineWritesExactlyOneRow :
    (∀ curLine groups, (atLine curLine groups).videoBuf.size = 110592) ∧
    AtLine 0 1 (fun y => 0 ≤ y.curLine.toInt ∧ y.curLine.toInt < 576 ∧ y.lineBufGroups ≠ 0) ∧
    AtLine 575 1 (fun y => 0 ≤ y.curLine.toInt ∧ y.curLine.toInt < 576 ∧ y.lineBufGroups ≠ 0) ∧
    AtLine (-1) 1 (fun y => y.curLine.toInt < 0) ∧ AtLine 576 1 (fun y => 576 ≤ y.curLine.toInt) ∧
    AtLine 0 0 (fun y => y.lineBufGroups = 0) :=
  ⟨fun _ _ => reset_videoBuf_size, by decide +kernel⟩

/-- DecodeLineWritesExactlyOneRow: the group of such a line, and its last source pixel. -/
theorem witness_DecodeLineWritesExactlyOneRow_groups :
    let gs : List (Byte × Byte × Byte) := List.replicate 1 (0, 0, 0)
    gs.length = (atLine 0 1).sync.lineBufGroups.toNat ∧ holdsGroups (atLine 0 1).sync.lineBuf 0 gs ∧
    gs[3 / 4]? = some (0, 0, 0) :=
  ⟨by decide, holdsGroups_zeros _ (fun _ => (Memory.read_fill _ _ _).trans (ite_self _)) _ _, by decide⟩

/-- NominalLineRoundTrip: 96 groups, the last pixel of the row. -/
theorem witness_NominalLineRoundTrip :
    let s := inLine 0 96 192
    let gs : List (Byte × Byte × Byte) := List.replicate 96 (0, 0, 0)
    s.videoBuf.size = 110592 ∧ 0 ≤ s.sync.curLine.toInt ∧ s.sync.curLine.toInt < 576 ∧ s.sync.lineBufGroups = 96 ∧
    gs.length = 96 ∧ holdsGroups s.sync.lineBuf 0 gs ∧ 383 < 384 ∧ gs[383 / 4]? = some (0, 0, 0) := by
  refine ⟨reset_videoBuf_size, by decide, by decide, rfl, by decide, ?_, by decide, by decide⟩
  refine holdsGroups_zeros _ (fun k => ?_) _ _
  exact (Memory.read_fill _ _ _).trans (ite_self _)

/-- BlendStaysBetweenPixels: both pixel widths, the greatest fraction. -/
theorem witness_BlendStaysBetweenPixels :
    cfg0.pixT = 32 ∧ 383 < 384 ∧ { cfg0 with pixT := 16 }.pixT = 16 ∧ (0xFFFF : Pixel).toNat < 2 ^ 16 ∧
    (24, 8) ∈ [(0, 8), (8, 8), (16, 8), (24, 8)] ∧ (11, 5) ∈ [(0, 5), (5, 6), (11, 5)] := by
  decide +kernel

/-- The exact reference instance meets the constraints that a computation can check. -/
theorem cfg0Exact_wf : cfg0Exact.wf = true := by
  have h : cfg0Exact.wf = cfg0.wf := rfl
  rw [h]
  decide +kernel

/-- NeutralTransformIsClamp, BandSevenIsBlanking and PatternBandUsesSixSelectorBits: the reference instance, over the
exact numbers and over the machine's, the last index. -/
theorem witness_NeutralTransformIsClamp_BandSevenIsBlanking :
    (cfg0Exact.wf = true ∧ cfg0Exact.arith = exactArith ∧ cfg0Exact.numerics.Lawful ∧ cfg0Exact.arith.KeepsZero) ∧
    (cfg0.wf = true ∧ cfg0.arith.KeepsZero ∧ cfg0.wR + cfg0.wG + cfg0.wB = 1) ∧
    cfg0Exact.wR + cfg0Exact.wG + cfg0Exact.wB = 1 ∧ 255 < 256 := by
  have h : cfg0.wR + cfg0.wG + cfg0.wB = 1 := by decide +kernel
  exact ⟨⟨cfg0Exact_wf, rfl, exactNumerics_lawful, exactArith_keepsZero⟩,
    ⟨by decide +kernel, realArith_keepsZero, h⟩, h, by decide⟩

/-- BuiltEntryIsExact: the roundings of the PAL burst entry are decided in both formats. -/
theorem witness_BuiltEntryIsExact :
    let k := bandColour cfg0 neutralCcp identityIdxYuv (cfg0.bandRow 8) 0
    (roundingDecided (yuvLevels cfg0 k).y = true ∧ roundingDecided (yuvLevels cfg0 k).u = true ∧
      roundingDecided (yuvLevels cfg0 k).v = true) ∧
    roundingDecided (rgbLevels cfg0 k).r = true ∧ roundingDecided (rgbLevels cfg0 k).g = true ∧
    roundingDecided (rgbLevels cfg0 k).b = true := by decide +kernel

/-- EveryConfigurationKeepsMemoryAndRing: the reference instance and its reset state. -/
theorem witness_EveryConfigurationKeepsMemoryAndRing :
    cfg0.wf = true ∧ State.reset.memoryWf cfg0 ∧ State.reset.ringInv cfg0 :=
  ⟨by decide +kernel, reset_memoryWf, by decide +kernel⟩

/-- MonochromeBandIgnoresChroma: band 6 of the reference table, parameters that differ in hue and saturation, tables
that differ in chroma. -/
theorem witness_MonochromeBandIgnoresChroma :
    let act := neutralCcp
    let act' := Memory.write (Memory.write neutralCcp 3 5) 4 0
    let row := cfg0.bandRow 6
    let tab := identityIdxYuv
    let tab' := Memory.write identityIdxYuv (idxYuvAt row.ntsc 128 1) 0x2000
    row.uScale = 0 ∧ row.vScale = 0 ∧ Memory.read act 3 ≠ Memory.read act' 3 ∧
    Memory.read tab (idxYuvAt row.ntsc 128 1) ≠ Memory.read tab' (idxYuvAt row.ntsc 128 1) ∧
    Memory.read tab (idxYuvAt row.ntsc 128 0) = Memory.read tab' (idxYuvAt row.ntsc 128 0) := by decide +kernel

/-- MonochromeBandIgnoresChroma: those parameters agree on every other index. -/
theorem witness_MonochromeBandIgnoresChroma_parameters (k : Nat) (h3 : k ≠ 3) (h4 : k ≠ 4) :
    Memory.read neutralCcp k = Memory.read (Memory.write (Memory.write neutralCcp 3 5) 4 0) k := by
  rw [Memory.read_write_other _ _ (Ne.symm h4), Memory.read_write_other _ _ (Ne.symm h3)]

/-- ChromaIsLimited: the exact reference instance, a magnitude of 0.5, and one of exactly 0.21. -/
theorem witness_ChromaIsLimited :
    cfg0Exact.arith = exactArith ∧ cfg0Exact.numerics.sqrt = Real.sqrt ∧ cfg0Exact.chromaMax = 21 / 100 ∧
    ((21 / 100) * (21 / 100) < (3 / 10 : ℝ) * (3 / 10) + (4 / 10) * (4 / 10)) ∧
    (21 / 100 : ℝ) * (21 / 100) + 0 * 0 ≤ (21 / 100) * (21 / 100) :=
  ⟨rfl, rfl, rfl, by norm_num, by norm_num⟩

/-- BuildFollowsPipelineOrder: the exact reference instance, the last entry. -/
theorem witness_BuildFollowsPipelineOrder : cfg0Exact.arith = exactArith ∧ 17 < 18 ∧ 255 < 256 :=
  ⟨rfl, by decide, by decide⟩

/-- PlanarSplitsAndAverages: the last element of each plane. -/
theorem witness_PlanarSplitsAndAverages :
    287 < cfg0.videoHeight ∧ 383 < cfg0.videoWidth ∧ 143 < cfg0.videoHeight / 2 ∧ 191 < cfg0.videoWidth / 2 := by
  decide +kernel

/-- StillPictureIsReproduced: the shortest and the longest interval. -/
theorem witness_StillPictureIsReproduced :
    255 < 256 ∧ 1 ≤ 1 ∧ 255 * 1 < 2 ^ 31 ∧ 1 ≤ 8421504 ∧ 255 * 8421504 < 2 ^ 31 := by decide

/-- OutputByteIsWeightedMean: the greatest accumulator of the longest interval. -/
theorem witness_OutputByteIsWeightedMean :
    1 ≤ 8421504 ∧ 255 * 8421504 < 2 ^ 31 ∧ (2147483520 : U32).toNat ≤ 255 * 8421504 := by decide

/-- BoundaryStepEmitsAverage: a boundary after `outTime`, and one at it. -/
theorem witness_BoundaryStepEmitsAverage :
    State.reset.memoryWf cfg0 ∧ ((8 : U64) - State.reset.frame.outTime).toNat ≠ 0 ∧
    ((0 : U64) - State.reset.frame.outTime).toNat = 0 ∧ 110591 < 110592 ∧ 27647 < 27648 :=
  ⟨reset_memoryWf, by decide, by decide, by decide, by decide⟩

/-- FoldIsRoundedMean. -/
theorem witness_FoldIsRoundedMean : (List.replicate 8 (0x8000 : S16)).length = 8 := by decide

/-- A state at the eighth audio cycle in this phase, with the converter about to put out a sample that latches a
boundary. -/
def eighthCycle (phase : U32) : State :=
  { State.reset with
    sync := { State.reset.sync with lineCnt := phase }
    audio := { State.reset.audio with
      audioSum := 229369, audioCnt := 7, ringCount := 959, ringWr := 959, accCnt := 959
      rs := { State.reset.audio.rs with phase := 221680 } } }

/-- EighthCycleFoldsIntoRing: inside a line, and at the end of one. -/
theorem witness_EighthCycleFoldsIntoRing :
    (smpSync cfg0 (cfg0.mode false) 0x1C (eighthCycle 0).sync).vsyncCnt.toInt ≠ -1 ∧
    (smpSync cfg0 (cfg0.mode false) 0x1C (eighthCycle 113).sync).vsyncCnt.toInt ≠ -1 ∧
    (eighthCycle 0).ntsc = false ∧ (eighthCycle 0).audio.audioCnt = 7 ∧ (eighthCycle 113).audio.audioCnt = 7 ∧
    (eighthCycle 0).ringInv cfg0 ∧ (eighthCycle 0).converterInv cfg0 ∧ (eighthCycle 113).ringInv cfg0 ∧
    (eighthCycle 113).converterInv cfg0 := by decide +kernel

/-- EighthCycleFoldsIntoRing: the sizes of that state are those of reset. -/
theorem witness_EighthCycleFoldsIntoRing_memoryWf (phase : U32) : (eighthCycle phase).memoryWf cfg0 := reset_memoryWf

/-- RingIsBoundedFifo: empty, one sample short of full, full, and exactly one slice. Each row is `ringCount`, `ringWr`,
`accCnt`, `bndCount`. -/
theorem witness_RingIsBoundedFifo : ∀ x ∈ [(0, 0, 0, 0), (7679, 7679, 959, 7), (7680, 0, 0, 8), (960, 960, 0, 1)],
    let s := { State.reset with
      audio := { State.reset.audio with ringCount := x.1, ringWr := x.2.1, accCnt := x.2.2.1 }
      frame := { State.reset.frame with bndCount := x.2.2.2 } }
    s.audio.ring.size = 7680 ∧ s.frame.bndFifo.size = 8 ∧ s.ringInv cfg0 := by decide +kernel

/-- ConverterOutputCount: the least input rate and the greatest rates. -/
theorem witness_ConverterOutputCount : 1 ≤ 1 ∧ 1 < 2 ^ 32 ∧ 2 ^ 32 - 1 < 2 ^ 32 := by decide

/-- ConverterOutputInterpolates: V51's first output. -/
theorem witness_ConverterOutputInterpolates :
    let st : RsState := { inRate := 221681, outRate := 48000, phase := 192000, prev := 400 }
    st.phase.toNat < st.inRate.toNat ∧ (462 : S16) ∈ (refResampler.step st 500).2 := by decide +kernel

/-- StepKeepsStateGood, StepKeepsTimesInOrder: a state that is not the reset state is good. -/
theorem witness_StepKeepsStateGood : beforeFrame.Good cfg0 where
  memory := beforeFrame_memoryWf
  params := fun idx h => ⟨neutralCcp_inRange idx h, neutralCcp_inRange idx h⟩
  bands := fun p hp => by
    have h := read_buildTable cfg0 false (BitVec.ofNat 8 p)
    rw [BitVec.toNat_ofNat, Nat.mod_eq_of_lt (by omega)] at h
    have hb := bandOf_cfg0_lt false (BitVec.ofNat 8 p)
    refine Nat.lt_of_le_of_lt (Nat.le_of_eq (congrArg BitVec.toNat h)) ?_
    rw [BitVec.toNat_ofNat]
    omega
  line := by decide +kernel
  buffer := by decide +kernel
  row := by decide +kernel
  ring := by decide +kernel
  converter := by decide +kernel

/-- StepKeepsStateGood, StepKeepsTimesInOrder: its times are in order, the counter is far from wrapping, and its step
answers the next state of an SMP. -/
theorem witness_StepKeepsTimesInOrder :
    beforeFrame.timesInOrder ∧ beforeFrame.cycleCnt.toNat + 1 < 2 ^ 64 ∧
    step beforeFrame = .next (smp cfg0 0x1C 0 0 1000 { beforeFrame with input := [] }) := by
  refine ⟨by decide +kernel, by decide +kernel, ?_⟩
  have h : decode 0x100003E80000001C = .smp 0x1C 0 0 1000 := by decide +kernel
  exact congrArg (fun i => exec i { beforeFrame with input := [] }) h

end Sys2Proof.Tests
end

section
/-! The configuration and access commands (40_config_ops.md R81, R86, R88, R90, R91): what the words of their opcodes decode
to, what each command does to the state, and the proofs of O8, O12, O14 and O16. -/

namespace Sys2Proof

/-! ## The words of one opcode (30_encoding.md R55, R56) -/

theorem opcode_lt (w : BitVec 64) : opcode w < 16 := (w.extractLsb' 60 4).isLt

theorem decode_of_opcode_nop {w : BitVec 64} (h : opcode w = 0x0) : decode w = .nop := by
  simp only [decode, h]

theorem decode_of_opcode_syuv {w : BitVec 64} (h : opcode w = 0x5) :
    decode w =
      .syuv (w.getLsbD 42) (w.extractLsb' 40 2).toNat (w.extractLsb' 32 8).toNat (w.extractLsb' 0 32) := by
  simp only [decode, h]

theorem decode_of_opcode_cmrd {w : BitVec 64} (h : opcode w = 0x7) :
    decode w = .cmrd (w.extractLsb' 32 13).toNat := by
  simp only [decode, h]

theorem decode_of_opcode_rdsr {w : BitVec 64} (h : opcode w = 0x9) :
    decode w = .rdsr (w.extractLsb' 32 8).toNat := by
  simp only [decode, h]

/-- The opcodes from 0xB on are the five reserved ones, each with a command of its own (R91). -/
theorem decode_of_opcode_reserved {w : BitVec 64} (h : 0xB ≤ opcode w) :
    decode w = .reservedB ∨ decode w = .reservedC ∨ decode w = .reservedD ∨ decode w = .reservedE ∨
      decode w = .reservedF := by
  have hlt := opcode_lt w
  have hop : opcode w = 0xB ∨ opcode w = 0xC ∨ opcode w = 0xD ∨ opcode w = 0xE ∨ opcode w = 0xF := by omega
  rcases hop with hop | hop | hop | hop | hop <;> simp [decode, hop]

namespace Machine

/-! ## The meaning of each command -/

@[simp] theorem exec_nop (s : State) : exec .nop s = .next s := rfl
@[simp] theorem exec_reservedB (s : State) : exec .reservedB s = .next s := rfl
@[simp] theorem exec_reservedC (s : State) : exec .reservedC s = .next s := rfl
@[simp] theorem exec_reservedD (s : State) : exec .reservedD s = .next s := rfl
@[simp] theorem exec_reservedE (s : State) : exec .reservedE s = .next s := rfl
@[simp] theorem exec_reservedF (s : State) : exec .reservedF s = .next s := rfl

theorem exec_syuv (n : Bool) (cmp idx : Nat) (val : S32) (s : State) :
    exec (.syuv n cmp idx val) s = .next (writeIdxYuv n cmp idx val s) := rfl

theorem exec_cmrd (addr : Nat) (s : State) :
    exec (.cmrd addr) s = .next (emit (.readData (colormapAnswer s addr)) s) := rfl

theorem exec_rdsr (idx : Nat) (s : State) :
    exec (.rdsr idx) s = .next (emit (.readData (statusView s idx)) s) := rfl

/-! ## NOP and the reserved opcodes -/

/-- Settles O8: such a word decodes to one of six commands, and each of them holds the state. -/
theorem nopAndReservedChangeNothing : Obligations.NopAndReservedChangeNothing := by
  refine ⟨fun w s hop => ?_, fun s => ⟨exec_nop s, exec_reservedB s, exec_reservedC s, exec_reservedD s,
    exec_reservedE s, exec_reservedF s⟩⟩
  rcases hop with hop | hop
  · rw [decode_of_opcode_nop hop, exec_nop]
  · rcases decode_of_opcode_reserved hop with h | h | h | h | h <;> simp [h]

/-! ## SYUV -/

theorem bit_le_one (b : Bool) : bit b ≤ 1 := by cases b <;> decide

theorem bit_inj {a b : Bool} : bit a = bit b ↔ a = b := by cases a <;> cases b <;> decide

/-- The place of every value lies in the table of R16. -/
theorem idxYuvAt_lt (n : Bool) {i cmp : Nat} (hi : i < 256) (hc : cmp ≤ 2) : idxYuvAt n i cmp < 1536 := by
  have := bit_le_one n
  unfold idxYuvAt
  omega

/-- Two values of the table stand at different places (R16). -/
theorem idxYuvAt_inj {n n' : Bool} {i i' cmp cmp' : Nat} (hi : i < 256) (hi' : i' < 256) (hc : cmp ≤ 2)
    (hc' : cmp' ≤ 2) (h : idxYuvAt n i cmp = idxYuvAt n' i' cmp') : (n, i, cmp) = (n', i', cmp') := by
  have hplace : bit n = bit n' ∧ i = i' ∧ cmp = cmp' := by
    unfold idxYuvAt at h
    omega
  obtain ⟨hn, rfl, rfl⟩ := hplace
  rw [bit_inj.mp hn]

/-- Settles O12: the place written lies in the table, and no other value of the table stands there. -/
theorem syuvWritesOneValue : Obligations.SyuvWritesOneValue := by
  refine ⟨fun w hop => decode_of_opcode_syuv hop, decode_of_opcode_syuv (by decide), ?_⟩
  intro n cmp idx val s hsize hidx
  rw [exec_syuv]
  rcases writeIdxYuv_cases n cmp idx val s with ⟨hcmp, hwrite⟩ | ⟨hcmp, hwrite⟩
  · have hplace : idxYuvAt n idx cmp < s.idxYuv.size := hsize ▸ idxYuvAt_lt n hidx hcmp
    refine ⟨fun _ => ⟨_, rfl, ?_⟩, by omega⟩
    rw [hwrite]
    refine ⟨Memory.read_write_same _ _ hplace, fun n' idx' cmp' hidx' hcmp' hne => ?_,
      (Memory.size_write _ _ _).trans hsize, rfl⟩
    exact Memory.read_write_other _ _ fun h => hne (idxYuvAt_inj hidx hidx' hcmp hcmp' h).symm
  · exact ⟨by omega, fun _ => by rw [hwrite]⟩

/-! ## CMRD -/

theorem colormapAnswer_inside (s : State) {addr : Nat} (h : addr < 4608) :
    colormapAnswer s addr = Memory.read s.colormapData addr := if_pos h

theorem colormapAnswer_outside (s : State) {addr : Nat} (h : 4608 ≤ addr) : colormapAnswer s addr = 0 :=
  if_neg (Nat.not_lt.mpr h)

/-- The blanking pixel, which reset leaves in entry `7 * 256` of the colormap (70_reset_and_hazards.md R232). -/
theorem read_resetColormap_blanking : Memory.read (resetColormap cfg0) (7 * 256 + 0) = 0x00808010 := by
  rw [resetColormap, read_buildData _ _ _ _ (by decide) (by decide)]
  decide +kernel

/-- Settles O14: CMRD emits `colormapAnswer`, whose two cases are the entry and 0. -/
theorem cmrdAnswersEntry : Obligations.CmrdAnswersEntry := by
  refine ⟨fun w hop => decode_of_opcode_cmrd hop, ?_, fun addr s => ⟨fun h => ?_, fun h => ?_⟩⟩
  · have hdecode : decode 0x7000070000000000 = .cmrd (7 * 256 + 0) := decode_of_opcode_cmrd (by decide)
    have hanswer : colormapAnswer State.reset (7 * 256 + 0) = 0x00808010 :=
      (colormapAnswer_inside _ (by decide)).trans read_resetColormap_blanking
    rw [hdecode, exec_cmrd, hanswer]
    exact ⟨_, rfl, rfl⟩
  · rw [exec_cmrd, colormapAnswer_inside s h, emit]
  · rw [exec_cmrd, colormapAnswer_outside s h, emit]

/-! ## RDSR -/

/-- The low word of the cycle counter, as a number. -/
theorem lowWord_eq_ofNat (x : U64) : x.extractLsb' 0 32 = BitVec.ofNat 32 (x.toNat % 2 ^ 32) := by
  apply BitVec.eq_of_toNat_eq
  simp

/-- The high word of the cycle counter, as a number. -/
theorem highWord_eq_ofNat (x : U64) : x.extractLsb' 32 32 = BitVec.ofNat 32 (x.toNat / 2 ^ 32) := by
  apply BitVec.eq_of_toNat_eq
  simp [Nat.shiftRight_eq_div_pow]

/-- Settles O16: RDSR emits `statusView`, and the view agrees with the list at each of its sixteen places and beyond. -/
theorem rdsrAnswersStatusView : Obligations.RdsrAnswersStatusView := by
  refine ⟨fun w hop => decode_of_opcode_rdsr hop, ?_, fun idx s => ⟨statusView s idx, by rw [exec_rdsr, emit], ?_⟩⟩
  · have hdecode : decode 0x9000000300000000 = .rdsr 3 := decode_of_opcode_rdsr (by decide)
    have hanswer : statusView State.reset 3 = 114 := rfl
    rw [hdecode, exec_rdsr, hanswer]
    exact ⟨_, rfl, rfl⟩
  · rw [← lowWord_eq_ofNat, ← highWord_eq_ofNat]
    match idx with
    | 0 | 1 | 2 | 3 | 4 | 5 | 6 | 7 | 8 | 9 | 10 | 11 | 12 | 13 | 14 | 15 => rfl
    | _ + 16 => rfl

end Machine
end Sys2Proof
end

section
/-! Facts of the built colormap and its table under every configuration that meets R5 (41_colormap.md R115, R116): what the
constraints of R5 say of bands, what band 7 does to a colour, which bits of a pattern select its band, and the proofs of
O35 and O38. -/

namespace Sys2Proof

variable {R σ : Type}

/-! ## What the constraints of R5 say of bands -/

/-- Band 7 scales its luma and chroma by 0 (R108). -/
theorem Cfg.bandRow_seven_scales {c : Cfg R σ} (h : c.wf = true) :
    (c.bandRow 7).yScale = 0 ∧ (c.bandRow 7).uScale = 0 ∧ (c.bandRow 7).vScale = 0 := by
  simp only [Cfg.wf, Bool.and_eq_true, decide_eq_true_eq] at h
  obtain ⟨⟨⟨⟨_, hy⟩, hu⟩, hv⟩, _⟩ := h
  exact ⟨hy, hu, hv⟩

/-- Every entry of `BAND_INDEX` is one of the 18 bands (R109). -/
theorem Cfg.lt_of_mem_bandIndex {c : Cfg R σ} (h : c.wf = true) : ∀ b ∈ c.bandIndex, b < 18 := by
  simp only [Cfg.wf, Bool.and_eq_true, decide_eq_true_eq, List.all_eq_true] at h
  obtain ⟨⟨⟨⟨⟨⟨_, hindex⟩, _⟩, _⟩, _⟩, _⟩, _⟩ := h
  exact hindex

theorem Cfg.wf_mode {c : Cfg R σ} (h : c.wf = true) (ntsc : Bool) : (c.mode ntsc).wf c = true := by
  simp only [Cfg.wf, Bool.and_eq_true] at h
  cases ntsc <;> simp [Cfg.mode, h]

/-- The sync band and the burst band of a mode are two of the 18 bands (R109). -/
theorem ModeCfg.bands_lt {m : ModeCfg} {c : Cfg R σ} (h : m.wf c = true) : m.bandSync < 18 ∧ m.bandBurst < 18 := by
  simp only [ModeCfg.wf, Bool.and_eq_true, decide_eq_true_eq] at h
  obtain ⟨⟨_, hsync⟩, hburst⟩ := h
  exact ⟨hsync, hburst⟩

namespace Machine

/-! ## The band of a pattern -/

/-- Every pattern has one of the 18 bands (R65, R108). -/
theorem bandOf_lt {c : Cfg R σ} (h : c.wf = true) (ntsc : Bool) (p : Byte) : bandOf c ntsc p < 18 := by
  obtain ⟨hsync, hburst⟩ := ModeCfg.bands_lt (c.wf_mode h ntsc)
  unfold bandOf
  split
  · exact hsync
  · split
    · exact hburst
    · rw [List.getD_eq_getElem?_getD]
      cases hb : c.bandIndex[16 * bit ntsc + flagCtx p]? with
      | none => decide
      | some b => exact c.lt_of_mem_bandIndex h b (List.mem_of_getElem? hb)

/-! The mask `0xFC` keeps the bits 7, 6 and 5:2 that R65 selects by. -/

theorem flagSync_selectorBits (p : Byte) : flagSync (p &&& 0xFC) = flagSync p := by simp [flagSync]

theorem flagBurst_selectorBits (p : Byte) : flagBurst (p &&& 0xFC) = flagBurst p := by simp [flagBurst]

theorem flagCtx_selectorBits (p : Byte) : flagCtx (p &&& 0xFC) = flagCtx p := by
  have hmask : (0xFC : Byte).extractLsb' 2 4 = BitVec.allOnes 4 := by decide
  rw [flagCtx, BitVec.extractLsb'_and, hmask, BitVec.and_allOnes, flagCtx]

theorem bandOf_selectorBits (c : Cfg R σ) (ntsc : Bool) (p : Byte) : bandOf c ntsc (p &&& 0xFC) = bandOf c ntsc p := by
  rw [bandOf, flagSync_selectorBits, flagBurst_selectorBits, flagCtx_selectorBits, bandOf]

/-- The five bits of a table entry hold the whole number of its band (R113). -/
theorem read_buildTable_toNat {c : Cfg R σ} (h : c.wf = true) (ntsc : Bool) (p : Byte) :
    (Memory.read (buildTable c ntsc) p.toNat).toNat = bandOf c ntsc p := by
  have := bandOf_lt h ntsc p
  rw [read_buildTable, BitVec.toNat_ofNat, Nat.mod_eq_of_lt (by omega)]

/-- Settles O38: the table holds `bandOf`, which is a band and reads its pattern through the three selectors only. -/
theorem patternBandUsesSixSelectorBits : Obligations.PatternBandUsesSixSelectorBits := by
  intro R σ c ntsc hwf
  refine ⟨size_buildTable c ntsc, fun p => ⟨?_, ?_⟩⟩
  · rw [read_buildTable_toNat hwf]
    exact bandOf_lt hwf ntsc p
  · rw [read_buildTable, read_buildTable, bandOf_selectorBits]

/-! ## Band 7 -/

/-- A band that scales luma and chroma by 0 has the colour of the zero triple, whatever came before the scales (R112). -/
theorem bandColour_of_zero_scales {c : Cfg R σ} (hzero : c.arith.KeepsZero) (act idxYuv : Memory 32) {row : BandRow}
    (i : Nat) (hy : row.yScale = 0) (hu : row.uScale = 0) (hv : row.vScale = 0) :
    bandColour c act idxYuv row i = cc c act (realOf c 0) (realOf c 0) (realOf c 0) := by
  have hscale : ∀ x : R, (letI := c.arith; x * realOf c 0) = realOf c 0 := hzero.mul_zero
  simp only [bandColour, hy, hu, hv, hscale]

/-! ## The values of the blanking pixel -/

/-- The colour 0 on each channel, on the machine's numbers. -/
def blackRgb : Rgb RealExpr := { r := .rat 0, g := .rat 0, b := .rat 0 }

/-- No chroma stays no chroma through hue and saturation (R102). -/
theorem ccChroma_zero {c : Cfg R σ} (hzero : c.arith.KeepsZero) (act : Memory 32) :
    ccChroma c act (realOf c 0) (realOf c 0) = (realOf c 0, realOf c 0) := by
  obtain ⟨hadd, hsub, hmul, _⟩ := hzero
  simp only [ccChroma, rotateChroma, realOf, hadd, hsub, hmul]

/-- Black without chroma is black in RGB (R103). -/
theorem ccRgb_black : ccRgb cfg0 (.rat 0) (.rat 0) (.rat 0) = blackRgb := by
  decide +kernel

/-- The neutral parameters leave 0 alone on each of the three channels (R104). -/
theorem ccChannel_neutral_zero : ∀ ch ∈ [5, 8, 11], ccChannel cfg0 neutralCcp ch (.rat 0) = .rat 0 := by
  decide +kernel

/-- With the neutral parameters black stays black (R105). -/
theorem cc_neutral_black : cc cfg0 neutralCcp (.rat 0) (.rat 0) (.rat 0) = blackRgb := by
  have hchroma : ccChroma cfg0 neutralCcp (.rat 0) (.rat 0) = (.rat 0, .rat 0) :=
    ccChroma_zero realArith_keepsZero neutralCcp
  simp [cc, hchroma, ccRgb_black, blackRgb, ccChannel_neutral_zero]

/-- Black in YUV32, RGB32 and RGB16 (R106, R107, R114). -/
theorem packPixel_black :
    packPixel cfg0 true blackRgb = 0x00808010 ∧ packPixel cfg0 false blackRgb = 0x00000000 ∧
    packPixel { cfg0 with pixT := 16 } false blackRgb = 0x0000 := by decide +kernel

/-- Settles O35: band 7 scales by 0, so its entries are those of the zero triple, which under `Cfg0` is black, whatever
the pixel width. -/
theorem bandSevenIsBlanking : Obligations.BandSevenIsBlanking := by
  obtain ⟨hyuv32, hrgb32, hrgb16⟩ := packPixel_black
  refine ⟨?_, ⟨exactArith_keepsZero, realArith_keepsZero⟩, ?_, ?_, ?_⟩
  · intro R σ c act idxYuv actYuv i hwf hzero hi
    obtain ⟨hy, hu, hv⟩ := c.bandRow_seven_scales hwf
    rw [read_buildData c act actYuv idxYuv (by decide) hi, colormapEntry,
      bandColour_of_zero_scales hzero act idxYuv i hy hu hv]
  · rw [cc_neutral_black, hyuv32]
  · rw [cc_neutral_black, hrgb32]
  · have hcc : cc { cfg0 with pixT := 16 } neutralCcp (.rat 0) (.rat 0) (.rat 0) = blackRgb := cc_neutral_black
    rw [hcc, hrgb16]

end Machine
end Sys2Proof
end

section
/-! The lane-by-lane meaning of `blend` (42_demodulator.md R153): a pixel is determined by its lanes, the lanes of a blended
pixel are the blended lanes, and the proof of O33. -/

namespace Sys2Proof.Machine

variable {R σ : Type}

/-- The pixel is one of the instance's format: any 32-bit number, or a 16-bit number in a 32-bit word (log entry 15). -/
def FitsFormat (c : Cfg R σ) (p : Pixel) : Prop := c.pixT = 32 ∨ c.pixT = 16 ∧ p.toNat < 2 ^ 16

theorem FitsFormat.width {c : Cfg R σ} {p : Pixel} (h : FitsFormat c p) : c.pixT = 32 ∨ c.pixT = 16 :=
  h.imp_right And.left

theorem mem_pixelLanes_of_32 {c : Cfg R σ} (h : c.pixT = 32) {lane : Nat × Nat} :
    lane ∈ pixelLanes c ↔ lane = (0, 8) ∨ lane = (8, 8) ∨ lane = (16, 8) ∨ lane = (24, 8) := by
  simp [pixelLanes, h]

theorem mem_pixelLanes_of_16 {c : Cfg R σ} (h : c.pixT = 16) {lane : Nat × Nat} :
    lane ∈ pixelLanes c ↔ lane = (0, 5) ∨ lane = (5, 6) ∨ lane = (11, 5) := by
  simp [pixelLanes, h]

/-- A pixel is determined by its lanes. -/
theorem pixel_eq_of_lanes {c : Cfg R σ} {p q : Pixel} (hp : FitsFormat c p) (hq : FitsFormat c q)
    (hlanes : ∀ lane ∈ pixelLanes c, laneOf p lane = laneOf q lane) : p = q := by
  apply BitVec.eq_of_toNat_eq
  rcases hp with h | ⟨h, hp⟩
  · simp only [mem_pixelLanes_of_32 h, forall_eq_or_imp, forall_eq] at hlanes
    obtain ⟨h0, h1, h2, h3⟩ := hlanes
    rw [toNat_of_lanes32 p, toNat_of_lanes32 q, h0, h1, h2, h3]
  · have hq : q.toNat < 2 ^ 16 := hq.elim (fun h32 => by omega) And.right
    simp only [mem_pixelLanes_of_16 h, forall_eq_or_imp, forall_eq] at hlanes
    obtain ⟨h0, h1, h2⟩ := hlanes
    rw [toNat_of_lanes16 hp, toNat_of_lanes16 hq, h0, h1, h2]

/-! ## The blended pixel -/

/-- Each lane of a blended pixel is the blend of the two lanes. -/
theorem laneOf_blend {c : Cfg R σ} (hc : c.pixT = 32 ∨ c.pixT = 16) (a b : Pixel) {f w : Nat} (hf : f < w)
    {lane : Nat × Nat} (hlane : lane ∈ pixelLanes c) :
    laneOf (blend c a b f w) lane = blendLane (laneOf a lane) (laneOf b lane) f w := by
  have hlt (lsb width : Nat) {n : Nat} (hn : 2 ^ width = n) := blendLane_lt a b lsb width hn hf
  rcases hc with h | h
  · obtain ⟨h0, h1, h2, h3⟩ :=
      lanes32 (hlt 0 8 rfl) (hlt 8 8 rfl) (hlt 16 8 rfl) (hlt 24 8 rfl) (blend32_toNat h a b hf)
    rcases (mem_pixelLanes_of_32 h).mp hlane with rfl | rfl | rfl | rfl <;> assumption
  · obtain ⟨h0, h1, h2⟩ := lanes16 (hlt 0 5 rfl) (hlt 5 6 rfl) (hlt 11 5 rfl) (blend16_toNat h a b hf)
    rcases (mem_pixelLanes_of_16 h).mp hlane with rfl | rfl | rfl <;> assumption

/-- At 16 bits a blended pixel is again a 16-bit number. -/
theorem blend16_lt {c : Cfg R σ} (h : c.pixT = 16) (a b : Pixel) {f w : Nat} (hf : f < w) :
    (blend c a b f w).toNat < 2 ^ 16 := by
  have h0 := blendLane_lt a b 0 5 rfl hf
  have h1 := blendLane_lt a b 5 6 rfl hf
  have h2 := blendLane_lt a b 11 5 rfl hf
  rw [blend16_toNat h a b hf]
  omega

theorem blend_fitsFormat {c : Cfg R σ} (hc : c.pixT = 32 ∨ c.pixT = 16) (a b : Pixel) {f w : Nat} (hf : f < w) :
    FitsFormat c (blend c a b f w) :=
  hc.imp_right fun h => ⟨h, blend16_lt h a b hf⟩

/-- A blend that leaves each lane of its first pixel as it is gives that pixel. -/
theorem blend_eq_left {c : Cfg R σ} {a b : Pixel} (ha : FitsFormat c a) {f w : Nat} (hf : f < w)
    (hlanes : ∀ lane ∈ pixelLanes c, blendLane (laneOf a lane) (laneOf b lane) f w = laneOf a lane) :
    blend c a b f w = a :=
  pixel_eq_of_lanes (blend_fitsFormat ha.width a b hf) ha fun lane hlane =>
    (laneOf_blend ha.width a b hf hlane).trans (hlanes lane hlane)

/-- Settles O33: each property is that of the blended lanes, and a pixel is determined by its lanes. -/
theorem blendStaysBetweenPixels : Obligations.BlendStaysBetweenPixels := by
  intro R σ c a b f w hfit hf
  have ha : FitsFormat c a := hfit.imp_right fun ⟨h, ha, _⟩ => ⟨h, ha⟩
  refine ⟨blend_eq_left ha (by omega) fun lane _ => blendLane_zero _ _ (by omega),
    blend_eq_left ha hf fun lane _ => blendLane_self _ hf, fun h => blend16_lt h a b hf, fun lane hlane => ?_⟩
  have hblend := laneOf_blend ha.width a b hf hlane
  obtain ⟨hmin, hmax⟩ := blendLane_between (laneOf a lane) (laneOf b lane) hf
  rw [hblend]
  exact ⟨rfl, hmin, hmax⟩

end Sys2Proof.Machine
end

section
/-! The elements of PLANAR in rows and columns (43_frame_resampler.md R171): where an element stands in its plane, what
the luma and chroma elements hold, and the proof of O40. -/

namespace Sys2Proof.Machine

variable {R σ : Type}

/-! ## A plane in row-major order -/

theorem rowMajor_lt {w h r x : Nat} (hr : r < h) (hx : x < w) : r * w + x < w * h := by
  rw [Nat.mul_comm r, Nat.mul_comm w h]
  exact Nat.mul_add_lt_mul_of_lt_of_lt hr hx

theorem rowMajor_div (r : Nat) {w x : Nat} (hx : x < w) : (r * w + x) / w = r := by
  rw [Nat.mul_comm, Nat.mul_add_div (by omega), Nat.div_eq_of_lt hx, Nat.add_zero]

/-! ## The elements of PLANAR -/

/-- The sum of four bytes leaves the mean inside a byte, so it is not truncated. -/
theorem toNat_mean4 (a b cc d : Byte) :
    (mean4 a b cc d).toNat = (a.toNat + b.toNat + cc.toNat + d.toNat + 2) / 4 := by
  rw [mean4, BitVec.toNat_ofNat, Nat.mod_eq_of_lt (by omega)]

/-- The chroma element of row `r` and column `x` is the mean over the block whose first pixel is in row `2 * r` and
column `2 * x`. -/
theorem chromaAt_rowMajor (c : Cfg R σ) (buf : Memory 32) (channel : Pixel → Byte) (r : Nat) {x : Nat}
    (hx : x < c.videoWidth / 2) :
    chromaAt c buf channel (r * (c.videoWidth / 2) + x) =
      mean4 (channel (Memory.read buf (2 * r * c.videoWidth + 2 * x)))
        (channel (Memory.read buf (2 * r * c.videoWidth + 2 * x + 1)))
        (channel (Memory.read buf ((2 * r + 1) * c.videoWidth + 2 * x)))
        (channel (Memory.read buf ((2 * r + 1) * c.videoWidth + 2 * x + 1))) := by
  simp only [chromaAt, rowMajor_div r hx, Nat.mul_add_mod_of_lt hx]

theorem read_planar_y (c : Cfg R σ) (buf : Memory 32) {k : Nat} (hk : k < c.ny) :
    Memory.read (planar c buf).y k = pixY (Memory.read buf k) :=
  Memory.read_tabulate_lt _ hk

theorem read_planar_v (c : Cfg R σ) (buf : Memory 32) {k : Nat} (hk : k < c.nc) :
    Memory.read (planar c buf).v k = chromaAt c buf pixV k :=
  Memory.read_tabulate_lt _ hk

theorem read_planar_u (c : Cfg R σ) (buf : Memory 32) {k : Nat} (hk : k < c.nc) :
    Memory.read (planar c buf).u k = chromaAt c buf pixU k :=
  Memory.read_tabulate_lt _ hk

/-- Settles O40: an element of row `r` and column `x` lies inside its plane, and its row and column come back from its
index by division. -/
theorem planarSplitsAndAverages : Obligations.PlanarSplitsAndAverages := by
  intro R σ c buf r x
  refine ⟨(Planes.wf_iff c _).mp (planar_wf c buf), fun hr hx => read_planar_y c buf (rowMajor_lt hr hx),
    fun hr hx => ?_⟩
  have hk : r * (c.videoWidth / 2) + x < c.nc := rowMajor_lt hr hx
  constructor
  · rw [read_planar_v c buf hk, chromaAt_rowMajor c buf pixV r hx]
    exact toNat_mean4 _ _ _ _
  · rw [read_planar_u c buf hk, chromaAt_rowMajor c buf pixU r hx]
    exact toNat_mean4 _ _ _ _

end Sys2Proof.Machine
end

section
/-! A rebuild of the colormap does not read the old one (70_reset_and_hazards.md R239): CMWR changes nothing but
`colormapData`, the three commands that rebuild it do not depend on it, and the proof of O19. -/

namespace Sys2Proof.Machine

variable {R σ : Type}

/-! ## The meaning of CMWR and of the three commands that rebuild -/

theorem exec_cmwr (addr : Nat) (data : U32) (s : State) :
    exec (.cmwr addr data) s = .next (writeColormap cfg0 addr data s) := rfl

theorem exec_cbld (yuv : Bool) (s : State) : exec (.cbld yuv) s = .next (commitParams cfg0 yuv s) := rfl

theorem exec_smode (n : Bool) (s : State) : exec (.smode n) s = .next (setMode cfg0 n s) := rfl

theorem exec_rst (s : State) : exec .rst s = .next (resetMachine cfg0 s) := rfl

/-! ## CMWR -/

/-- Whether it writes or is ignored, CMWR changes nothing but the colormap's pixels (R89). -/
theorem writeColormap_frame (c : Cfg R σ) (addr : Nat) (data : U32) (s : State σ) :
    ∃ pixels, writeColormap c addr data s = { s with colormapData := pixels } := by
  rcases writeColormap_cases c addr data s with ⟨_, hwrite⟩ | ⟨_, hignore⟩
  · exact ⟨_, hwrite⟩
  · exact ⟨s.colormapData, hignore⟩

/-! ## The rebuilding commands from a state whose colormap holds other pixels -/

/-- CM_BUILD writes every pixel from the parameters alone (R112). -/
theorem cmBuild_of_colormapData (c : Cfg R σ) (s : State σ) (pixels : Memory 32) :
    cmBuild c { s with colormapData := pixels } = cmBuild c s := rfl

theorem commitParams_of_colormapData (c : Cfg R σ) (yuv : Bool) (s : State σ) (pixels : Memory 32) :
    commitParams c yuv { s with colormapData := pixels } = commitParams c yuv s :=
  cmBuild_of_colormapData c { s with act := s.ccp, actYuv := yuv && decide (c.pixT = 32) } pixels

/-- SMODE with the other mode rebuilds (R84). -/
theorem setMode_of_ne (c : Cfg R σ) {n : Bool} {s : State σ} (h : n ≠ s.ntsc) :
    setMode c n s = cmBuild c { s with ntsc := n, sync := SyncState.initial c n s.sync.lineBuf } := by
  rcases setMode_cases c n s with ⟨hsame, _⟩ | ⟨_, hset⟩
  · exact absurd hsame h
  · exact hset

theorem setMode_of_colormapData (c : Cfg R σ) {n : Bool} {s : State σ} (h : n ≠ s.ntsc) (pixels : Memory 32) :
    setMode c n { s with colormapData := pixels } = setMode c n s := by
  have hedited : n ≠ { s with colormapData := pixels }.ntsc := h
  rw [setMode_of_ne c h, setMode_of_ne c hedited]
  exact cmBuild_of_colormapData c { s with ntsc := n, sync := SyncState.initial c n s.sync.lineBuf } pixels

/-- Of the state before it, reset keeps only the port and the sink (R82, R231). -/
theorem resetMachine_of_colormapData (c : Cfg R σ) (s : State σ) (pixels : Memory 32) :
    resetMachine c { s with colormapData := pixels } = resetMachine c s := rfl

/-- Settles O19: CMWR leaves a state that differs in the colormap's pixels only, and no rebuild depends on those. -/
theorem rebuildDiscardsColormapEdits : Obligations.RebuildDiscardsColormapEdits := by
  intro addr data yuv n s
  obtain ⟨pixels, hedit⟩ := writeColormap_frame cfg0 addr data s
  refine ⟨{ s with colormapData := pixels }, by rw [exec_cmwr, hedit], ?_, fun hmode => ?_, ?_⟩
  · rw [exec_cbld, exec_cbld, commitParams_of_colormapData]
  · rw [exec_smode, exec_smode, setMode_of_colormapData cfg0 hmode]
  · rw [exec_rst, exec_rst, resetMachine_of_colormapData]

end Sys2Proof.Machine
end

section
/-! The command word (30_encoding.md R55 to R58, R70): what the fields of an encoded command read back as, what the
fields of a word encode to, and the proofs of O1, O2, O3 and O4. -/

namespace Sys2Proof

/-! ## Decoding an encoded command -/

/-- A flag of a word is the field of one bit that stands there. -/
theorem getLsbD_of_extract_eq_ofBool {w : BitVec 64} {i : Nat} {b : Bool} (h : w.extractLsb' i 1 = BitVec.ofBool b) :
    w.getLsbD i = b := by
  rw [getLsbD_eq_extract, h]
  cases b <;> rfl

/-- A command whose selecting operands fit their fields comes back from its word: each field is read at its own place,
where no other field has a bit. -/
theorem decode_encode {i : Instr} (h : i.wellFormed = true) : decode (encode i) = i := by
  cases i
  case sccp | cmrd | cmwr | rdsr =>
    have hfit := of_decide_eq_true h
    simp (disch := omega) [encode, decode, opcode, opcodeBits, extract_or, extract_place_same, extract_place_other,
      Nat.mod_eq_of_lt hfit]
  case smode n =>
    have hflag : (encode (.smode n)).getLsbD 0 = n := getLsbD_of_extract_eq_ofBool <| by
      simp (disch := omega) [encode, opcodeBits, extract_or, extract_place_same, extract_place_other]
    rw [decode, hflag]
    simp (disch := omega) [encode, opcode, opcodeBits, extract_or, extract_place_same, extract_place_other]
  case cbld yuv =>
    have hflag : (encode (.cbld yuv)).getLsbD 0 = yuv := getLsbD_of_extract_eq_ofBool <| by
      simp (disch := omega) [encode, opcodeBits, extract_or, extract_place_same, extract_place_other]
    rw [decode, hflag]
    simp (disch := omega) [encode, opcode, opcodeBits, extract_or, extract_place_same, extract_place_other]
  case syuv n cmp idx val =>
    obtain ⟨hcmp, hidx⟩ := Bool.and_eq_true_iff.mp h
    have hflag : (encode (.syuv n cmp idx val)).getLsbD 42 = n := getLsbD_of_extract_eq_ofBool <| by
      simp (disch := omega) [encode, opcodeBits, extract_or, extract_place_same, extract_place_other]
    rw [decode, hflag]
    simp (disch := omega) [encode, opcode, opcodeBits, extract_or, extract_place_same, extract_place_other,
      Nat.mod_eq_of_lt (of_decide_eq_true hcmp), Nat.mod_eq_of_lt (of_decide_eq_true hidx)]
  all_goals
    simp (disch := omega) [encode, decode, opcode, opcodeBits, extract_or, extract_place_same, extract_place_other]

/-- Settles O1. -/
theorem decodeInvertsEncode : Obligations.DecodeInvertsEncode := fun _ h => decode_encode h

/-! ## Every word decodes to a well-formed command -/

theorem decode_wellFormed (w : BitVec 64) : (decode w).wellFormed = true := by
  unfold decode
  split
  case h_5 | h_8 | h_9 | h_10 => exact decide_eq_true (BitVec.isLt _)
  case h_6 => exact Bool.and_eq_true_iff.mpr ⟨decide_eq_true (BitVec.isLt _), decide_eq_true (BitVec.isLt _)⟩
  all_goals rfl

/-! ## Encoding the fields of a word -/

/-- A field of a word placed back where it came from is the word under the field's mask. -/
theorem placeField_extract (w : BitVec 64) (lsb n : Nat) :
    placeField (w.extractLsb' lsb n) lsb = w &&& placeField (BitVec.allOnes n) lsb := by
  apply BitVec.eq_of_getLsbD_eq
  intro i _
  by_cases hl : lsb ≤ i
  · simp only [getLsbD_placeField, hl, decide_true, BitVec.getLsbD_extractLsb', Nat.add_sub_cancel', Bool.true_and,
      BitVec.getLsbD_and, BitVec.getLsbD_allOnes]
    ac_rfl
  · simp [getLsbD_placeField, hl]

/-- The opcode of a word placed back is the word under the mask of its four high bits. -/
theorem opcodeBits_opcode (w : BitVec 64) : opcodeBits (opcode w) = w &&& 0xF000000000000000#64 := by
  rw [opcodeBits, opcode, BitVec.ofNat_toNat, BitVec.setWidth_eq, placeField_extract]
  rfl

theorem ofBool_getLsbD (w : BitVec 64) (i : Nat) : BitVec.ofBool (w.getLsbD i) = w.extractLsb' i 1 := by
  apply BitVec.eq_of_getLsbD_eq
  intro j hj
  simp [show j = 0 by omega]

/-- Encoding what a word decodes to keeps the assigned bits of the word and no other (R56, R58): each field placed back
is the word under the field's mask, and the masks of the fields make up the assigned bits. -/
theorem encode_decode (w : BitVec 64) : encode (decode w) = w &&& assignedBits (opcode w) := by
  have hop := opcodeBits_opcode w
  have hlt := opcode_lt w
  unfold decode
  interval_cases opcode w
  all_goals
    simp only [encode, hop, BitVec.ofNat_toNat, BitVec.setWidth_eq, ofBool_getLsbD, placeField_extract,
      ← BitVec.and_or_distrib_left]
    rfl

/-- Settles O2. -/
theorem encodeRestoresAssignedBits : Obligations.EncodeRestoresAssignedBits := encode_decode

/-- Settles O3: a word decodes as the word its command encodes to, which is the word under its assigned bits. -/
theorem decodeIsTotalAndIgnoresReservedBits : Obligations.DecodeIsTotalAndIgnoresReservedBits := by
  refine ⟨decode_wellFormed, fun w w' hop hbits => ?_⟩
  calc
    decode w = decode (encode (decode w)) := (decode_encode (decode_wellFormed w)).symm
    _ = decode (encode (decode w')) := by rw [encode_decode, encode_decode, hbits, hop]
    _ = decode w' := decode_encode (decode_wellFormed w')

/-- Settles O4: the decoder evaluated on eight words. -/
theorem sampleWordsDecode : Obligations.SampleWordsDecode := by
  unfold Obligations.SampleWordsDecode
  decide +kernel

end Sys2Proof
end

section
/-! The step, the commands and reset (40_config_ops.md R80 to R91; 70_reset_and_hazards.md R230, R231): what a step does with
each thing the host can present, what each command does to the state, what reset leaves, and the proofs of O5, O6, O7, O9,
O10, O11, O13, O15, O17, O18, O20, O21 and O54. -/

namespace Sys2Proof.Machine

variable {R σ : Type}

/-! ## The step and the dispatch -/

theorem step_of_idle {s : State} (h : s.input = []) : step s = .next s := by
  simp only [step, h]

theorem step_of_resetInput {s : State} {rest : List HostInput} (h : s.input = .resetInput :: rest) :
    step s = .next (resetMachine cfg0 { s with input := rest }) := by
  simp only [step, h, hardwareReset]

theorem step_of_command {s : State} {w : BitVec 64} {rest : List HostInput} (h : s.input = .command w :: rest) :
    step s = exec (decode w) { s with input := rest } := by
  simp only [step, h]

/-- Every command of the machine is the command of the reference configuration (log entry 1). -/
theorem exec_eq_commandOf (i : Instr) (s : State) : exec i s = .next (commandOf cfg0 i s) := by
  cases i <;> rfl

theorem step_eq_stepOf (s : State) : step s = .next (stepOf cfg0 s) := by
  unfold stepOf
  split
  next h => exact step_of_idle h
  next h => exact step_of_resetInput h
  next h => rw [step_of_command h, exec_eq_commandOf]

/-- Settles O5. -/
theorem stepRunsDecodedCommand : Obligations.StepRunsDecodedCommand := fun _ _ _ => step_of_command

/-- Settles O54. -/
theorem stepIsReferenceInstance : Obligations.StepIsReferenceInstance := ⟨step_eq_stepOf, exec_eq_commandOf, rfl⟩

/-- Settles O6: the next state is that of the reference configuration. -/
theorem everyCommandCompletes : Obligations.EveryCommandCompletes :=
  ⟨fun i s => ⟨_, exec_eq_commandOf i s⟩, fun s => ⟨_, step_eq_stepOf s⟩⟩

/-- Settles O7. -/
theorem idleHoldsAndResetInputIsRst : Obligations.IdleHoldsAndResetInputIsRst :=
  ⟨fun _ => step_of_idle, fun s rest h => (step_of_resetInput h).trans (exec_rst { s with input := rest }).symm⟩

/-- A command other than SMP and RST writes neither the cycle counter nor the Frame Resampler. -/
theorem commandOf_frame_cycleCnt (c : Cfg R σ) (i : Instr) (s : State σ) (hrst : i ≠ .rst)
    (hsmp : ∀ f c0 c1 a, i ≠ .smp f c0 c1 a) :
    (commandOf c i s).frame = s.frame ∧ (commandOf c i s).cycleCnt = s.cycleCnt := by
  cases i
  case rst => exact absurd rfl hrst
  case smp f c0 c1 a => exact absurd rfl (hsmp f c0 c1 a)
  case sclk hz => rcases setClock_cases c hz s with ⟨_, e⟩ | ⟨_, e⟩ <;> simp [commandOf, e]
  case smode n => rcases setMode_cases c n s with ⟨_, e⟩ | ⟨_, e⟩ <;> simp [commandOf, e]
  case sccp idx val => rcases stageParam_cases c idx val s with ⟨_, e⟩ | ⟨_, e⟩ <;> simp [commandOf, e]
  case syuv n cmp idx val => rcases writeIdxYuv_cases n cmp idx val s with ⟨_, e⟩ | ⟨_, e⟩ <;> simp [commandOf, e]
  case cmwr addr data => rcases writeColormap_cases c addr data s with ⟨_, e⟩ | ⟨_, e⟩ <;> simp [commandOf, e]
  all_goals exact ⟨rfl, rfl⟩

/-- Settles O21. -/
theorem cycleCountAdvancesOnlyInSmp : Obligations.CycleCountAdvancesOnlyInSmp := by
  intro i s t hexec hrst hsmp
  rw [exec_eq_commandOf] at hexec
  cases hexec
  exact (commandOf_frame_cycleCnt cfg0 i s hrst hsmp).2

/-! ## SCLK -/

theorem exec_sclk (hz : U32) (s : State) : exec (.sclk hz) s = .next (setClock cfg0 hz s) := rfl

/-- Settles O9. -/
theorem sclkSetsClockAndConverter : Obligations.SclkSetsClockAndConverter := by
  intro hz s
  rw [exec_sclk]
  rcases setClock_cases cfg0 hz s with ⟨hge, hset⟩ | ⟨hlt, hset⟩
  · refine ⟨fun _ => ⟨_, rfl, ?_⟩, by omega⟩
    rw [hset]
    have hrate : (BitVec.ofNat 32 (hz.toNat / 8)).toNat = hz.toNat / 8 := by
      rw [BitVec.toNat_ofNat, Nat.mod_eq_of_lt (by omega)]
    exact ⟨rfl, hrate, rfl, rfl, rfl, rfl⟩
  · exact ⟨by omega, fun _ => by rw [hset]⟩

/-! ## SMODE -/

/-- Settles O10. -/
theorem smodeRestartsSyncOnChange : Obligations.SmodeRestartsSyncOnChange := by
  intro n s
  rw [exec_smode]
  refine ⟨fun hsame => ?_, fun hother => ⟨_, rfl, ?_⟩⟩
  · rcases setMode_cases cfg0 n s with ⟨_, hset⟩ | ⟨hne, _⟩
    · rw [hset]
    · exact absurd hsame hne
  · rw [setMode_of_ne cfg0 hother]
    refine ⟨rfl, rfl, rfl, ?_, ?_, ?_, rfl, rfl, rfl, rfl, ?_, rfl, rfl, rfl, rfl, rfl, rfl⟩ <;> cases n <;> rfl

/-! ## SCCP -/

theorem exec_sccp (idx : Nat) (val : S32) (s : State) :
    exec (.sccp idx val) s = .next (stageParam cfg0 idx val s) := rfl

/-- The clamp ranges of the fourteen parameters in Q16.16 (R15). -/
def ccpRanges : List (Int × Int) :=
  [(-32768, 32768), (32768, 131072), (16384, 262144), (-11796480, 11796480), (0, 131072),
   (-32768, 32768), (32768, 131072), (16384, 262144), (-32768, 32768), (32768, 131072), (16384, 262144),
   (-32768, 32768), (32768, 131072), (16384, 262144)]

theorem ccpRanges_getElem? {idx : Nat} (h : idx ≤ 13) :
    ccpRanges[idx]? = some (qBound (ccpLo cfg0 idx), qBound (ccpHi cfg0 idx)) := by
  have hall : ∀ i, i < 14 → ccpRanges[i]? = some (qBound (ccpLo cfg0 i), qBound (ccpHi cfg0 i)) := by
    decide +kernel
  exact hall idx (by omega)

/-- Settles O11: the value written is the clamp, whose bounds are those of the table. -/
theorem sccpClampsOnAssignment : Obligations.SccpClampsOnAssignment := by
  intro idx val s hsize
  rw [exec_sccp]
  rcases stageParam_cases cfg0 idx val s with ⟨hidx, hstage⟩ | ⟨hidx, hstage⟩
  · refine ⟨fun _ => ⟨_, rfl, ?_⟩, by omega⟩
    rw [hstage]
    refine ⟨fun lo hi hrange => ?_, fun j hj => Memory.read_write_other _ _ hj.symm,
      (Memory.size_write _ _ _).trans hsize, rfl⟩
    have hbounds : some (qBound (ccpLo cfg0 idx), qBound (ccpHi cfg0 idx)) = some (lo, hi) :=
      (ccpRanges_getElem? hidx).symm.trans hrange
    cases hbounds
    rw [Memory.read_write_same _ _ (by omega), ccpClamp_toInt hidx]
  · exact ⟨by omega, fun _ => by rw [hstage]⟩

/-! ## CBLD -/

/-- The reference configuration meets the constraints of R5 that a computation can check. -/
theorem cfg0_wf : cfg0.wf = true := by decide +kernel

/-- Settles O13. -/
theorem cbldCommitsAndRebuilds : Obligations.CbldCommitsAndRebuilds := by
  intro yuv s
  have hfmt : (yuv && decide (cfg0.pixT = 32)) = yuv := Bool.and_true yuv
  refine ⟨_, exec_cbld yuv s, ?_⟩
  rw [commitParams, hfmt]
  exact ⟨rfl, rfl, fun b i hb hi => read_buildData _ _ _ _ hb hi, read_buildTable_toNat cfg0_wf s.ntsc,
    size_buildData _ _ _ _, size_buildTable _ _, rfl⟩

/-! ## CMWR -/

/-- Settles O15. -/
theorem cmwrWritesOneEntry : Obligations.CmwrWritesOneEntry := by
  intro addr data s hsize
  rw [exec_cmwr]
  rcases writeColormap_cases cfg0 addr data s with ⟨haddr, hwrite⟩ | ⟨haddr, hwrite⟩
  · refine ⟨fun _ => ⟨_, rfl, ?_⟩, by omega⟩
    rw [hwrite, storedPixel_cfg0]
    exact ⟨Memory.read_write_same _ _ (by omega), fun a ha => Memory.read_write_other _ _ ha.symm,
      (Memory.size_write _ _ _).trans hsize, rfl⟩
  · exact ⟨by omega, fun _ => by rw [hwrite]⟩

/-- Settles O20: the address of the edit is that of the lookup, as CMWR leaves the table alone. -/
theorem colormapEditSeenByNextLookup : Obligations.ColormapEditSeenByNextLookup := by
  intro p i nc data s hsize hband
  refine ⟨_, exec_cmwr _ data s, ?_⟩
  rcases writeColormap_cases cfg0 (cmBand cfg0 s p nc * 256 + i.toNat) data s with ⟨haddr, hwrite⟩ | ⟨haddr, _⟩
  · rw [hwrite, storedPixel_cfg0]
    exact Memory.read_write_same _ _ (by omega)
  · omega

/-! ## RST -/

/-- Settles O17. -/
theorem rstReachesResetState : Obligations.RstReachesResetState := fun s =>
  ⟨_, exec_rst s, rfl, rfl, rfl, rfl, ⟨rfl, rfl, rfl⟩, rfl⟩

/-! ## The memories that reset leaves -/

/-- The table of reset is the identity greyscale (R16). -/
theorem read_identityIdxYuv (n : Bool) {i : Nat} (hi : i < 256) :
    Memory.read identityIdxYuv (idxYuvAt n i 0) = BitVec.ofNat 32 ((i * 65536 + 127) / 255) ∧
    Memory.read identityIdxYuv (idxYuvAt n i 1) = 0 ∧ Memory.read identityIdxYuv (idxYuvAt n i 2) = 0 := by
  have hplace (cmp : Nat) (hc : cmp ≤ 2) : idxYuvAt n i cmp % 3 = cmp ∧ idxYuvAt n i cmp / 3 % 256 = i := by
    unfold idxYuvAt
    omega
  have hread (cmp : Nat) (hc : cmp ≤ 2) : Memory.read identityIdxYuv (idxYuvAt n i cmp) =
      if cmp = 0 then BitVec.ofNat 32 ((i * 65536 + 127) / 255) else 0 := by
    rw [identityIdxYuv, Memory.read_tabulate_lt _ (idxYuvAt_lt n hi hc), (hplace cmp hc).1, (hplace cmp hc).2]
  exact ⟨hread 0 (by decide), hread 1 (by decide), hread 2 (by decide)⟩

/-- Every entry of band 7 is the blanking pixel after reset (R115, R232). -/
theorem read_resetColormap_bandSeven {i : Nat} (hi : i < 256) :
    Memory.read (resetColormap cfg0) (7 * 256 + i) = 0x00808010 := by
  obtain ⟨hband, _, hblank, _⟩ := bandSevenIsBlanking
  exact (hband _ _ cfg0 neutralCcp identityIdxYuv true i cfg0_wf realArith_keepsZero hi).trans hblank

/-- Every pixel of the picture is the blanking pixel after reset (R34). -/
theorem read_resetVideo {k : Nat} (hk : k < 110592) : Memory.read (resetVideo cfg0) k = 0x00808010 := by
  rw [resetVideo, Memory.read_fill, cfg0_ny, if_pos hk]
  exact read_resetColormap_bandSeven (i := 0) (by decide)

/-- The luma of the blanking picture. -/
theorem read_planar_resetVideo_y {k : Nat} (hk : k < 110592) :
    Memory.read (planar cfg0 (resetVideo cfg0)).y k = 0x10 := by
  rw [read_planar_y cfg0 _ hk, read_resetVideo hk]
  rfl

/-- The chroma of the blanking picture: the four pixels of a block are alike. -/
theorem chromaAt_resetVideo (channel : Pixel → Byte) {k : Nat} (hk : k < 27648) :
    chromaAt cfg0 (resetVideo cfg0) channel k =
      mean4 (channel 0x00808010) (channel 0x00808010) (channel 0x00808010) (channel 0x00808010) := by
  have hrow : k / 192 < 144 := by omega
  have hcol : k % 192 < 192 := by omega
  simp only [chromaAt, cfg0_videoWidth, Nat.reduceDiv]
  rw [read_resetVideo, read_resetVideo, read_resetVideo, read_resetVideo] <;> omega

theorem read_planar_resetVideo_chroma {k : Nat} (hk : k < 27648) :
    Memory.read (planar cfg0 (resetVideo cfg0)).v k = 0x80 ∧
    Memory.read (planar cfg0 (resetVideo cfg0)).u k = 0x80 := by
  rw [read_planar_v cfg0 _ hk, read_planar_u cfg0 _ hk, chromaAt_resetVideo pixV hk, chromaAt_resetVideo pixU hk]
  exact ⟨rfl, rfl⟩

theorem read_fill_zero {w : Nat} (n k : Nat) : Memory.read (Memory.fill n (0 : BitVec w)) k = 0 :=
  (Memory.read_fill n 0 k).trans (ite_self 0)

/-- Settles O18. -/
theorem resetLeavesStatedValues : Obligations.ResetLeavesStatedValues := by
  refine ⟨rfl, rfl, rfl, rfl, rfl, rfl, fun n i hi => read_identityIdxYuv n hi, rfl, rfl, rfl, rfl, rfl, rfl, rfl, rfl,
    rfl, rfl, rfl, rfl, rfl, rfl, rfl, rfl, fun i hi => read_resetColormap_bandSeven hi, fun k hk => ?_, fun k hk => ?_,
    rfl, rfl, rfl, rfl, rfl, rfl, rfl, rfl, rfl, rfl, rfl⟩
  · exact ⟨read_resetVideo hk, read_planar_resetVideo_y hk, read_planar_resetVideo_y hk, read_fill_zero _ _,
      read_fill_zero _ _⟩
  · obtain ⟨hv, hu⟩ := read_planar_resetVideo_chroma hk
    exact ⟨hv, hu, hv, hu, read_fill_zero _ _, read_fill_zero _ _, read_fill_zero _ _, read_fill_zero _ _⟩

end Sys2Proof.Machine
end

section
/-! The colours of the colormap build (41_colormap.md R100 to R112): the build over the exact real numbers, the neutral
transform, monochrome bands, the machine's numbers against the exact ones, and the proofs of O34, O36, O37, O55 and O57. -/

namespace Sys2Proof.Machine

variable {R σ : Type}

/-! ## The build over the exact real numbers -/

theorem realOf_exact {c : Cfg ℝ σ} (h : c.arith = exactArith) (q : Rat) : realOf c q = (q : ℝ) := by
  rw [realOf, h]
  rfl

theorem rotateChroma_exact {c : Cfg ℝ σ} (h : c.arith = exactArith) (deg u v : ℝ) :
    rotateChroma c deg u v =
      (u * c.numerics.cos deg - v * c.numerics.sin deg, u * c.numerics.sin deg + v * c.numerics.cos deg) := by
  rw [rotateChroma, h]

theorem injectBurst_exact {c : Cfg ℝ σ} (h : c.arith = exactArith) (row : BandRow) (u v : ℝ) :
    injectBurst c row u v =
      (if row.hasBurst then u + c.burstAmp * c.numerics.cos (if row.ntsc then 180 else 135) else u,
       if row.hasBurst then v + c.burstAmp * c.numerics.sin (if row.ntsc then 180 else 135) else v) := by
  have hbp : realOf c (if row.ntsc then 180 else 135) = if row.ntsc then 180 else 135 := by
    rw [realOf_exact h]
    split <;> norm_num
  rw [injectBurst_eq, hbp, realOf_exact h, h]

theorem limitChroma_exact {c : Cfg ℝ σ} (h : c.arith = exactArith) (u v : ℝ) :
    limitChroma c u v =
      (if (c.chromaMax : ℝ) < c.numerics.sqrt (u * u + v * v) then
          u * c.chromaMax / c.numerics.sqrt (u * u + v * v) else u,
       if (c.chromaMax : ℝ) < c.numerics.sqrt (u * u + v * v) then
          v * c.chromaMax / c.numerics.sqrt (u * u + v * v) else v) := by
  simp only [limitChroma, realOf_exact h]
  rw [h]
  rfl

theorem bandColour_exact {c : Cfg ℝ σ} (h : c.arith = exactArith) (act idxYuv : Memory 32) (row : BandRow) (i : Nat) :
    bandColour c act idxYuv row i =
      let base := baseTriple c idxYuv row.ntsc i
      let inj := injectBurst c row base.u base.v
      let lim := limitChroma c inj.1 inj.2
      let rot := rotateChroma c row.phase lim.1 lim.2
      cc c act (base.y * row.yScale) (rot.1 * row.uScale) (rot.2 * row.vScale) := by
  simp only [bandColour, realOf_exact h]
  rw [h]

/-- Settles O57: each stage of the build is the arithmetic of its rule. -/
theorem buildFollowsPipelineOrder : Obligations.BuildFollowsPipelineOrder := by
  intro σ c s b i h hb hi
  rw [cmBuild_colormapData, read_buildData _ _ _ _ hb hi, colormapEntry, bandColour_exact h]
  simp only [baseTriple, injectBurst_exact h, limitChroma_exact h, rotateChroma_exact h, realOf_exact h]

/-! ## Chroma limiting -/

/-- A vector limited to the length `t` has that length. -/
theorem scaled_norm {t m : ℝ} (hm : m ≠ 0) (u v : ℝ) (h : m * m = u * u + v * v) :
    u * t / m * (u * t / m) + v * t / m * (v * t / m) = t * t := by
  calc
    u * t / m * (u * t / m) + v * t / m * (v * t / m) = t * t * ((u * u + v * v) / (m * m)) := by ring
    _ = t * t := by rw [← h, div_self (mul_self_ne_zero.mpr hm), mul_one]

/-- Settles O37: the length is the root of the sum of squares, and the factor is 0.21 over it. -/
theorem chromaIsLimited : Obligations.ChromaIsLimited := by
  intro σ c u v harith hsqrt hmax
  have hsq : 0 ≤ u * u + v * v := add_nonneg (mul_self_nonneg u) (mul_self_nonneg v)
  have htop : (c.chromaMax : ℝ) = 21 / 100 := by rw [hmax]; norm_num
  rw [limitChroma_exact harith, hsqrt, htop]
  have hlong : 21 / 100 < Real.sqrt (u * u + v * v) ↔ 21 / 100 * (21 / 100) < u * u + v * v := by
    rw [Real.lt_sqrt (by norm_num), sq]
  have hroot := Real.mul_self_sqrt hsq
  generalize Real.sqrt (u * u + v * v) = m at *
  refine ⟨fun hle => ?_, fun hlt => ?_⟩
  · rw [if_neg (by rw [hlong]; exact not_lt.mpr hle), if_neg (by rw [hlong]; exact not_lt.mpr hle)]
  · have hm := hlong.mpr hlt
    have hpos : 0 < m := by linarith
    rw [if_pos hm, if_pos hm]
    refine ⟨scaled_norm hpos.ne' u v hroot, 21 / 100 / m, by positivity, (div_lt_one hpos).mpr hm, ?_⟩
    congr 1 <;> ring

/-! ## Monochrome bands -/

/-- A band whose chroma scales are 0 corrects its luma without chroma (R121). -/
theorem bandColour_of_zero_chromaScales {c : Cfg R σ} (hzero : c.arith.KeepsZero) (act idxYuv : Memory 32)
    {row : BandRow} (i : Nat) (hu : row.uScale = 0) (hv : row.vScale = 0) : letI := c.arith
    bandColour c act idxYuv row i =
      cc c act ((baseTriple c idxYuv row.ntsc i).y * realOf c row.yScale) (realOf c 0) (realOf c 0) := by
  have hscale : ∀ x : R, (letI := c.arith; x * realOf c 0) = realOf c 0 := hzero.mul_zero
  simp only [bandColour, hu, hv, hscale]

/-- Of the parameters, hue and saturation (3 and 4) are read by CC step 1 alone (R102), which has no effect without
chroma. -/
theorem cc_congr_of_no_chroma {c : Cfg R σ} (hzero : c.arith.KeepsZero) {act act' : Memory 32}
    (hact : ∀ k, k ≠ 3 → k ≠ 4 → Memory.read act k = Memory.read act' k) (y : R) :
    cc c act y (realOf c 0) (realOf c 0) = cc c act' y (realOf c 0) (realOf c 0) := by
  have hparam (k : Nat) (h3 : k ≠ 3) (h4 : k ≠ 4) : param c act k = param c act' k := by
    rw [param, param, hact k h3 h4]
  have hchannel (ch : Nat) (h : 5 ≤ ch) (x : R) : ccChannel c act ch x = ccChannel c act' ch x := by
    rw [ccChannel, ccChannel, hparam 0 (by omega) (by omega), hparam 1 (by omega) (by omega),
      hparam 2 (by omega) (by omega), hparam ch (by omega) (by omega), hparam (ch + 1) (by omega) (by omega),
      hparam (ch + 2) (by omega) (by omega)]
  rw [cc, cc, ccChroma_zero hzero, ccChroma_zero hzero, hchannel 5 (by omega), hchannel 8 (by omega),
    hchannel 11 (by omega)]

/-- Settles O36. -/
theorem monochromeBandIgnoresChroma : Obligations.MonochromeBandIgnoresChroma := by
  intro R σ c act act' idxYuv idxYuv' row i hzero hu hv hact hluma
  have hbase : (baseTriple c idxYuv row.ntsc i).y = (baseTriple c idxYuv' row.ntsc i).y := by
    rw [baseTriple, baseTriple, hluma]
  rw [bandColour_of_zero_chromaScales hzero act idxYuv i hu hv,
    bandColour_of_zero_chromaScales hzero act' idxYuv' i hu hv, hbase, cc_congr_of_no_chroma hzero hact]

/-! ## The neutral transform -/

/-- The neutral brightness parameters are 0, the neutral contrast and gamma parameters 1 (R15). -/
theorem qValue_neutralCcp :
    (∀ k ∈ [0, 5, 8, 11], qValue (Memory.read neutralCcp k) = 0) ∧
    (∀ k ∈ [1, 2, 6, 7, 9, 10, 12, 13], qValue (Memory.read neutralCcp k) = 1) := by
  decide +kernel

theorem param_neutral_brightness (c : Cfg R σ) {k : Nat} (h : k ∈ [0, 5, 8, 11]) :
    param c neutralCcp k = realOf c 0 := by
  rw [param, qValue_neutralCcp.1 k h]

theorem param_neutral_factor (c : Cfg R σ) {k : Nat} (h : k ∈ [1, 2, 6, 7, 9, 10, 12, 13]) :
    param c neutralCcp k = realOf c 1 := by
  rw [param, qValue_neutralCcp.2 k h]

/-- CC step 3 with the neutral parameters (R104). -/
theorem ccChannel_neutral (c : Cfg R σ) {ch : Nat} (h : ch ∈ [5, 8, 11]) (x : R) : letI := c.arith
    ccChannel c neutralCcp ch x =
      let c1 := (x - realOf c (1 / 2)) * (realOf c 1 * realOf c 1) + realOf c (1 / 2)
      let c2 := c1 + realOf c 0 + realOf c 0
      let c3 := Arith.ifLt c2 (realOf c 0) (realOf c 0) c2
      let c4 := c.numerics.pow c3 (realOf c 1 / (realOf c 1 * realOf c 1))
      Arith.ifLt (realOf c 1) c4 (realOf c 1) c4 := by
  have hch : ch ∈ [0, 5, 8, 11] ∧ ch + 1 ∈ [1, 2, 6, 7, 9, 10, 12, 13] ∧ ch + 2 ∈ [1, 2, 6, 7, 9, 10, 12, 13] := by
    simp only [List.mem_cons, List.not_mem_nil, or_false] at h ⊢
    omega
  obtain ⟨h0, h1, h2⟩ := hch
  rw [ccChannel, param_neutral_brightness c (by decide : 0 ∈ _), param_neutral_brightness c h0,
    param_neutral_factor c (by decide : 1 ∈ _), param_neutral_factor c (by decide : 2 ∈ _), param_neutral_factor c h1,
    param_neutral_factor c h2]

/-- Clamping from below, then from above. -/
theorem clampUnit {α : Type} [Field α] [LinearOrder α] [IsStrictOrderedRing α] (y : α) :
    (if 1 < (if y < 0 then 0 else y) then 1 else if y < 0 then 0 else y) = max 0 (min y 1) := by
  rcases lt_or_ge y 0 with h | h
  · rw [if_pos h, if_neg (by simp), max_eq_left ((min_le_left y 1).trans h.le)]
  · rw [if_neg (not_lt.mpr h), max_eq_right (le_min h zero_le_one)]
    split
    next h1 => exact (min_eq_right h1.le).symm
    next h1 => exact (min_eq_left (not_lt.mp h1)).symm

theorem wG_ne_zero_of_wf {c : Cfg R σ} (h : c.wf = true) : c.wG ≠ 0 := by
  intro hzero
  simp [Cfg.wf, hzero] at h

/-- Over the exact numbers CC step 2 makes grey of a luma without chroma (R103), as the luma weights sum to 1. -/
theorem ccRgb_exact_grey {c : Cfg ℝ σ} (h : c.arith = exactArith) (hwf : c.wf = true) (hsum : c.wR + c.wG + c.wB = 1)
    (y : ℝ) : ccRgb c y 0 0 = { r := y, g := y, b := y } := by
  have hG : (c.wG : ℝ) ≠ 0 := by exact_mod_cast wG_ne_zero_of_wf hwf
  have hsum' : (c.wR : ℝ) + c.wG + c.wB = 1 := by exact_mod_cast hsum
  have hg : (y - c.wR * y - c.wB * y) / c.wG = y := by
    rw [div_eq_iff hG]
    linear_combination -y * hsum'
  simp only [ccRgb, realOf_exact h]
  rw [h]
  simp [hg]

/-- Over the exact numbers CC step 3 with the neutral parameters clamps (R104). -/
theorem ccChannel_exact_neutral {c : Cfg ℝ σ} (h : c.arith = exactArith) (hn : c.numerics.Lawful) {ch : Nat}
    (hch : ch ∈ [5, 8, 11]) (x : ℝ) : ccChannel c neutralCcp ch x = max 0 (min x 1) := by
  have hc1 : (x - 1 / 2) * (1 * 1) + 1 / 2 + 0 + 0 = x := by ring
  have hpow : c.numerics.pow (if x < 0 then 0 else x) 1 = if x < 0 then 0 else x :=
    hn.pow_one_right _ (by split <;> linarith)
  rw [ccChannel_neutral c hch]
  simp only [realOf_exact h]
  rw [h]
  push_cast
  rw [hc1, one_mul, div_one]
  change (if 1 < c.numerics.pow (if x < 0 then 0 else x) 1 then 1 else c.numerics.pow (if x < 0 then 0 else x) 1) = _
  rw [hpow, clampUnit]

/-! On the machine's numbers the operations of the build are these (log entry 2). -/

theorem add_cfg0 (x y : RealExpr) : (letI := cfg0.arith; x + y) = realAdd x y := rfl
theorem sub_cfg0 (x y : RealExpr) : (letI := cfg0.arith; x - y) = realSub x y := rfl
theorem mul_cfg0 (x y : RealExpr) : (letI := cfg0.arith; x * y) = realMul x y := rfl
theorem div_cfg0 (x y : RealExpr) : (letI := cfg0.arith; x / y) = realDiv x y := rfl
theorem ifLt_cfg0 (a b x y : RealExpr) : (letI := cfg0.arith; Arith.ifLt a b x y) = realIfLt a b x y := rfl
theorem pow_cfg0 (x e : RealExpr) : cfg0.numerics.pow x e = realPow x e := rfl
theorem realOf_cfg0 (q : Rat) : realOf cfg0 q = .rat q := rfl

/-- On the machine's numbers CC step 2 makes grey of a rational luma without chroma (R103). -/
theorem ccRgb_cfg0_grey (y : Rat) : ccRgb cfg0 (.rat y) (.rat 0) (.rat 0) = { r := .rat y, g := .rat y, b := .rat y } := by
  have hg : (y - cfg0.wR * y - cfg0.wB * y) / cfg0.wG = y := by
    show (y - 299 / 1000 * y - 114 / 1000 * y) / (587 / 1000) = y
    ring
  simp [ccRgb, realOf_cfg0, add_cfg0, sub_cfg0, mul_cfg0, div_cfg0, hg]

/-- On the machine's numbers CC step 3 with the neutral parameters clamps a rational number (R104). -/
theorem ccChannel_cfg0_neutral {ch : Nat} (hch : ch ∈ [5, 8, 11]) (x : Rat) :
    ccChannel cfg0 neutralCcp ch (.rat x) = .rat (max 0 (min x 1)) := by
  have hc1 : x - 1 / 2 + 1 / 2 + 0 + 0 = x := by ring
  rw [ccChannel_neutral cfg0 hch]
  simp only [realOf_cfg0, add_cfg0, sub_cfg0, mul_cfg0, div_cfg0, ifLt_cfg0, pow_cfg0, rat_add, rat_sub, rat_mul,
    rat_div, rat_ifLt, hc1, mul_one, div_one, realPow_one, ← apply_ite RealExpr.rat, clampUnit]

/-- Settles O34. -/
theorem neutralTransformIsClamp : Obligations.NeutralTransformIsClamp := by
  constructor
  · intro σ c y hwf h hn hsum
    have hchroma : ccChroma c neutralCcp 0 0 = (0, 0) := by
      have := ccChroma_zero (h ▸ exactArith_keepsZero) neutralCcp (c := c)
      rwa [realOf_exact h, Rat.cast_zero] at this
    simp only [cc, hchroma, ccRgb_exact_grey h hwf hsum]
    rw [ccChannel_exact_neutral h hn (by decide), ccChannel_exact_neutral h hn (by decide),
      ccChannel_exact_neutral h hn (by decide)]
  · intro y
    have hchroma : ccChroma cfg0 neutralCcp (.rat 0) (.rat 0) = (.rat 0, .rat 0) :=
      ccChroma_zero realArith_keepsZero neutralCcp
    simp only [cc, hchroma, ccRgb_cfg0_grey]
    rw [ccChannel_cfg0_neutral (by decide), ccChannel_cfg0_neutral (by decide), ccChannel_cfg0_neutral (by decide)]

/-! ## The machine's colours stand for the exact ones -/

/-- The exact numbers that a pair stands for. -/
noncomputable def valPair (p : RealExpr × RealExpr) : ℝ × ℝ := (p.1.val, p.2.val)

/-- The exact colour that a colour stands for. -/
noncomputable def valRgb (k : Rgb RealExpr) : Rgb ℝ := { r := k.r.val, g := k.g.val, b := k.b.val }

/-- The exact triple that a triple stands for. -/
noncomputable def valYuv (k : Yuv RealExpr) : Yuv ℝ := { y := k.y.val, u := k.u.val, v := k.v.val }

theorem val_rotateChroma (deg u v : RealExpr) :
    valPair (rotateChroma cfg0 deg u v) = rotateChroma cfg0Exact deg.val u.val v.val := by
  simp only [valPair, rotateChroma, val_add_cfg0, val_sub_cfg0, val_mul_cfg0, val_cos_cfg0, val_sin_cfg0]
  rfl

theorem val_injectBurst (row : BandRow) (u v : RealExpr) :
    valPair (injectBurst cfg0 row u v) = injectBurst cfg0Exact row u.val v.val := by
  unfold injectBurst
  split
  · simp only [valPair, val_add_cfg0, val_mul_cfg0, val_cos_cfg0, val_sin_cfg0, val_realOf_cfg0]
    rfl
  · rfl

theorem val_limitChroma (u v : RealExpr) :
    valPair (limitChroma cfg0 u v) = limitChroma cfg0Exact u.val v.val := by
  simp only [valPair, limitChroma, val_ifLt_cfg0, val_add_cfg0, val_mul_cfg0, val_div_cfg0, val_sqrt_cfg0,
    val_realOf_cfg0]
  rfl

theorem val_ccChroma (act : Memory 32) (u v : RealExpr) :
    valPair (ccChroma cfg0 act u v) = ccChroma cfg0Exact act u.val v.val := by
  have hrot := val_rotateChroma (param cfg0 act 3) u v
  rw [val_param_cfg0] at hrot
  simp only [valPair, ccChroma, val_mul_cfg0, val_param_cfg0, ← hrot]
  rfl

theorem val_ccRgb (y u v : RealExpr) : valRgb (ccRgb cfg0 y u v) = ccRgb cfg0Exact y.val u.val v.val := by
  simp only [valRgb, ccRgb, val_add_cfg0, val_sub_cfg0, val_mul_cfg0, val_div_cfg0, val_realOf_cfg0]
  rfl

/-- The base of the gamma power is at least 0, where the machine's power is the exact one (R104). -/
theorem val_ccChannel (act : Memory 32) (ch : Nat) (x : RealExpr) :
    (ccChannel cfg0 act ch x).val = ccChannel cfg0Exact act ch x.val := by
  have hbase (c2 : RealExpr) :
      0 ≤ (letI := cfg0.arith; Arith.ifLt c2 (realOf cfg0 0) (realOf cfg0 0) c2).val := by
    rw [val_ifLt_cfg0, ifLt_cfg0Exact, realOf_cfg0, val_rat, Rat.cast_zero]
    split <;> linarith
  simp only [ccChannel, val_ifLt_cfg0, val_pow_cfg0 (hbase _), val_add_cfg0, val_sub_cfg0, val_mul_cfg0, val_div_cfg0,
    val_realOf_cfg0, val_param_cfg0]
  rfl

theorem val_cc (act : Memory 32) (y u v : RealExpr) :
    valRgb (cc cfg0 act y u v) = cc cfg0Exact act y.val u.val v.val := by
  simp only [cc, ← val_ccChroma, valPair, ← val_ccRgb, valRgb, val_ccChannel]

theorem val_bandColour (act idxYuv : Memory 32) (row : BandRow) (i : Nat) :
    valRgb (bandColour cfg0 act idxYuv row i) = bandColour cfg0Exact act idxYuv row i := by
  have hbase : valYuv (baseTriple cfg0 idxYuv row.ntsc i) = baseTriple cfg0Exact idxYuv row.ntsc i := rfl
  simp only [bandColour, val_cc, ← hbase, valYuv, ← val_injectBurst, ← val_limitChroma, valPair]
  rw [← val_realOf_cfg0 row.phase]
  simp only [← val_rotateChroma, valPair]
  simp only [val_mul_cfg0, val_realOf_cfg0]
  rfl

theorem val_yuvLevels (k : Rgb RealExpr) : valYuv (yuvLevels cfg0 k) = yuvLevels cfg0Exact (valRgb k) := by
  simp only [valYuv, yuvLevels, valRgb, val_add_cfg0, val_sub_cfg0, val_mul_cfg0, val_div_cfg0, val_realOf_cfg0]
  rfl

theorem val_rgbLevels (k : Rgb RealExpr) : valRgb (rgbLevels cfg0 k) = rgbLevels cfg0Exact (valRgb k) := by
  simp only [rgbLevels, valRgb, val_mul_cfg0, val_realOf_cfg0]
  rfl

/-- A level whose rounding is decided is quantised as the exact level (R106, R114). -/
theorem quantise8_decided {e : RealExpr} (h : roundingDecided e = true) :
    quantise8 cfg0 e = quantise8 cfg0Exact e.val := by
  have hrnd : cfg0.numerics.rnd e = cfg0Exact.numerics.rnd e.val := realRnd_decided h
  rw [quantise8, quantise8, hrnd]

/-- Settles O55. -/
theorem builtEntryIsExact : Obligations.BuiltEntryIsExact := by
  intro act idxYuv actYuv b i
  have hk : valRgb (bandColour cfg0 act idxYuv (cfg0.bandRow b) i) =
    bandColour cfg0Exact act idxYuv (cfg0Exact.bandRow b) i := val_bandColour act idxYuv (cfg0.bandRow b) i
  simp only [colormapEntry, ← hk]
  generalize bandColour cfg0 act idxYuv (cfg0.bandRow b) i = k
  have hyuv := val_yuvLevels k
  have hrgb := val_rgbLevels k
  refine ⟨⟨rfl, rfl, rfl⟩, ?_, ?_, fun hformat hy hu hv => ?_, fun hformat hr hg hb => ?_⟩
  · rw [← hyuv]
    exact ⟨rfl, rfl, rfl⟩
  · rw [← hrgb]
    exact ⟨rfl, rfl, rfl⟩
  · simp only [packPixel, hformat, if_true, quantiseYuv32, ← hyuv, valYuv, quantise8_decided hy, quantise8_decided hu,
      quantise8_decided hv]
  · have hpixT : cfg0Exact.pixT = 32 := rfl
    simp only [packPixel, hformat, cfg0_pixT, hpixT, if_true, quantiseRgb32, ← hrgb]
    simp only [valRgb, quantise8_decided hr, quantise8_decided hg, quantise8_decided hb]
    rfl

end Sys2Proof.Machine
end

section
/-! The numbers of the Frame Resampler and of the audio path (43_frame_resampler.md R174 to R177; 42_demodulator.md R131;
44_audio.md R195 to R203): the output byte, the boundary step, the fold, the ring as a queue, the reference converter, and
the proofs of O39, O41, O42, O43, O44, O46, O47 and O48. -/

namespace Sys2Proof.Machine

variable {R σ : Type}

/-! ## The output byte -/

/-- The reciprocal is `2^32 / D` to within one (R176). -/
theorem recip_bounds {d : Nat} (h1 : 1 ≤ d) (h2 : d < 2 ^ 32) : d * recip d ≤ 2 ^ 32 ∧ 2 ^ 32 ≤ d * recip d + d := by
  unfold recip
  rw [if_neg (by omega)]
  have hdiv := Nat.div_add_mod (2 ^ 32) d
  have hmod := Nat.mod_lt (2 ^ 32) h1
  rcases Nat.lt_or_ge (2 ^ 32 / d) (2 ^ 32 - 1) with hlt | hge
  · rw [Nat.min_eq_left hlt.le]
    omega
  · rw [Nat.min_eq_right hge]
    obtain rfl : d = 1 := by
      by_contra hne
      have : 2 ^ 32 / d ≤ 2 ^ 32 / 2 := Nat.div_le_div_left (by omega) (by decide)
      omega
    omega

/-- An output byte lies half a level above the weighted mean at most, and less than one level below it (R175, R176). -/
theorem finalByte_bounds {acc : U32} {d : Nat} (h1 : 1 ≤ d) (h2 : 255 * d < 2 ^ 31) (hacc : acc.toNat ≤ 255 * d) :
    2 * (finalByte acc d).toNat * d ≤ 2 * acc.toNat + d ∧ acc.toNat < ((finalByte acc d).toNat + 1) * d := by
  have hbyte : (finalByte acc d).toNat = min 255 ((acc.toNat * recip d + 2 ^ 31) / 2 ^ 32) := by
    rw [finalByte, BitVec.toNat_ofNat, Nat.mod_eq_of_lt (by omega)]
  obtain ⟨hle, hge⟩ := recip_bounds h1 (by omega)
  have hupper : acc.toNat * recip d * d ≤ acc.toNat * 2 ^ 32 := by
    rw [Nat.mul_assoc, Nat.mul_comm (recip d)]
    exact Nat.mul_le_mul_left _ hle
  have hlower : acc.toNat * 2 ^ 32 ≤ acc.toNat * recip d * d + acc.toNat * d := by
    rw [Nat.mul_assoc, Nat.mul_comm (recip d), ← Nat.mul_add]
    exact Nat.mul_le_mul_left _ hge
  have hsmall : acc.toNat * d ≤ 2147483647 * d := Nat.mul_le_mul_right _ (by omega)
  generalize acc.toNat * recip d = x at *
  have hq : (x + 2 ^ 31) / 2 ^ 32 * 2 ^ 32 ≤ x + 2 ^ 31 := Nat.div_mul_le_self _ _
  have hq' : x + 2 ^ 31 < ((x + 2 ^ 31) / 2 ^ 32 + 1) * 2 ^ 32 := by omega
  rw [hbyte]
  generalize (x + 2 ^ 31) / 2 ^ 32 = q at *
  constructor
  · have hscaled := Nat.mul_le_mul_right d hq
    calc
      2 * min 255 q * d ≤ 2 * q * d := Nat.mul_le_mul_right _ (by omega)
      _ ≤ 2 * acc.toNat + d := by linarith
  · have hscaled := Nat.mul_lt_mul_of_pos_right hq' h1
    rcases Nat.le_total 255 q with hsat | hq255
    · rw [Nat.min_eq_left hsat]
      omega
    · rw [Nat.min_eq_right hq255]
      linarith

/-- Settles O42. -/
theorem outputByteIsWeightedMean : Obligations.OutputByteIsWeightedMean := fun _ _ => finalByte_bounds

/-- Settles O41: of the levels only `v` lies so close to a mean that is `v` itself. -/
theorem stillPictureIsReproduced : Obligations.StillPictureIsReproduced := by
  intro v d hv h1 h2
  have hle : v * d ≤ 255 * d := Nat.mul_le_mul_right _ (by omega)
  have hsum : (BitVec.ofNat 32 (v * d)).toNat = v * d := by
    rw [BitVec.toNat_ofNat, Nat.mod_eq_of_lt (by omega)]
  obtain ⟨habove, hbelow⟩ := finalByte_bounds h1 h2 (hsum.trans_le hle)
  rw [hsum] at habove hbelow
  generalize (finalByte (BitVec.ofNat 32 (v * d)) d).toNat = q at *
  have hq : v < q + 1 := Nat.lt_of_mul_lt_mul_right hbelow
  have hq' : 2 * q ≤ 2 * v + 1 := by
    apply Nat.le_of_mul_le_mul_right _ h1
    linarith
  omega

/-! ## The boundary step -/

/-- An element of a plane cut at a boundary, in the numbers of the interval (R174, R175, R177). -/
theorem read_cutPlane_toNat (t outTime interpTime : U64) {held out : Memory 8} {acc : Memory 32} {p : Nat}
    (ha : p < acc.size) (ho : p < out.size) :
    Memory.read (finalizePlane (t - outTime) held (accumPlane held (t - interpTime) acc) out) p =
      if (t - outTime).toNat = 0 then Memory.read held p
      else finalByte (BitVec.ofNat 32 ((Memory.read acc p).toNat +
        (Memory.read held p).toNat * ((t - interpTime).toNat % 2 ^ 32))) (t - outTime).toNat := by
  have hz : (t - outTime).toNat = 0 ↔ t = outTime := by
    change (t - outTime).toNat = (0 : U64).toNat ↔ _
    rw [BitVec.toNat_inj]
    exact ⟨fun h => (BitVec.sub_eq_iff_eq_add.mp h).trans (by simp), fun h => by simp [h]⟩
  rw [read_cutPlane t outTime interpTime ha ho]
  simp only [hz]

/-- The planes have the sizes of R34 under the reference configuration. -/
theorem Planes.sizes_cfg0 {w : Nat} {p : Planes w} (h : p.wf cfg0 = true) :
    p.y.size = 110592 ∧ p.v.size = 27648 ∧ p.u.size = 27648 := (Planes.wf_iff cfg0 p).mp h

/-- Settles O43. -/
theorem boundaryStepEmitsAverage : Obligations.BoundaryStepEmitsAverage := by
  intro b s hmem
  obtain ⟨_, _, _, _, _, _, _, _, _, _, _, hinterp, hout⟩ := hmem
  obtain ⟨hiy, hiv, hiu⟩ := Planes.sizes_cfg0 hinterp
  obtain ⟨hoy, hov, hou⟩ := Planes.sizes_cfg0 hout
  obtain ⟨hpy, hpv, hpu⟩ := Planes.sizes_cfg0 (cutAt_wf b hout).1
  refine ⟨(cutAt cfg0 b s.frame).outBuf.y, (cutAt cfg0 b s.frame).outBuf.v, (cutAt cfg0 b s.frame).outBuf.u,
    hpy, hpv, hpu, rfl, fun p hp => ⟨?_, read_fill_zero _ _⟩,
    fun p hp => ⟨?_, ?_, read_fill_zero _ _, read_fill_zero _ _⟩, rfl, rfl, rfl, rfl, rfl, rfl⟩
  · exact read_cutPlane_toNat b _ _ (hp.trans_eq hiy.symm) (hp.trans_eq hoy.symm)
  · exact read_cutPlane_toNat b _ _ (hp.trans_eq hiv.symm) (hp.trans_eq hov.symm)
  · exact read_cutPlane_toNat b _ _ (hp.trans_eq hiu.symm) (hp.trans_eq hou.symm)

/-! ## The fold -/

/-- A sum of samples that starts within the bounds of `n` samples does not wrap up to eight samples (R131). -/
theorem foldl_samples_toInt (l : List S16) {sum : S32} {n : Nat} (hn : n + l.length ≤ 8)
    (h : -32768 * (n : Int) ≤ sum.toInt ∧ sum.toInt ≤ 32767 * (n : Int)) :
    (l.foldl (fun sum a => sum + a.signExtend 32) sum).toInt = sum.toInt + (l.map BitVec.toInt).sum := by
  induction l generalizing sum n with
  | nil => simp
  | cons a l ih =>
    rw [List.length_cons] at hn
    have hadd := audioSum_add (by omega) h a
    have h1 := BitVec.toInt_lt (x := a)
    have h2 := BitVec.le_toInt (x := a)
    rw [List.foldl_cons, ih (n := n + 1) (by omega) (by rw [hadd]; omega), hadd, List.map_cons, List.sum_cons,
      Int.add_assoc]

theorem sum_samples_bounds (l : List S16) :
    -32768 * (l.length : Int) ≤ (l.map BitVec.toInt).sum ∧ (l.map BitVec.toInt).sum ≤ 32767 * (l.length : Int) := by
  induction l with
  | nil => simp
  | cons a l ih =>
    have h1 := BitVec.toInt_lt (x := a)
    have h2 := BitVec.le_toInt (x := a)
    rw [List.map_cons, List.sum_cons, List.length_cons]
    omega

/-- A sum in the range of eight samples folds to their rounded mean (R131). -/
theorem foldedSample_toInt {sum : S32} (h : -32768 * 8 ≤ sum.toInt ∧ sum.toInt ≤ 32767 * 8) :
    (foldedSample cfg0 sum).toInt = (sum.toInt + 4) / 8 := by
  rw [foldedSample, cfg0_audioBias, BitVec.toInt_ofInt, Int.bmod_eq_of_le (by omega) (by omega)]

/-- Settles O44. -/
theorem foldIsRoundedMean : Obligations.FoldIsRoundedMean := by
  intro l hl
  have hsum := foldl_samples_toInt l (sum := 0) (n := 0) (by omega) (by decide)
  rw [show (0 : S32).toInt = 0 from rfl, Int.zero_add] at hsum
  have hbounds := sum_samples_bounds l
  rw [foldedSample_toInt (by rw [hsum]; omega), hsum]

/-! ## The ring as a queue -/

/-- A burst enters the queue in order, as far as there is room (R199, R200). -/
theorem audioBurst_live {c : Cfg R σ} (hc : 0 < c.apf) (l : List S16) {s : State σ} (hs : s.audio.ring.size = c.ringCap)
    (h : s.ringInv c) :
    (l.foldl (fun st o => audioOut c o st) s).audio.live c = (s.audio.live c ++ l).take c.ringCap := by
  induction l generalizing s with
  | nil =>
    have hlen : (s.audio.live c).length ≤ c.ringCap := (AudioState.live_length c s.audio).trans_le h.1
    rw [List.foldl_nil, List.append_nil, List.take_of_length_le hlen]
  | cons o l ih =>
    rw [List.foldl_cons]
    rcases Nat.lt_or_ge s.audio.ringCount c.ringCap with hroom | hfull
    · rw [ih ((audioOut_sizes c o s).1.trans hs) (audioOut_ringInv hc o h), (audioOut_live o hs h hroom).1,
        List.append_assoc, List.singleton_append]
    · have heq : s.audio.ringCount = c.ringCap := Nat.le_antisymm h.1 hfull
      have hlen : (s.audio.live c).length = c.ringCap := (AudioState.live_length c s.audio).trans heq
      rw [audioOut_full o heq, ih hs h, List.take_left' hlen, List.take_left' hlen]

/-- Settles O46. -/
theorem ringIsBoundedFifo : Obligations.RingIsBoundedFifo := by
  intro s o l hring _ h
  refine ⟨fun hfull => audioOut_full o hfull, fun hroom => (audioOut_live o hring h hroom).1,
    audioBurst_live (by decide) l hring h, fun h960 => ⟨audioSlice_live h960, live_audioPop cfg0 s.audio⟩⟩

/-! ## The reference converter -/

/-- After `init` the converter's rates are those asked for and its phase is 0 (R196). -/
theorem refResamplerInit_state {inRate outRate : Nat} (hin : inRate < 2 ^ 32) (hout : outRate < 2 ^ 32) :
    (refResamplerInit inRate outRate).inRate.toNat = inRate ∧
    (refResamplerInit inRate outRate).outRate.toNat = outRate ∧ (refResamplerInit inRate outRate).phase.toNat = 0 :=
  ⟨Nat.mod_eq_of_lt hin, Nat.mod_eq_of_lt hout, rfl⟩

/-- Whole periods in two stretches of time, the second of which starts with what the first leaves over. -/
theorem div_add_mod_div (a b n : Nat) (hn : 0 < n) : a / n + (a % n + b) / n = (a + b) / n := by
  conv_rhs => rw [← Nat.div_add_mod a n, Nat.add_assoc, Nat.mul_add_div hn]

/-- The outputs of the converter over any samples: the whole input periods of the time that has passed (R196). -/
theorem runConverter_length (l : List S16) (st : RsState) (hin : 0 < st.inRate.toNat)
    (hphase : st.phase.toNat < st.inRate.toNat) :
    (runConverter refResampler st l).2.length = (st.phase.toNat + l.length * st.outRate.toNat) / st.inRate.toNat := by
  induction l generalizing st with
  | nil => simp [runConverter, Nat.div_eq_of_lt hphase]
  | cons x l ih =>
    obtain ⟨hrate, hout, _, hlt⟩ := refResamplerStep_state st x hin
    have hrest := ih (refResamplerStep st x).1 (by rwa [hrate]) (by rwa [hrate])
    rw [refResamplerStep_phase st x hin, hrate, hout] at hrest
    have hstep : refResampler.step st x = refResamplerStep st x := rfl
    simp only [runConverter, hstep, List.length_append, hrest, refResamplerStep_length]
    rw [div_add_mod_div _ _ _ hin, List.length_cons]
    congr 1
    ring

/-- Settles O47. -/
theorem converterOutputCount : Obligations.ConverterOutputCount := by
  intro inRate outRate l h1 hin hout
  obtain ⟨hi, ho, hp⟩ := refResamplerInit_state hin hout
  have h := runConverter_length l (refResamplerInit inRate outRate) (by omega) (by omega)
  rwa [hi, ho, hp, Nat.zero_add] at h

/-- A weighted mean, rounded to nearest, lies between its two numbers. -/
theorem interpolate_between {p s ph out : Int} (h0 : 0 ≤ ph) (h1 : ph < out) :
    min p s ≤ Int.fdiv (s * (out - ph) + p * ph + out / 2) out ∧
    Int.fdiv (s * (out - ph) + p * ph + out / 2) out ≤ max p s := by
  have hleft : 0 ≤ out - ph := by omega
  have lo1 := mul_le_mul_of_nonneg_right (min_le_right p s) hleft
  have lo2 := mul_le_mul_of_nonneg_right (min_le_left p s) h0
  have hi1 := mul_le_mul_of_nonneg_right (le_max_right p s) hleft
  have hi2 := mul_le_mul_of_nonneg_right (le_max_left p s) h0
  have hhalf : 0 ≤ out / 2 ∧ out / 2 < out := by omega
  rw [Int.fdiv_eq_ediv_of_nonneg _ (by omega)]
  constructor
  · rw [Int.le_ediv_iff_mul_le (by omega)]
    linarith
  · apply Int.le_of_lt_add_one
    rw [Int.ediv_lt_iff_lt_mul (by omega)]
    linarith

/-- An output less than one output period before its input sample lies between the two samples around it (R196). -/
theorem refResamplerOut_between (prev s : S16) {outRate ph : Nat} (h : ph < outRate) :
    min prev.toInt s.toInt ≤ (refResamplerOut outRate prev s ph).toInt ∧
    (refResamplerOut outRate prev s ph).toInt ≤ max prev.toInt s.toInt := by
  have hbetween := interpolate_between (p := prev.toInt) (s := s.toInt) (Int.natCast_nonneg ph) (Int.ofNat_lt.mpr h)
  have h1 := BitVec.toInt_lt (x := s)
  have h2 := BitVec.le_toInt (x := s)
  have h3 := BitVec.toInt_lt (x := prev)
  have h4 := BitVec.le_toInt (x := prev)
  rwa [refResamplerOut, Int.natCast_ediv, Nat.cast_ofNat, BitVec.toInt_ofInt,
    Int.bmod_eq_of_le (by omega) (by omega)]

/-- Settles O48: the phase of an output is less than the output rate, as the phase before the step is less than the input
rate. -/
theorem converterOutputInterpolates : Obligations.ConverterOutputInterpolates := by
  intro st s o hphase ho
  obtain ⟨k, hk, rfl⟩ := List.mem_map.mp ho
  have hturn : (k + 1) * st.inRate.toNat ≤ st.phase.toNat + st.outRate.toNat :=
    (Nat.le_div_iff_mul_le (by omega)).mp (List.mem_range.mp hk)
  have hone : st.inRate.toNat ≤ (k + 1) * st.inRate.toNat := Nat.le_mul_of_pos_left _ (by omega)
  exact refResamplerOut_between _ _ (by omega)

/-- The rates never change and the phase stays below the input rate, whatever the samples (R196). -/
theorem reach_refResampler {inRate outRate : Nat} (h1 : 1 ≤ inRate) (hin : inRate < 2 ^ 32) (hout : outRate < 2 ^ 32)
    {st : RsState} (h : refResampler.Reach inRate outRate st) :
    st.inRate.toNat = inRate ∧ st.outRate.toNat = outRate ∧ st.phase.toNat < inRate := by
  induction h with
  | init =>
    obtain ⟨hi, ho, hp⟩ := refResamplerInit_state hin hout
    exact ⟨hi, ho, by rw [show refResampler.init inRate outRate = refResamplerInit inRate outRate from rfl]; omega⟩
  | step st s _ ih =>
    obtain ⟨hi, ho, _⟩ := ih
    obtain ⟨hrate, hout', _, hlt⟩ := refResamplerStep_state st s (by omega)
    exact ⟨(congrArg BitVec.toNat hrate).trans hi, (congrArg BitVec.toNat hout').trans ho, hi ▸ hlt⟩

/-- The reference converter meets its contract (R195): the phase adds less than one output to `outRate / inRate`. -/
theorem refResampler_lawful : refResampler.Lawful := by
  intro inRate outRate st s h1 hin _ hout hreach
  obtain ⟨hi, ho, hp⟩ := reach_refResampler h1 hin hout hreach
  rw [show refResampler.step st s = refResamplerStep st s from rfl, refResamplerStep_length, hi, ho,
    ← Nat.add_div_right _ h1]
  exact Nat.div_le_div_right (by omega)

/-- Settles O39. -/
theorem referenceInstanceIsValid : Obligations.ReferenceInstanceIsValid :=
  ⟨{ numbers := cfg0_wf, arith := rfl, numerics := exactNumerics_lawful, resampler := refResampler_lawful }, cfg0_wf, rfl⟩

end Sys2Proof.Machine
end

section
/-! SMP as a whole (42_demodulator.md R130): the state after its first steps, its three outcomes, and the invariants that
every step keeps (the memories' sizes, the ring's bookkeeping, `State.Good`, the order of the times), with the proofs of
O49, O50, O51 and O56. -/

namespace Sys2Proof.Machine

variable {R σ : Type}

/-! ## The three outcomes of SMP -/

/-- The state after step 1 of SMP (R130): the cycle is counted and the audio sample taken. -/
def afterAudio (c : Cfg R σ) (a : S16) (s : State σ) : State σ := smpAudio c a { s with cycleCnt := s.cycleCnt + 1 }

/-- The sync state after steps 2 to 4 of SMP (R130). -/
def afterLine (c : Cfg R σ) (f c0 c1 : Byte) (s : State σ) : SyncState := smpLine c (c.mode s.ntsc) f c0 c1 s.sync

/-- The picture after the line of this cycle is decoded (R150). -/
def afterDecode (c : Cfg R σ) (f c0 c1 : Byte) (s : State σ) : Memory 32 :=
  (decodeLine c { s with sync := afterLine c f c0 c1 s }).videoBuf

/-- Step 1 writes the cycle counter, the audio path but the read index, and the boundary FIFO (R131). -/
theorem afterAudio_frame (c : Cfg R σ) (a : S16) (s : State σ) :
    afterAudio c a s =
      { s with
        cycleCnt := s.cycleCnt + 1
        audio := { (afterAudio c a s).audio with ringRd := s.audio.ringRd }
        frame := { s.frame with
          bndFifo := (afterAudio c a s).frame.bndFifo, bndCount := (afterAudio c a s).frame.bndCount } } :=
  smpAudio_frame c a { s with cycleCnt := s.cycleCnt + 1 }

/-- All SMP can do: go on inside the line, end a line, or end a line and complete a frame (R130, R139, R146). -/
theorem smp_cases (c : Cfg R σ) (f c0 c1 : Byte) (a : S16) (s : State σ) :
    (((afterLine c f c0 c1 s).lineCnt + 1).toNat < (afterLine c f c0 c1 s).lineLength.toNat ∧
      smp c f c0 c1 a s =
        { afterAudio c a s with
          sync := { afterLine c f c0 c1 s with lineCnt := (afterLine c f c0 c1 s).lineCnt + 1 } }) ∨
    ((afterLine c f c0 c1 s).lineLength.toNat ≤ ((afterLine c f c0 c1 s).lineCnt + 1).toNat ∧
      (lineAdvance c (afterLine c f c0 c1 s)).vsyncCnt ≠ 0 ∧
      smp c f c0 c1 a s =
        { afterAudio c a s with
          videoBuf := afterDecode c f c0 c1 s, sync := lineAdvance c (afterLine c f c0 c1 s) }) ∨
    ((afterLine c f c0 c1 s).lineLength.toNat ≤ ((afterLine c f c0 c1 s).lineCnt + 1).toNat ∧
      (lineAdvance c (afterLine c f c0 c1 s)).vsyncCnt = 0 ∧
      smp c f c0 c1 a s =
        frameDone c { afterAudio c a s with
          videoBuf := afterDecode c f c0 c1 s, sync := topOfField (lineAdvance c (afterLine c f c0 c1 s)) }) := by
  have hsmp : smp c f c0 c1 a s = smpAdvance c { afterAudio c a s with sync := afterLine c f c0 c1 s } :=
    smp_eq c f c0 c1 a s
  have hdecode : (decodeLine c { afterAudio c a s with
      sync := { afterLine c f c0 c1 s with lineCnt := (afterLine c f c0 c1 s).lineCnt + 1 } }).videoBuf =
      afterDecode c f c0 c1 s := by
    refine decodeLine_videoBuf_congr ?_ ?_ ?_ _ _ <;> rw [afterAudio_frame]
  rw [hsmp]
  rcases smpAdvance_cases c { afterAudio c a s with sync := afterLine c f c0 c1 s } with ⟨hin, e⟩ | ⟨hend, e⟩
  · exact .inl ⟨hin, e⟩
  · rw [e]
    refine .inr ?_
    rcases lineDone_cases c { afterAudio c a s with
      sync := { afterLine c f c0 c1 s with lineCnt := (afterLine c f c0 c1 s).lineCnt + 1 } } with ⟨hv, e⟩ | ⟨hv, e⟩
    · exact .inl ⟨hend, hv, by rw [e, hdecode]; rfl⟩
    · exact .inr ⟨hend, hv, by rw [e, hdecode]; rfl⟩

/-! ## The sizes of the memories (R40, R54) -/

theorem Memory.wf_of_size_eq {w n : Nat} {m m' : Memory w} (hs : m'.size = m.size) (h : Memory.wf n m = true) :
    Memory.wf n m' = true := by
  rw [Memory.wf_iff] at h ⊢
  exact hs.trans h

theorem afterAudio_memoryWf {c : Cfg R σ} (a : S16) {s : State σ} (h : s.memoryWf c) :
    (afterAudio c a s).memoryWf c := by
  obtain ⟨hccp, hact, hyuv, hdata, htable, hline, hring, hvideo, hfifo, hplanes⟩ := h
  obtain ⟨hr, hf⟩ := smpAudio_sizes c a { s with cycleCnt := s.cycleCnt + 1 }
  have hring' : Memory.wf c.ringCap (afterAudio c a s).audio.ring = true := Memory.wf_of_size_eq hr hring
  have hfifo' : Memory.wf 8 (afterAudio c a s).frame.bndFifo = true := Memory.wf_of_size_eq hf hfifo
  rw [afterAudio_frame]
  exact ⟨hccp, hact, hyuv, hdata, htable, hline, hring', hvideo, hfifo', hplanes⟩

theorem afterLine_lineBuf_size (c : Cfg R σ) (f c0 c1 : Byte) (s : State σ) :
    (afterLine c f c0 c1 s).lineBuf.size = s.sync.lineBuf.size := by
  rw [afterLine, smpLine, smpAppend_size, smpBurst_frame, smpSync_frame]

theorem frameDone_memoryWf {c : Cfg R σ} {s : State σ} (h : s.memoryWf c) : (frameDone c s).memoryWf c := by
  obtain ⟨hccp, hact, hyuv, hdata, htable, hline, hring, hvideo, hframe⟩ := h
  have hframe' := frameDone_sizes hframe
  rw [frameDone_frame]
  exact ⟨hccp, hact, hyuv, hdata, htable, hline, hring, hvideo, hframe'⟩

/-- A line buffer and a picture of the right sizes can be put in place. -/
theorem memoryWf_of_lineBuf_videoBuf {c : Cfg R σ} {s : State σ} (h : s.memoryWf c) {y : SyncState} {video : Memory 32}
    (hline : y.lineBuf.size = s.sync.lineBuf.size) (hvideo : video.size = s.videoBuf.size) :
    { s with videoBuf := video, sync := y }.memoryWf c := by
  obtain ⟨hccp, hact, hyuv, hdata, htable, hline', hring, hvideo', hframe⟩ := h
  exact ⟨hccp, hact, hyuv, hdata, htable, Memory.wf_of_size_eq hline hline', hring,
    Memory.wf_of_size_eq hvideo hvideo', hframe⟩

theorem smp_memoryWf {c : Cfg R σ} (f c0 c1 : Byte) (a : S16) {s : State σ} (h : s.memoryWf c) :
    (smp c f c0 c1 a s).memoryWf c := by
  have hp := afterAudio_memoryWf a h
  have hline : (afterLine c f c0 c1 s).lineBuf.size = (afterAudio c a s).sync.lineBuf.size := by
    rw [afterLine_lineBuf_size, afterAudio_frame]
  have hvideo : (afterDecode c f c0 c1 s).size = (afterAudio c a s).videoBuf.size := by
    rw [afterDecode, decodeLine_size, afterAudio_frame]
  rcases smp_cases c f c0 c1 a s with ⟨_, e⟩ | ⟨_, _, e⟩ | ⟨_, _, e⟩ <;> rw [e]
  · exact memoryWf_of_lineBuf_videoBuf hp hline rfl
  · exact memoryWf_of_lineBuf_videoBuf hp hline hvideo
  · exact frameDone_memoryWf (memoryWf_of_lineBuf_videoBuf hp hline hvideo)

/-- Every command keeps the sizes of the memories. -/
theorem commandOf_memoryWf {c : Cfg R σ} (i : Instr) {s : State σ} (h : s.memoryWf c) :
    (commandOf c i s).memoryWf c := by
  cases i
  case smp f c0 c1 a => exact smp_memoryWf f c0 c1 a h
  case rst => exact resetOf_memoryWf c
  case sclk hz =>
    rcases setClock_cases c hz s with ⟨_, e⟩ | ⟨_, e⟩ <;> rw [commandOf, e] <;> exact h
  case smode n =>
    rcases setMode_cases c n s with ⟨_, e⟩ | ⟨_, e⟩ <;> rw [commandOf, e]
    · exact h
    · obtain ⟨hccp, hact, hyuv, _, _, hrest⟩ := h
      exact ⟨hccp, hact, hyuv, Memory.wf_tabulate _ _, Memory.wf_tabulate _ _, hrest⟩
  case sccp idx val =>
    obtain ⟨hccp, hrest⟩ := h
    rcases stageParam_cases c idx val s with ⟨_, e⟩ | ⟨_, e⟩ <;> rw [commandOf, e]
    · exact ⟨Memory.wf_write hccp _ _, hrest⟩
    · exact ⟨hccp, hrest⟩
  case syuv n cmp idx val =>
    obtain ⟨hccp, hact, hyuv, hrest⟩ := h
    rcases writeIdxYuv_cases n cmp idx val s with ⟨_, e⟩ | ⟨_, e⟩ <;> rw [commandOf, e]
    · exact ⟨hccp, hact, Memory.wf_write hyuv _ _, hrest⟩
    · exact ⟨hccp, hact, hyuv, hrest⟩
  case cbld yuv =>
    obtain ⟨hccp, _, hyuv, _, _, hrest⟩ := h
    exact ⟨hccp, hccp, hyuv, Memory.wf_tabulate _ _, Memory.wf_tabulate _ _, hrest⟩
  case cmwr addr data =>
    obtain ⟨hccp, hact, hyuv, hdata, hrest⟩ := h
    rcases writeColormap_cases c addr data s with ⟨_, e⟩ | ⟨_, e⟩ <;> rw [commandOf, e]
    · exact ⟨hccp, hact, hyuv, Memory.wf_write hdata _ _, hrest⟩
    · exact ⟨hccp, hact, hyuv, hdata, hrest⟩
  all_goals exact h

/-! ## The ring's bookkeeping (R36, R183, R200, R204) -/

theorem afterAudio_ringInv {c : Cfg R σ} (hc : 0 < c.apf) (a : S16) {s : State σ} (h : s.ringInv c) :
    (afterAudio c a s).ringInv c := smpAudio_ringInv (s := { s with cycleCnt := s.cycleCnt + 1 }) hc a h

theorem smp_ringInv {c : Cfg R σ} (hc : 0 < c.apf) (f c0 c1 : Byte) (a : S16) {s : State σ} (h : s.ringInv c) :
    (smp c f c0 c1 a s).ringInv c := by
  have hp := afterAudio_ringInv hc a h
  rcases smp_cases c f c0 c1 a s with ⟨_, e⟩ | ⟨_, _, e⟩ | ⟨_, _, e⟩ <;> rw [e]
  · exact hp
  · exact hp
  · exact frameDone_ringInv (s := { afterAudio c a s with
      videoBuf := afterDecode c f c0 c1 s, sync := topOfField (lineAdvance c (afterLine c f c0 c1 s)) }) hc hp

/-- The ring is empty after reset (R231). -/
theorem resetOf_ringInv {c : Cfg R σ} (hc : 0 < c.apf) : (State.resetOf c).ringInv c := by
  have hcap : 0 < c.ringCap := Nat.mul_pos (by decide) hc
  exact ⟨Nat.zero_le _, hcap, hcap, Nat.zero_mod _, Nat.zero_mod _, hc, (Nat.zero_mul _).symm, Nat.zero_le _⟩

/-- Every command keeps the ring's bookkeeping: only SMP, SCLK (in the converter's state) and RST touch the audio path. -/
theorem commandOf_ringInv {c : Cfg R σ} (hc : 0 < c.apf) (i : Instr) {s : State σ} (h : s.ringInv c) :
    (commandOf c i s).ringInv c := by
  cases i
  case smp f c0 c1 a => exact smp_ringInv hc f c0 c1 a h
  case rst => exact resetOf_ringInv hc
  case sclk hz => rcases setClock_cases c hz s with ⟨_, e⟩ | ⟨_, e⟩ <;> rw [commandOf, e] <;> exact h
  case smode n => rcases setMode_cases c n s with ⟨_, e⟩ | ⟨_, e⟩ <;> rw [commandOf, e] <;> exact h
  case sccp idx val => rcases stageParam_cases c idx val s with ⟨_, e⟩ | ⟨_, e⟩ <;> rw [commandOf, e] <;> exact h
  case syuv n cmp idx val =>
    rcases writeIdxYuv_cases n cmp idx val s with ⟨_, e⟩ | ⟨_, e⟩ <;> rw [commandOf, e] <;> exact h
  case cmwr addr data =>
    rcases writeColormap_cases c addr data s with ⟨_, e⟩ | ⟨_, e⟩ <;> rw [commandOf, e] <;> exact h
  all_goals exact h

/-! ## Every configuration -/

/-- What does not depend on the port, holds after reset and is kept by every command, is kept by every step. -/
theorem stepOf_keeps {c : Cfg R σ} {P : State σ → Prop} (hport : ∀ s input, P s → P { s with input := input })
    (hreset : ∀ s, P s → P (resetMachine c s)) (hcommand : ∀ i s, P s → P (commandOf c i s)) {s : State σ} (h : P s) :
    P (stepOf c s) := by
  unfold stepOf
  split
  · exact h
  · exact hreset _ (hport _ _ h)
  · exact hcommand _ _ (hport _ _ h)

/-- R5's constraints on the rates make `APF` positive. -/
theorem apf_pos_of_wf {c : Cfg R σ} (h : c.wf = true) : 0 < c.apf := by
  have hrates : 0 < c.sampleRate ∧ 0 < c.frameRate ∧ c.sampleRate % c.frameRate = 0 := by
    simp only [Cfg.wf, Bool.and_eq_true, decide_eq_true_eq] at h
    tauto
  obtain ⟨hsample, hframe, hmod⟩ := hrates
  exact Nat.div_pos (Nat.le_of_dvd hsample (Nat.dvd_of_mod_eq_zero hmod)) hframe

/-- Settles O56. -/
theorem everyConfigurationKeepsMemoryAndRing : Obligations.EveryConfigurationKeepsMemoryAndRing := by
  intro R σ c hwf
  have hc := apf_pos_of_wf hwf
  refine ⟨⟨resetOf_memoryWf c, resetOf_ringInv hc⟩, fun s hmem hring => ⟨?_, ?_⟩⟩
  · exact stepOf_keeps (P := fun s => s.memoryWf c) (fun _ _ h => h) (fun _ _ => resetOf_memoryWf c)
      (fun i _ => commandOf_memoryWf i) hmem
  · exact stepOf_keeps (P := fun s => s.ringInv c) (fun _ _ h => h) (fun _ _ => resetOf_ringInv hc)
      (fun i _ => commandOf_ringInv hc i) hring

/-! ## Good states -/

/-- SMP writes no configuration register and no colormap (R236), and counts one cycle (R130). -/
theorem smp_frame (c : Cfg R σ) (f c0 c1 : Byte) (a : S16) (s : State σ) :
    smp c f c0 c1 a s =
      { s with
        sync := (smp c f c0 c1 a s).sync, audio := (smp c f c0 c1 a s).audio, cycleCnt := s.cycleCnt + 1
        videoBuf := (smp c f c0 c1 a s).videoBuf, frame := (smp c f c0 c1 a s).frame
        events := (smp c f c0 c1 a s).events } := by
  rcases smp_cases c f c0 c1 a s with ⟨_, e⟩ | ⟨_, _, e⟩ | ⟨_, _, e⟩ <;> rw [e]
  · rw [afterAudio_frame]
  · rw [afterAudio_frame]
  · rw [frameDone_frame, afterAudio_frame]

/-- The sync state SMP leaves: further inside the line, at the next line, or at the top of a field (R139, R146). -/
theorem smp_sync_cases (c : Cfg R σ) (f c0 c1 : Byte) (a : S16) (s : State σ) :
    (((afterLine c f c0 c1 s).lineCnt + 1).toNat < (afterLine c f c0 c1 s).lineLength.toNat ∧
      (smp c f c0 c1 a s).sync =
        { afterLine c f c0 c1 s with lineCnt := (afterLine c f c0 c1 s).lineCnt + 1 }) ∨
    (smp c f c0 c1 a s).sync = lineAdvance c (afterLine c f c0 c1 s) ∨
    (smp c f c0 c1 a s).sync = topOfField (lineAdvance c (afterLine c f c0 c1 s)) := by
  rcases smp_cases c f c0 c1 a s with ⟨hin, e⟩ | ⟨_, _, e⟩ | ⟨_, _, e⟩ <;> rw [e]
  · exact .inl ⟨hin, rfl⟩
  · exact .inr (.inl rfl)
  · rw [frameDone_frame]
    exact .inr (.inr rfl)

/-- The audio path SMP leaves is that of step 1, up to what FRAME_DONE takes out of the ring. -/
theorem smp_audio (c : Cfg R σ) (f c0 c1 : Byte) (a : S16) (s : State σ) :
    (smp c f c0 c1 a s).audio =
      { (afterAudio c a s).audio with
        ringRd := (smp c f c0 c1 a s).audio.ringRd, ringCount := (smp c f c0 c1 a s).audio.ringCount } := by
  rcases smp_cases c f c0 c1 a s with ⟨_, e⟩ | ⟨_, _, e⟩ | ⟨_, _, e⟩ <;> rw [e]
  rw [frameDone_frame]

/-- The line registers stay in their bounds (R25, R26, R139, R143, R148). -/
theorem smp_syncInv (f c0 c1 : Byte) (a : S16) {s : State} (hline : s.sync.lineInv (cfg0.mode s.ntsc))
    (hbuffer : s.sync.bufferInv cfg0) (hrow : s.sync.rowInv cfg0) :
    (smp cfg0 f c0 c1 a s).sync.lineInv (cfg0.mode s.ntsc) ∧ (smp cfg0 f c0 c1 a s).sync.bufferInv cfg0 ∧
    (smp cfg0 f c0 c1 a s).sync.rowInv cfg0 := by
  obtain ⟨_, hpos, _, hmin, _, _, hmax, _⟩ := cfg0_mode_bounds s.ntsc
  obtain ⟨hcur, _, hline', hbuffer'⟩ := smpLine_keeps (c := cfg0) (by decide) (m := cfg0.mode s.ntsc) (by omega)
    (by omega) f c0 c1 (y := s.sync)
  have hrow' : (afterLine cfg0 f c0 c1 s).rowInv cfg0 := by
    rw [SyncState.rowInv, afterLine, hcur]
    exact hrow
  obtain ⟨hlength, hperiod, hfilter, _⟩ := hline' hline
  have hnext := lineAdvance_lineInv (c := cfg0) (by omega) hlength hperiod hfilter
  rcases smp_sync_cases cfg0 f c0 c1 a s with ⟨hin, e⟩ | e | e <;> rw [e]
  · exact ⟨⟨hlength, hperiod, hfilter, hin⟩, hbuffer' hbuffer, hrow'⟩
  · exact ⟨hnext, lineAdvance_bufferInv _ _, lineAdvance_rowInv (by decide) hrow'⟩
  · exact ⟨hnext, lineAdvance_bufferInv cfg0 (afterLine cfg0 f c0 c1 s), topOfField_rowInv _⟩

theorem smp_converterInv (f c0 c1 : Byte) (a : S16) {s : State} (h : s.converterInv cfg0) :
    (smp cfg0 f c0 c1 a s).converterInv cfg0 := by
  have hp : (afterAudio cfg0 a s).converterInv cfg0 :=
    smpAudio_converterInv (s := { s with cycleCnt := s.cycleCnt + 1 }) a h
  have hclock : (afterAudio cfg0 a s).clockFreq = s.clockFreq := by rw [afterAudio_frame]
  rw [State.converterInv, hclock] at hp
  rw [State.converterInv, smp_audio, smp_frame]
  exact hp

theorem smp_good (f c0 c1 : Byte) (a : S16) {s : State} (h : s.Good cfg0) : (smp cfg0 f c0 c1 a s).Good cfg0 := by
  obtain ⟨hline, hbuffer, hrow⟩ := smp_syncInv f c0 c1 a h.line h.buffer h.row
  refine ⟨smp_memoryWf f c0 c1 a h.memory, ?_, ?_, ?_, hbuffer, hrow, smp_ringInv (by decide) f c0 c1 a h.ring,
    smp_converterInv f c0 c1 a h.converter⟩
  · rw [smp_frame]
    exact h.params
  · rw [smp_frame]
    exact h.bands
  · rw [smp_frame]
    exact hline

/-- CM_BUILD's table holds bands (R19, R113). -/
theorem buildTable_cfg0_lt (ntsc : Bool) (p : Nat) (hp : p < 256) :
    (Memory.read (buildTable cfg0 ntsc) p).toNat < 18 := by
  have h := read_buildTable_toNat cfg0_wf ntsc (BitVec.ofNat 8 p)
  rw [BitVec.toNat_ofNat, Nat.mod_eq_of_lt hp] at h
  exact h.trans_lt (bandOf_cfg0_lt ntsc _)

theorem reset_good : State.reset.Good cfg0 := by
  obtain ⟨hline, hbuffer, hrow⟩ := syncInitial_inv false (Memory.fill (3 * cfg0.lineBufGroups) 0)
  exact ⟨reset_memoryWf, fun idx h => ⟨neutralCcp_inRange idx h, neutralCcp_inRange idx h⟩, buildTable_cfg0_lt false,
    hline, hbuffer, hrow, resetOf_ringInv (by decide), by decide +kernel⟩

/-- What the host will present is no part of a good state. -/
theorem good_of_input {s : State} (h : s.Good cfg0) (input : List HostInput) : { s with input := input }.Good cfg0 :=
  ⟨h.memory, h.params, h.bands, h.line, h.buffer, h.row, h.ring, h.converter⟩

theorem emit_good (e : Event) {s : State} (h : s.Good cfg0) : (emit e s).Good cfg0 :=
  ⟨h.memory, h.params, h.bands, h.line, h.buffer, h.row, h.ring, h.converter⟩

theorem resetMachine_good (s : State) : (resetMachine cfg0 s).Good cfg0 :=
  have h := reset_good
  ⟨h.memory, h.params, h.bands, h.line, h.buffer, h.row, h.ring, h.converter⟩

theorem setClock_good (hz : U32) {s : State} (h : s.Good cfg0) : (setClock cfg0 hz s).Good cfg0 := by
  rcases setClock_cases cfg0 hz s with ⟨hge, e⟩ | ⟨_, e⟩ <;> rw [e]
  · obtain ⟨_, _, _, _, hsum⟩ := h.converter
    obtain ⟨hin, hout, hphase⟩ := refResamplerInit_state (inRate := hz.toNat / 8) (outRate := 48000) (by omega) (by decide)
    refine ⟨h.memory, h.params, h.bands, h.line, h.buffer, h.row, h.ring, hge, hin, hout, ?_, hsum⟩
    exact (hphase.trans_lt (by omega : 0 < hz.toNat / 8)).trans_eq hin.symm
  · exact h

theorem setMode_good (n : Bool) {s : State} (h : s.Good cfg0) : (setMode cfg0 n s).Good cfg0 := by
  have hmem : (setMode cfg0 n s).memoryWf cfg0 := commandOf_memoryWf (.smode n) h.memory
  rcases setMode_cases cfg0 n s with ⟨_, e⟩ | ⟨_, e⟩ <;> rw [e] at hmem ⊢
  · exact h
  · obtain ⟨hline, hbuffer, hrow⟩ := syncInitial_inv n s.sync.lineBuf
    exact ⟨hmem, h.params, buildTable_cfg0_lt n, hline, hbuffer, hrow, h.ring, h.converter⟩

/-- A value that SCCP writes lies in its clamp range (R15, R85). -/
theorem ccpClamp_inRange {idx : Nat} (h : idx ≤ 13) (val : S32) :
    qBound (ccpLo cfg0 idx) ≤ (ccpClamp cfg0 idx val).toInt ∧
    (ccpClamp cfg0 idx val).toInt ≤ qBound (ccpHi cfg0 idx) := by
  obtain ⟨_, hle, _⟩ := cfg0_clampRange idx h
  rw [ccpClamp_toInt h]
  omega

theorem stageParam_good (idx : Nat) (val : S32) {s : State} (h : s.Good cfg0) :
    (stageParam cfg0 idx val s).Good cfg0 := by
  have hmem : (stageParam cfg0 idx val s).memoryWf cfg0 := commandOf_memoryWf (.sccp idx val) h.memory
  rcases stageParam_cases cfg0 idx val s with ⟨hidx, e⟩ | ⟨_, e⟩ <;> rw [e] at hmem ⊢
  · refine ⟨hmem, fun j hj => ⟨?_, (h.params j hj).2⟩, h.bands, h.line, h.buffer, h.row, h.ring, h.converter⟩
    rw [Memory.read_write]
    split
    next hij => exact hij.1 ▸ ccpClamp_inRange hidx val
    next => exact (h.params j hj).1
  · exact h

theorem writeIdxYuv_good (n : Bool) (cmp idx : Nat) (val : S32) {s : State} (h : s.Good cfg0) :
    (writeIdxYuv n cmp idx val s).Good cfg0 := by
  have hmem : (writeIdxYuv n cmp idx val s).memoryWf cfg0 := commandOf_memoryWf (.syuv n cmp idx val) h.memory
  rcases writeIdxYuv_cases n cmp idx val s with ⟨_, e⟩ | ⟨_, e⟩ <;> rw [e] at hmem ⊢
  · exact ⟨hmem, h.params, h.bands, h.line, h.buffer, h.row, h.ring, h.converter⟩
  · exact h

theorem commitParams_good (yuv : Bool) {s : State} (h : s.Good cfg0) : (commitParams cfg0 yuv s).Good cfg0 :=
  ⟨commandOf_memoryWf (.cbld yuv) h.memory, fun idx hidx => ⟨(h.params idx hidx).1, (h.params idx hidx).1⟩,
    buildTable_cfg0_lt s.ntsc, h.line, h.buffer, h.row, h.ring, h.converter⟩

theorem writeColormap_good (addr : Nat) (data : U32) {s : State} (h : s.Good cfg0) :
    (writeColormap cfg0 addr data s).Good cfg0 := by
  have hmem : (writeColormap cfg0 addr data s).memoryWf cfg0 := commandOf_memoryWf (.cmwr addr data) h.memory
  rcases writeColormap_cases cfg0 addr data s with ⟨_, e⟩ | ⟨_, e⟩ <;> rw [e] at hmem ⊢
  · exact ⟨hmem, h.params, h.bands, h.line, h.buffer, h.row, h.ring, h.converter⟩
  · exact h

theorem commandOf_good (i : Instr) {s : State} (h : s.Good cfg0) : (commandOf cfg0 i s).Good cfg0 := by
  cases i with
  | smp f c0 c1 a => exact smp_good f c0 c1 a h
  | sclk hz => exact setClock_good hz h
  | smode n => exact setMode_good n h
  | sccp idx val => exact stageParam_good idx val h
  | syuv n cmp idx val => exact writeIdxYuv_good n cmp idx val h
  | cbld yuv => exact commitParams_good yuv h
  | cmrd addr => exact emit_good _ h
  | cmwr addr data => exact writeColormap_good addr data h
  | rdsr idx => exact emit_good _ h
  | rst => exact resetMachine_good s
  | nop | reservedB | reservedC | reservedD | reservedE | reservedF => exact h

/-- Settles O50: each command keeps a good state good. -/
theorem stepKeepsStateGood : Obligations.StepKeepsStateGood := by
  intro s t h hstep
  rw [step_eq_stepOf] at hstep
  cases hstep
  exact stepOf_keeps (P := fun s => s.Good cfg0) (fun _ input h => good_of_input h input)
    (fun s _ => resetMachine_good s) (fun i _ => commandOf_good i) h

/-! ## The order of the times (R178) -/

/-- After reset every time is 0 and no boundary is pending. -/
theorem reset_timesInOrder : State.reset.timesInOrder :=
  ⟨Nat.le_refl _, Nat.le_refl _, rfl, Nat.le_refl _, fun i hi => absurd hi (Nat.not_lt_zero i)⟩

/-- Settles O49. -/
theorem resetStateIsGood : Obligations.ResetStateIsGood := ⟨reset_good, reset_timesInOrder⟩

/-- A later cycle count keeps the times in order. -/
theorem timesInOrder_of_cycleCnt {s : State σ} (h : s.timesInOrder) {n : U64} (hn : s.cycleCnt.toNat ≤ n.toNat) :
    { s with cycleCnt := n }.timesInOrder := by
  obtain ⟨hout, hinterp, hframe1, hframe0, hfifo⟩ := h
  refine ⟨hout, hinterp.trans hn, hframe1, hframe0, fun i hi => ?_⟩
  obtain ⟨hlo, hhi, hnext⟩ := hfifo i hi
  exact ⟨hlo, hhi.trans hn, hnext⟩

/-- A boundary latched at this cycle is the newest (R199). -/
theorem latchBoundary_timesInOrder {s : State σ} (h : s.timesInOrder) (hroom : s.frame.bndCount < s.frame.bndFifo.size)
    (a : AudioState σ) :
    { s with audio := a, frame := latchBoundary s.cycleCnt s.frame }.timesInOrder := by
  obtain ⟨hout, hinterp, hframe1, hframe0, hfifo⟩ := h
  refine ⟨hout, hinterp, hframe1, hframe0, fun i hi => ?_⟩
  have hread (j : Nat) (hj : j ≠ s.frame.bndCount) :
      Memory.read (latchBoundary s.cycleCnt s.frame).bndFifo j = Memory.read s.frame.bndFifo j :=
    Memory.read_write_other _ _ hj.symm
  have hlast : Memory.read (latchBoundary s.cycleCnt s.frame).bndFifo s.frame.bndCount = s.cycleCnt :=
    Memory.read_write_same _ _ hroom
  rcases Nat.lt_or_eq_of_le (Nat.le_of_lt_succ hi) with hold | rfl
  · obtain ⟨hlo, hhi, hnext⟩ := hfifo i hold
    dsimp only
    rw [hread i (by omega)]
    refine ⟨hlo, hhi, fun _ => ?_⟩
    rcases Nat.lt_or_ge (i + 1) s.frame.bndCount with hold' | hnew
    · rw [hread (i + 1) (by omega)]
      exact hnext hold'
    · rw [show i + 1 = s.frame.bndCount by omega, hlast]
      exact hhi
  · dsimp only
    rw [hlast]
    exact ⟨hinterp, Nat.le_refl _, fun h => absurd h (Nat.lt_irrefl _)⟩

/-- A ring that is not full leaves room for a boundary (R183, R200). -/
theorem bndCount_lt_of_not_full {c : Cfg R σ} {s : State σ} (h : s.ringInv c) (hroom : s.audio.ringCount ≠ c.ringCap) :
    s.frame.bndCount < 8 := by
  obtain ⟨hle, _, _, _, _, _, hcount, h8⟩ := h
  have hcap : c.ringCap = 8 * c.apf := rfl
  rcases Nat.lt_or_eq_of_le h8 with hlt | heq
  · exact hlt
  · rw [heq] at hcount
    omega

theorem audioOut_timesInOrder {c : Cfg R σ} (o : S16) {s : State σ} (h : s.timesInOrder) (hring : s.ringInv c)
    (h8 : s.frame.bndFifo.size = 8) : (audioOut c o s).timesInOrder := by
  rcases audioOut_cases c o s with ⟨_, e⟩ | ⟨hroom, _, e⟩ | ⟨_, _, e⟩ <;> rw [e]
  · exact h
  · exact latchBoundary_timesInOrder h (h8 ▸ bndCount_lt_of_not_full hring hroom) _
  · exact h

theorem audioBurst_timesInOrder {c : Cfg R σ} (hc : 0 < c.apf) (l : List S16) {s : State σ} (h : s.timesInOrder)
    (hring : s.ringInv c) (h8 : s.frame.bndFifo.size = 8) :
    (l.foldl (fun st o => audioOut c o st) s).timesInOrder := by
  induction l generalizing s with
  | nil => exact h
  | cons o l ih =>
    exact ih (audioOut_timesInOrder o h hring h8) (audioOut_ringInv hc o hring) ((audioOut_sizes c o s).2.trans h8)

theorem smpAudio_timesInOrder {c : Cfg R σ} (hc : 0 < c.apf) (a : S16) {s : State σ} (h : s.timesInOrder)
    (hring : s.ringInv c) (h8 : s.frame.bndFifo.size = 8) : (smpAudio c a s).timesInOrder := by
  by_cases h7 : s.audio.audioCnt = 7
  · rw [smpAudio_folds a h7]
    exact audioBurst_timesInOrder hc _ h hring h8
  · rw [smpAudio_accumulates a h7]
    exact h

/-- Step 1 of SMP keeps the times in order, as long as the cycle counter does not wrap. -/
theorem afterAudio_timesInOrder {c : Cfg R σ} (hc : 0 < c.apf) (a : S16) {s : State σ} (h : s.timesInOrder)
    (hring : s.ringInv c) (h8 : s.frame.bndFifo.size = 8) (hwrap : s.cycleCnt.toNat + 1 < 2 ^ 64) :
    (afterAudio c a s).timesInOrder := by
  have hcycle : (s.cycleCnt + 1).toNat = s.cycleCnt.toNat + 1 := by
    rw [BitVec.toNat_add, show (1 : U64).toNat = 1 from rfl, Nat.mod_eq_of_lt hwrap]
  exact smpAudio_timesInOrder hc a (timesInOrder_of_cycleCnt h (by omega)) hring h8

/-- FRAME_DONE moves the times to this cycle and the end of the last interval to the newest boundary (R173, R174). -/
theorem frameDone_timesInOrder {c : Cfg R σ} {s : State σ} (h : s.timesInOrder) (h8 : s.frame.bndFifo.size = 8)
    (hle : s.frame.bndCount ≤ 8) : (frameDone c s).timesInOrder := by
  obtain ⟨hout, hinterp, hframe1, _, hfifo⟩ := h
  obtain ⟨_, h0, _, h1, hi⟩ := frameDone_generations c s
  have hcycle : (frameDone c s).cycleCnt = s.cycleCnt := by rw [frameDone_frame]
  have hout' : (frameDone c s).frame.outTime.toNat ≤ s.cycleCnt.toNat := by
    rcases Nat.eq_zero_or_pos s.frame.bndCount with hnone | hsome
    · rw [show (frameDone c s).frame.outTime = s.frame.outTime by rw [frameDone, hnone]; rfl]
      exact hout.trans hinterp
    · rw [frameDone_outTime c h8 hle hsome]
      exact (hfifo _ (by omega)).2.1
  refine ⟨?_, ?_, ?_, ?_, fun i hi => ?_⟩
  · rwa [hi]
  · rw [hi, hcycle]
  · rw [h1, hi]
  · rw [h0, h1, hframe1]
    exact hinterp
  · rw [(frameDone_counts c s).1] at hi
    exact absurd hi (Nat.not_lt_zero i)

theorem smp_timesInOrder (f c0 c1 : Byte) (a : S16) {s : State} (hgood : s.Good cfg0) (h : s.timesInOrder)
    (hwrap : s.cycleCnt.toNat + 1 < 2 ^ 64) : (smp cfg0 f c0 c1 a s).timesInOrder := by
  obtain ⟨_, _, _, _, _, _, _, _, hfifo, _⟩ := hgood.memory
  have h8 : s.frame.bndFifo.size = 8 := (Memory.wf_iff _ _).mp hfifo
  have hp := afterAudio_timesInOrder (by decide) a h hgood.ring h8 hwrap
  rcases smp_cases cfg0 f c0 c1 a s with ⟨_, e⟩ | ⟨_, _, e⟩ | ⟨_, _, e⟩ <;> rw [e]
  · exact hp
  · exact hp
  · obtain ⟨_, _, _, _, _, _, _, hle⟩ := afterAudio_ringInv (by decide) a hgood.ring
    exact frameDone_timesInOrder (s := { afterAudio cfg0 a s with
      videoBuf := afterDecode cfg0 f c0 c1 s
      sync := topOfField (lineAdvance cfg0 (afterLine cfg0 f c0 c1 s)) }) hp
      ((smpAudio_sizes cfg0 a { s with cycleCnt := s.cycleCnt + 1 }).2.trans h8) hle

/-- The order of the times is one of the Frame Resampler and the cycle counter. -/
theorem timesInOrder_congr {s t : State σ} (hframe : t.frame = s.frame) (hcycle : t.cycleCnt = s.cycleCnt)
    (h : s.timesInOrder) : t.timesInOrder := by
  rw [State.timesInOrder, hframe, hcycle]
  exact h

theorem commandOf_timesInOrder (i : Instr) {s : State} (hgood : s.Good cfg0) (h : s.timesInOrder)
    (hwrap : s.cycleCnt.toNat + 1 < 2 ^ 64) : (commandOf cfg0 i s).timesInOrder := by
  by_cases hrst : i = .rst
  · subst hrst
    exact reset_timesInOrder
  · by_cases hsmp : ∃ f c0 c1 a, i = .smp f c0 c1 a
    · obtain ⟨f, c0, c1, a, rfl⟩ := hsmp
      exact smp_timesInOrder f c0 c1 a hgood h hwrap
    · obtain ⟨hframe, hcycle⟩ :=
        commandOf_frame_cycleCnt cfg0 i s hrst fun f c0 c1 a hi => hsmp ⟨f, c0, c1, a, hi⟩
      exact timesInOrder_congr hframe hcycle h

/-- Settles O51: only SMP and reset touch the times; a good state has room in the FIFO for a boundary. -/
theorem stepKeepsTimesInOrder : Obligations.StepKeepsTimesInOrder := by
  intro s t hgood h hwrap hstep
  rw [step_eq_stepOf] at hstep
  cases hstep
  unfold stepOf
  split
  next => exact h
  next => exact reset_timesInOrder
  next w rest _ => exact commandOf_timesInOrder (decode w) (good_of_input hgood rest) h hwrap

end Sys2Proof.Machine
end

section
/-! What SMP changes and what it emits (42_demodulator.md R130; 60_exceptions.md R216; 70_reset_and_hazards.md R236, R241):
the frame of a cycle, its independence of the parameters, the eighth audio cycle, and the proofs of O22, O23, O30 and
O45. -/

namespace Sys2Proof.Machine

variable {R σ : Type}

theorem exec_smp (f c0 c1 : Byte) (a : S16) (s : State) :
    exec (.smp f c0 c1 a) s = .next (smp cfg0 f c0 c1 a s) := rfl

/-! ## What a cycle leaves unchanged -/

theorem afterLine_curLine (c : Cfg R σ) (f c0 c1 : Byte) (s : State σ) :
    (afterLine c f c0 c1 s).curLine = s.sync.curLine := by
  rw [afterLine, smpLine, smpAppend_frame, smpBurst_frame, smpSync_frame]

theorem afterLine_lineBuf_outside (c : Cfg R σ) (f c0 c1 : Byte) (s : State σ) {k : Nat}
    (h : k < s.sync.lineBufBytes.toNat ∨ s.sync.lineBufBytes.toNat + 1 + colourBytes f ≤ k) :
    Memory.read (afterLine c f c0 c1 s).lineBuf k = Memory.read s.sync.lineBuf k := by
  have hy : (smpBurst c f (smpSync c (c.mode s.ntsc) f s.sync)).lineBufBytes = s.sync.lineBufBytes ∧
      (smpBurst c f (smpSync c (c.mode s.ntsc) f s.sync)).lineBuf = s.sync.lineBuf := by
    rw [smpBurst_frame, smpSync_frame]
    exact ⟨rfl, rfl⟩
  rw [afterLine, smpLine, smpAppend_outside c _ f c0 c1 _ (by rwa [hy.1]), hy.2]

/-- No step of SMP after step 4 writes the line buffer. -/
theorem smp_lineBuf (c : Cfg R σ) (f c0 c1 : Byte) (a : S16) (s : State σ) :
    (smp c f c0 c1 a s).sync.lineBuf = (afterLine c f c0 c1 s).lineBuf := by
  rcases smp_sync_cases c f c0 c1 a s with ⟨_, e⟩ | e | e <;> rw [e] <;> rfl

/-- Outside the row of the current output line SMP writes no pixel (R150). -/
theorem smp_videoBuf_outside (c : Cfg R σ) (f c0 c1 : Byte) (a : S16) (s : State σ) {k : Nat}
    (h : k < (s.sync.curLine.toInt / 2).toNat * c.videoWidth ∨
      (s.sync.curLine.toInt / 2).toNat * c.videoWidth + c.videoWidth ≤ k) :
    Memory.read (smp c f c0 c1 a s).videoBuf k = Memory.read s.videoBuf k := by
  have hdecode : Memory.read (afterDecode c f c0 c1 s) k = Memory.read s.videoBuf k := by
    refine decodeLine_outside c { s with sync := afterLine c f c0 c1 s } ?_
    dsimp only
    rwa [afterLine_curLine]
  rcases smp_cases c f c0 c1 a s with ⟨_, e⟩ | ⟨_, _, e⟩ | ⟨_, _, e⟩ <;> rw [e]
  · rw [afterAudio_frame]
  · exact hdecode
  · rw [frameDone_frame]
    exact hdecode

/-- SMP emits output frames only, each whole where the memories have their sizes, counts them, and only in a cycle that
completes a frame (R182, R216, R241). -/
theorem smp_events (c : Cfg R σ) (f c0 c1 : Byte) (a : S16) (s : State σ) : ∃ evs : List Event,
    (smp c f c0 c1 a s).events = s.events ++ evs ∧
    (smp c f c0 c1 a s).frame.framesOut = s.frame.framesOut + BitVec.ofNat 32 evs.length ∧
    (evs ≠ [] → (smp c f c0 c1 a s).sync.vsyncCnt = 0 ∧ (smp c f c0 c1 a s).sync.lineCnt = 0 ∧
      (smp c f c0 c1 a s).frame.bndCount = 0) ∧
    (s.frame.outBuf.wf c = true → ∀ e ∈ evs, e.isWholeFrame c) := by
  have hp := afterAudio_frame c a s
  rcases smp_cases c f c0 c1 a s with ⟨_, e⟩ | ⟨_, _, e⟩ | ⟨_, hzero, e⟩ <;> rw [e]
  · rw [hp]
    exact ⟨[], (List.append_nil _).symm, (BitVec.add_zero _).symm, fun h => absurd rfl h, fun _ _ h => nomatch h⟩
  · rw [hp]
    exact ⟨[], (List.append_nil _).symm, (BitVec.add_zero _).symm, fun h => absurd rfl h, fun _ _ h => nomatch h⟩
  · generalize hq : ({ afterAudio c a s with
      videoBuf := afterDecode c f c0 c1 s
      sync := topOfField (lineAdvance c (afterLine c f c0 c1 s)) } : State σ) = q
    obtain ⟨evs, hevents, hlen, hwhole⟩ := frameDone_events c q
    obtain ⟨hnone, hcount⟩ := frameDone_counts c q
    have hq' : q.events = s.events ∧ q.frame.framesOut = s.frame.framesOut ∧ q.frame.outBuf = s.frame.outBuf := by
      rw [← hq, hp]
      exact ⟨rfl, rfl, rfl⟩
    obtain ⟨hqe, hqf, hqo⟩ := hq'
    refine ⟨evs, by rw [hevents, hqe], by rw [hcount, hqf, hlen], fun _ => ⟨?_, ?_, hnone⟩, fun h => hwhole (hqo ▸ h)⟩
    · rw [frameDone_frame, ← hq]
      exact hzero
    · rw [frameDone_frame, ← hq]
      rfl

/-- Settles O22. -/
theorem smpFrame : Obligations.SmpFrame := by
  intro f c0 c1 a s
  obtain ⟨evs, hevents, _, _, hwhole⟩ := smp_events cfg0 f c0 c1 a s
  have hframe := smp_frame cfg0 f c0 c1 a s
  have hcycle : (smp cfg0 f c0 c1 a s).cycleCnt = s.cycleCnt + 1 := by rw [hframe]
  refine ⟨_, evs, exec_smp f c0 c1 a s, hcycle, hcycle ▸ hframe, fun k => smp_videoBuf_outside cfg0 f c0 c1 a s,
    fun k hk => ?_, hevents, fun hmem => ?_⟩
  · rw [smp_lineBuf, afterLine_lineBuf_outside cfg0 f c0 c1 s hk]
  · obtain ⟨_, _, _, _, _, _, _, _, _, _, _, _, hout⟩ := hmem
    exact hwhole hout

/-- Settles O30. -/
theorem framesOnlyAtFrameCompletion : Obligations.FramesOnlyAtFrameCompletion := by
  intro f c0 c1 a s
  obtain ⟨evs, hevents, hcount, honly, _⟩ := smp_events cfg0 f c0 c1 a s
  exact ⟨_, evs, exec_smp f c0 c1 a s, hevents, hcount, honly⟩

/-! ## What a cycle does not read -/

/-- The state with other parameters, table, format flag and clock. -/
def withParams (p q r : Memory 32) (b : Bool) (h : U32) (s : State σ) : State σ :=
  { s with ccp := p, act := q, idxYuv := r, actYuv := b, clockFreq := h }

section
variable (c : Cfg R σ) (p q r : Memory 32) (b : Bool) (h : U32)

theorem audioOut_withParams (o : S16) (s : State σ) :
    audioOut c o (withParams p q r b h s) = withParams p q r b h (audioOut c o s) := by
  rcases audioOut_cases c o s with ⟨hfull, e⟩ | ⟨hroom, hacc, e⟩ | ⟨hroom, hacc, e⟩ <;> rw [e]
  · exact audioOut_full (s := withParams p q r b h s) o hfull
  · exact audioOut_boundary (s := withParams p q r b h s) o hroom hacc
  · exact audioOut_plain (s := withParams p q r b h s) o hroom hacc

theorem audioBurst_withParams (l : List S16) (s : State σ) :
    l.foldl (fun st o => audioOut c o st) (withParams p q r b h s) =
      withParams p q r b h (l.foldl (fun st o => audioOut c o st) s) := by
  induction l generalizing s with
  | nil => rfl
  | cons o l ih => rw [List.foldl_cons, List.foldl_cons, audioOut_withParams, ih]

theorem audioIn_withParams (x : S16) (s : State σ) :
    audioIn c x (withParams p q r b h s) = withParams p q r b h (audioIn c x s) :=
  audioBurst_withParams c p q r b h (c.resampler.step s.audio.rs x).2
    { s with audio := { s.audio with rs := (c.resampler.step s.audio.rs x).1 } }

theorem smpAudio_withParams (a : S16) (s : State σ) :
    smpAudio c a (withParams p q r b h s) = withParams p q r b h (smpAudio c a s) := by
  by_cases h7 : s.audio.audioCnt = 7
  · rw [smpAudio_folds a h7, smpAudio_folds (s := withParams p q r b h s) a h7]
    exact audioIn_withParams c p q r b h _ { s with audio := { s.audio with audioSum := 0, audioCnt := 0 } }
  · rw [smpAudio_accumulates a h7, smpAudio_accumulates (s := withParams p q r b h s) a h7]
    rfl

/-- DECODE_LINE looks pixels up in the colormap as built; it reads no parameter. -/
theorem decodeLine_withParams (s : State σ) :
    decodeLine c (withParams p q r b h s) = withParams p q r b h (decodeLine c s) := by
  have hvideo : (decodeLine c (withParams p q r b h s)).videoBuf = (decodeLine c s).videoBuf :=
    decodeLine_videoBuf_congr (c := c) (s := s) (t := withParams p q r b h s) rfl rfl rfl s.sync s.sync.lineCnt
  rw [decodeLine_frame, hvideo, decodeLine_frame c s]
  rfl

theorem drain_withParams (n : Nat) (s : State σ) :
    drainBoundaries c n (withParams p q r b h s) = withParams p q r b h (drainBoundaries c n s) := by
  induction n generalizing s with
  | zero => rfl
  | succ n ih =>
    rw [drainBoundaries, drainBoundaries, ← ih]
    rfl

theorem frameDone_withParams (s : State σ) :
    frameDone c (withParams p q r b h s) = withParams p q r b h (frameDone c s) :=
  congrArg accumToNow (drain_withParams c p q r b h s.frame.bndCount
    { s with frame := swapGenerations c s.videoBuf s.cycleCnt s.frame })

theorem lineDone_withParams (s : State σ) :
    lineDone c (withParams p q r b h s) = withParams p q r b h (lineDone c s) := by
  have hvideo : (decodeLine c (withParams p q r b h s)).videoBuf = (decodeLine c s).videoBuf := by
    rw [decodeLine_withParams]
    rfl
  rcases lineDone_cases c s with ⟨hv, e⟩ | ⟨hv, e⟩ <;>
    rcases lineDone_cases c (withParams p q r b h s) with ⟨hv', e'⟩ | ⟨hv', e'⟩ <;> rw [e, e', hvideo]
  · rfl
  · exact absurd hv' hv
  · exact absurd hv hv'
  · exact frameDone_withParams c p q r b h
      { s with videoBuf := (decodeLine c s).videoBuf, sync := topOfField (lineAdvance c s.sync) }

theorem smpAdvance_withParams (s : State σ) :
    smpAdvance c (withParams p q r b h s) = withParams p q r b h (smpAdvance c s) := by
  rcases smpAdvance_cases c s with ⟨hin, e⟩ | ⟨hend, e⟩ <;>
    rcases smpAdvance_cases c (withParams p q r b h s) with ⟨hin', e'⟩ | ⟨hend', e'⟩ <;> rw [e, e']
  · rfl
  · exact absurd hin (Nat.not_lt.mpr hend')
  · exact absurd hin' (Nat.not_lt.mpr hend)
  · exact lineDone_withParams c p q r b h { s with sync := { s.sync with lineCnt := s.sync.lineCnt + 1 } }

theorem smp_withParams (f c0 c1 : Byte) (a : S16) (s : State σ) :
    smp c f c0 c1 a (withParams p q r b h s) = withParams p q r b h (smp c f c0 c1 a s) := by
  have haudio := smpAudio_withParams c p q r b h a { s with cycleCnt := s.cycleCnt + 1 }
  have hadvance := smpAdvance_withParams c p q r b h { smpAudio c a { s with cycleCnt := s.cycleCnt + 1 } with
    sync := smpLine c (c.mode s.ntsc) f c0 c1 s.sync }
  calc smp c f c0 c1 a (withParams p q r b h s)
    _ = smpAdvance c { smpAudio c a (withParams p q r b h { s with cycleCnt := s.cycleCnt + 1 }) with
          sync := smpLine c (c.mode s.ntsc) f c0 c1 s.sync } := smp_eq c f c0 c1 a (withParams p q r b h s)
    _ = _ := by rw [haudio, smp_eq, ← hadvance, withParams, withParams]

end

/-- Settles O23. -/
theorem smpIgnoresParameters : Obligations.SmpIgnoresParameters := fun f c0 c1 a s p q r b h =>
  ⟨_, exec_smp f c0 c1 a s, congrArg Host.Outcome.next (smp_withParams cfg0 p q r b h f c0 c1 a s)⟩

/-! ## The eighth audio cycle -/

theorem afterLine_frame (c : Cfg R σ) (f c0 c1 : Byte) (s : State σ) :
    afterLine c f c0 c1 s =
      { smpSync c (c.mode s.ntsc) f s.sync with
        lineBuf := (afterLine c f c0 c1 s).lineBuf, lineBufBytes := (afterLine c f c0 c1 s).lineBufBytes
        lineBufGroups := (afterLine c f c0 c1 s).lineBufGroups, lineFlags := (afterLine c f c0 c1 s).lineFlags } :=
  smpLine_frame c (c.mode s.ntsc) f c0 c1 s.sync

/-- Whether a cycle ends a line is decided by step 2: steps 3 and 4 leave the line phase alone (R139). -/
theorem endsLine_iff (c : Cfg R σ) (f c0 c1 : Byte) (s : State σ) :
    endsLine c f s = true ↔
      (afterLine c f c0 c1 s).lineLength.toNat ≤ ((afterLine c f c0 c1 s).lineCnt + 1).toNat := by
  rw [afterLine_frame, endsLine, decide_eq_true_iff]

/-- A line completes a frame where the vertical counter stood at -1 (R146). -/
theorem lineAdvance_vsyncCnt_eq_zero (c : Cfg R σ) (y : SyncState) :
    (lineAdvance c y).vsyncCnt = 0 ↔ y.vsyncCnt.toInt = -1 := by
  have hlt := BitVec.toInt_lt (x := y.vsyncCnt)
  rw [← BitVec.toInt_inj, lineAdvance_vsyncCnt_toInt, show (0 : S32).toInt = 0 from rfl]
  omega

/-- A cycle that completes no frame leaves the audio path and the Frame Resampler as step 1 does. -/
theorem smp_noFrame {c : Cfg R σ} {f : Byte} (c0 c1 : Byte) (a : S16) {s : State σ}
    (h : ¬(endsLine c f s = true ∧ (smpSync c (c.mode s.ntsc) f s.sync).vsyncCnt.toInt = -1)) :
    (smp c f c0 c1 a s).audio = (afterAudio c a s).audio ∧ (smp c f c0 c1 a s).frame = (afterAudio c a s).frame := by
  rcases smp_cases c f c0 c1 a s with ⟨_, e⟩ | ⟨_, _, e⟩ | ⟨hend, hzero, _⟩
  · rw [e]
    exact ⟨rfl, rfl⟩
  · rw [e]
    exact ⟨rfl, rfl⟩
  · refine absurd ⟨(endsLine_iff c f c0 c1 s).mpr hend, ?_⟩ h
    rwa [lineAdvance_vsyncCnt_eq_zero, afterLine_frame] at hzero

/-- From `s` to `t` the pending boundaries stay, and the ones that come after them were latched in the cycle of `s`. -/
def latchesNow (s t : State σ) : Prop :=
  t.cycleCnt = s.cycleCnt ∧ s.frame.bndCount ≤ t.frame.bndCount ∧
  (∀ k, k < s.frame.bndCount → Memory.read t.frame.bndFifo k = Memory.read s.frame.bndFifo k) ∧
  ∀ k, s.frame.bndCount ≤ k → k < t.frame.bndCount → Memory.read t.frame.bndFifo k = s.cycleCnt

theorem latchesNow.refl (s : State σ) : latchesNow s s :=
  ⟨rfl, Nat.le_refl _, fun _ _ => rfl, fun _ hlo hhi => absurd hhi (Nat.not_lt.mpr hlo)⟩

theorem latchesNow.trans {s t u : State σ} (hst : latchesNow s t) (htu : latchesNow t u) : latchesNow s u := by
  obtain ⟨hcycle, hle, hold, hnew⟩ := hst
  obtain ⟨hcycle', hle', hold', hnew'⟩ := htu
  refine ⟨hcycle'.trans hcycle, hle.trans hle', fun k hk => ?_, fun k hlo hhi => ?_⟩
  · rw [hold' k (by omega), hold k hk]
  · rcases Nat.lt_or_ge k t.frame.bndCount with hk | hk
    · rw [hold' k hk, hnew k hlo hk]
    · rw [hnew' k hk hhi, hcycle]

/-- AUDIO_OUT latches its boundary at this cycle (R199), where there is room for it. -/
theorem audioOut_latchesNow {c : Cfg R σ} (o : S16) {s : State σ} (h : s.ringInv c) (h8 : s.frame.bndFifo.size = 8) :
    latchesNow s (audioOut c o s) := by
  rcases audioOut_cases c o s with ⟨_, e⟩ | ⟨hroom, _, e⟩ | ⟨_, _, e⟩ <;> rw [e]
  · exact latchesNow.refl s
  · have hlt := bndCount_lt_of_not_full h hroom
    refine ⟨rfl, Nat.le_succ _, fun k hk => Memory.read_write_other _ _ hk.ne', fun k hlo hhi => ?_⟩
    obtain rfl : k = s.frame.bndCount := Nat.le_antisymm (Nat.le_of_lt_succ hhi) hlo
    exact Memory.read_write_same _ _ (h8 ▸ hlt)
  · exact latchesNow.refl s

theorem audioBurst_latchesNow {c : Cfg R σ} (hc : 0 < c.apf) (l : List S16) {s : State σ} (h : s.ringInv c)
    (h8 : s.frame.bndFifo.size = 8) : latchesNow s (l.foldl (fun st o => audioOut c o st) s) := by
  induction l generalizing s with
  | nil => exact latchesNow.refl s
  | cons o l ih =>
    exact (audioOut_latchesNow o h h8).trans (ih (audioOut_ringInv hc o h) ((audioOut_sizes c o s).2.trans h8))

/-- Step 1 on the eighth cycle: the folded sample goes through the converter, whose outputs are a burst (R131, R193). -/
theorem afterAudio_folds {c : Cfg R σ} (a : S16) {s : State σ} (h7 : s.audio.audioCnt = 7) :
    let step := c.resampler.step s.audio.rs (foldedSample c (s.audio.audioSum + a.signExtend 32))
    afterAudio c a s = step.2.foldl (fun st o => audioOut c o st)
      { s with
        cycleCnt := s.cycleCnt + 1, audio := { s.audio with audioSum := 0, audioCnt := 0, rs := step.1 } } :=
  smpAudio_folds (s := { s with cycleCnt := s.cycleCnt + 1 }) a h7

/-- What the audio path holds after the eighth cycle (R131, R193, R196). -/
theorem afterAudio_folded (a : S16) {s : State} (h7 : s.audio.audioCnt = 7) (hconv : s.converterInv cfg0) :
    (afterAudio cfg0 a s).audio.audioSum = 0 ∧ (afterAudio cfg0 a s).audio.audioCnt = 0 ∧
    (afterAudio cfg0 a s).audio.rs.inRate = s.audio.rs.inRate ∧
    (afterAudio cfg0 a s).audio.rs.outRate = s.audio.rs.outRate ∧
    (afterAudio cfg0 a s).audio.rs.prev = foldedSample cfg0 (s.audio.audioSum + a.signExtend 32) ∧
    (afterAudio cfg0 a s).audio.rs.phase.toNat = (s.audio.rs.phase.toNat + 48000) % s.audio.rs.inRate.toNat := by
  obtain ⟨hclock, hin, hout, _⟩ := hconv
  have hpos : 0 < s.audio.rs.inRate.toNat := by omega
  obtain ⟨hcnt, hsum⟩ := smpAudio_sum cfg0 a { s with cycleCnt := s.cycleCnt + 1 }
  have hrs := smpAudio_rs cfg0 a { s with cycleCnt := s.cycleCnt + 1 }
  rw [if_pos h7] at hsum hrs
  dsimp only at hcnt hrs
  rw [h7] at hcnt
  have hphase := refResamplerStep_phase s.audio.rs (foldedSample cfg0 (s.audio.audioSum + a.signExtend 32)) hpos
  rw [hout] at hphase
  unfold afterAudio
  rw [hrs]
  exact ⟨hsum, hcnt, rfl, rfl, rfl, hphase⟩

/-- Settles O45. -/
theorem eighthCycleFoldsIntoRing : Obligations.EighthCycleFoldsIntoRing := by
  intro f c0 c1 a s hframe h7 hmem hring hconv
  obtain ⟨haudio, hframe'⟩ := smp_noFrame c0 c1 a hframe
  obtain ⟨_, _, _, _, _, _, hsize, _, hfifo, _⟩ := hmem
  rw [Memory.wf_iff] at hsize hfifo
  obtain ⟨hsum, hcnt, hin, hout, hprev, hphase⟩ := afterAudio_folded a h7 hconv
  have hburst := afterAudio_folds (c := cfg0) a h7
  obtain ⟨_, _, _, _, hlo, hhi⟩ := hconv
  rw [h7] at hlo hhi
  have hfold : (foldedSample cfg0 (s.audio.audioSum + a.signExtend 32)).toInt =
      (s.audio.audioSum.toInt + a.toInt + 4) / 8 := by
    have hadd := audioSum_add (n := 7) (Nat.le_refl _) ⟨hlo, hhi⟩ a
    have h1 := BitVec.toInt_lt (x := a)
    have h2 := BitVec.le_toInt (x := a)
    have hlo' : -32768 * 7 ≤ s.audio.audioSum.toInt := hlo
    have hhi' : s.audio.audioSum.toInt ≤ 32767 * 7 := hhi
    rw [foldedSample_toInt (by rw [hadd]; omega), hadd]
  refine ⟨_, exec_smp f c0 c1 a s, ?_⟩
  rw [haudio, hframe', hprev]
  refine ⟨hsum, hcnt, hin, hout, hfold, hphase, ?_, smp_ringInv (by decide) f c0 c1 a hring, ?_⟩
  · rw [hburst]
    exact audioBurst_live (by decide) _ hsize hring
  · obtain ⟨_, _, hold, hnew⟩ := audioBurst_latchesNow (c := cfg0) (by decide)
      (cfg0.resampler.step s.audio.rs (foldedSample cfg0 (s.audio.audioSum + a.signExtend 32))).2
      (s := { s with
        cycleCnt := s.cycleCnt + 1
        audio := { s.audio with
          audioSum := 0, audioCnt := 0
          rs := (cfg0.resampler.step s.audio.rs (foldedSample cfg0 (s.audio.audioSum + a.signExtend 32))).1 } })
      hring hfifo
    rw [← hburst] at hold hnew
    exact ⟨hold, hnew⟩

end Sys2Proof.Machine
end

section
/-! Line assembly and the end of a line (42_demodulator.md R138 to R148), with the proofs of O24, O28 and O52. -/

namespace Sys2Proof.Machine

variable {R σ : Type}

/-! ## The line flags (R28) -/

theorem burstFlag_setBurstFlag (fl : BitVec 2) : burstFlag (setBurstFlag fl) = true := by revert fl; decide
theorem oddFlag_setBurstFlag (fl : BitVec 2) : oddFlag (setBurstFlag fl) = oddFlag fl := by revert fl; decide
theorem burstFlag_setOddFlag (fl : BitVec 2) : burstFlag (setOddFlag fl) = burstFlag fl := by revert fl; decide
theorem oddFlag_setOddFlag (fl : BitVec 2) : oddFlag (setOddFlag fl) = true := by revert fl; decide

theorem isBurstSample_cfg0 (f : Byte) : isBurstSample cfg0 f = true ↔ f &&& 0xC0 = 0x40 := beq_iff_eq

/-- Where the sync bit is clear, a burst sample is one with the burst bit set (R61, R141). -/
theorem burstPattern_iff {f : Byte} (h : flagSync f = false) : f &&& 0xC0 = 0x40 ↔ flagBurst f = true := by
  revert f; decide

/-! ## Line assembly -/

/-- The group of this cycle is in the window and finds room (R142, R143), tested at the phase that step 2 leaves. -/
def inWindow (c : Cfg R σ) (f : Byte) (s : State σ) : Prop :=
  (c.mode s.ntsc).lineStart ≤ (smpSync c (c.mode s.ntsc) f s.sync).lineCnt.toNat ∧
  s.sync.lineBufGroups.toNat < c.lineBufGroups

/-- The sync state after steps 2 and 3 of SMP (R130). -/
def afterBurst (c : Cfg R σ) (f : Byte) (s : State σ) : SyncState :=
  smpBurst c f (smpSync c (c.mode s.ntsc) f s.sync)

theorem afterBurst_frame (c : Cfg R σ) (f : Byte) (s : State σ) :
    (afterBurst c f s).lineCnt = (smpSync c (c.mode s.ntsc) f s.sync).lineCnt ∧
    (afterBurst c f s).lineBuf = s.sync.lineBuf ∧ (afterBurst c f s).lineBufBytes = s.sync.lineBufBytes ∧
    (afterBurst c f s).lineBufGroups = s.sync.lineBufGroups ∧
    (afterBurst c f s).lineFlags =
      if isBurstSample c f then setBurstFlag s.sync.lineFlags else s.sync.lineFlags := by
  rw [afterBurst, smpBurst_frame, smpSync_frame]
  exact ⟨rfl, rfl, rfl, rfl, rfl⟩

/-- What step 4 makes of the line: the group appended and its odd-phase bit noted, or nothing (R142, R143). -/
theorem afterLine_cases (c : Cfg R σ) (f c0 c1 : Byte) (s : State σ) :
    (inWindow c f s ∧ afterLine c f c0 c1 s =
      { appendGroup f c0 c1 (afterBurst c f s) with
        lineFlags :=
          if flagPhase f then setOddFlag (afterBurst c f s).lineFlags else (afterBurst c f s).lineFlags }) ∨
    (¬ inWindow c f s ∧ afterLine c f c0 c1 s = afterBurst c f s) := by
  obtain ⟨hcnt, _, _, hgroups, _⟩ := afterBurst_frame c f s
  unfold inWindow
  rw [← hcnt, ← hgroups]
  exact smpAppend_cases c (c.mode s.ntsc) f c0 c1 (afterBurst c f s)

theorem afterLine_burstFlag (c : Cfg R σ) (f c0 c1 : Byte) (s : State σ) :
    burstFlag (afterLine c f c0 c1 s).lineFlags = true ↔
      burstFlag s.sync.lineFlags = true ∨ isBurstSample c f = true := by
  have hburst : burstFlag (afterLine c f c0 c1 s).lineFlags = burstFlag (afterBurst c f s).lineFlags := by
    rcases afterLine_cases c f c0 c1 s with ⟨_, e⟩ | ⟨_, e⟩ <;> rw [e]
    dsimp only
    rw [apply_ite burstFlag, burstFlag_setOddFlag, ite_self]
  obtain ⟨_, _, _, _, hflags⟩ := afterBurst_frame c f s
  rw [hburst, hflags]
  cases isBurstSample c f
  · simp
  · simp [burstFlag_setBurstFlag]

theorem afterLine_oddFlag (c : Cfg R σ) (f c0 c1 : Byte) (s : State σ) :
    oddFlag (afterLine c f c0 c1 s).lineFlags = true ↔
      oddFlag s.sync.lineFlags = true ∨ inWindow c f s ∧ flagPhase f = true := by
  have hodd : oddFlag (afterBurst c f s).lineFlags = oddFlag s.sync.lineFlags := by
    obtain ⟨_, _, _, _, hflags⟩ := afterBurst_frame c f s
    rw [hflags, apply_ite oddFlag, oddFlag_setBurstFlag, ite_self]
  rcases afterLine_cases c f c0 c1 s with ⟨hin, e⟩ | ⟨hout, e⟩ <;> rw [e, ← hodd]
  · cases flagPhase f
    · simp
    · simp [hin, oddFlag_setOddFlag]
  · simp [hout]

/-- In the window the group is appended whole at `lineBufBytes`, behind the groups that stand there (R62, R143). -/
theorem afterLine_appends {c : Cfg R σ} (hc : c.lineBufGroups < 16384) {f : Byte} (c0 c1 : Byte) {s : State σ}
    (hsize : s.sync.lineBuf.size = 3 * c.lineBufGroups) (hbuffer : s.sync.bufferInv c) (h : inWindow c f s) :
    (afterLine c f c0 c1 s).lineBufGroups.toNat = s.sync.lineBufGroups.toNat + 1 ∧
    (afterLine c f c0 c1 s).lineBufBytes.toNat = s.sync.lineBufBytes.toNat + 1 + colourBytes f ∧
    holdsGroups (afterLine c f c0 c1 s).lineBuf s.sync.lineBufBytes.toNat [(f, c0, c1)] ∧
    ∀ k, k < s.sync.lineBufBytes.toNat →
      Memory.read (afterLine c f c0 c1 s).lineBuf k = Memory.read s.sync.lineBuf k := by
  obtain ⟨_, hbuf, hbytes, hgroups, _⟩ := afterBurst_frame c f s
  obtain ⟨_, _, hle⟩ := hbuffer
  have hroom := h.2
  have hcolour := colourBytes_bounds f
  rcases afterLine_cases c f c0 c1 s with ⟨_, e⟩ | ⟨hout, _⟩
  · rw [e]
    obtain ⟨hbytes', hgroups'⟩ := appendGroup_counts f c0 c1 (afterBurst c f s) (by rw [hbytes]; omega)
      (by rw [hgroups]; omega)
    have hholds := appendGroup_holds f c0 c1 (afterBurst c f s) (by rw [hbytes, hbuf]; omega)
    rw [hbytes] at hbytes' hholds
    rw [hgroups] at hgroups'
    refine ⟨hgroups', hbytes', hholds, fun k hk => ?_⟩
    rw [← hbuf]
    exact appendGroup_outside f c0 c1 (afterBurst c f s) (.inl (by rwa [hbytes]))
  · exact absurd h hout

theorem afterLine_appendsNothing {c : Cfg R σ} {f : Byte} (c0 c1 : Byte) {s : State σ} (h : ¬ inWindow c f s) :
    (afterLine c f c0 c1 s).lineBuf = s.sync.lineBuf ∧
    (afterLine c f c0 c1 s).lineBufBytes = s.sync.lineBufBytes ∧
    (afterLine c f c0 c1 s).lineBufGroups = s.sync.lineBufGroups := by
  obtain ⟨_, hbuf, hbytes, hgroups, _⟩ := afterBurst_frame c f s
  rcases afterLine_cases c f c0 c1 s with ⟨hin, _⟩ | ⟨_, e⟩
  · exact absurd hin h
  · rw [e]
    exact ⟨hbuf, hbytes, hgroups⟩

/-- The line phase after step 2: this state's, or the reference position at the start of a sync run (R134). -/
theorem smpSync_lineCnt {c : Cfg R σ} (hc : 1 < c.vsyncRun) (m : ModeCfg) (f : Byte) (y : SyncState) :
    (smpSync c m f y).lineCnt = y.lineCnt ∨
    flagSync f = true ∧ y.syncLengthCnt = 0 ∧ (smpSync c m f y).lineCnt = BitVec.ofNat 32 m.hsyncPos := by
  cases hf : flagSync f with
  | false =>
    rw [smpSync_noSync c m hf]
    exact .inl rfl
  | true =>
    by_cases h0 : y.syncLengthCnt = 0
    · rw [smpSync_start hc m hf h0]
      rcases hsyncReacq_cases m y with ⟨_, e⟩ | ⟨_, _, e⟩ | ⟨_, _, e⟩ <;> rw [e]
      · exact .inr ⟨rfl, h0, rfl⟩
      · exact .inr ⟨rfl, h0, rfl⟩
      · exact .inl rfl
    · by_cases hn : c.vsyncRun ≤ (countSync y.syncLengthCnt).toNat ∧ m.vsyncThr2 ≤ y.vsyncCnt.toInt
      · rw [smpSync_field m hf h0 hn]
        exact .inl rfl
      · rw [smpSync_run m hf h0 hn]
        exact .inl rfl

/-- `afterAudio_frame` with the audio path named whole. -/
theorem afterAudio_eq (c : Cfg R σ) (a : S16) (s : State σ) :
    afterAudio c a s =
      { s with
        cycleCnt := s.cycleCnt + 1
        audio := (afterAudio c a s).audio
        frame := { s.frame with
          bndFifo := (afterAudio c a s).frame.bndFifo, bndCount := (afterAudio c a s).frame.bndCount } } := by
  have haudio := congrArg State.audio (afterAudio_frame c a s)
  conv_lhs => rw [afterAudio_frame]
  rw [haudio]

/-- The whole state after a cycle that ends no line (R139). -/
theorem smp_insideLine {c : Cfg R σ} {f : Byte} (c0 c1 : Byte) (a : S16) {s : State σ}
    (h : (smpSync c (c.mode s.ntsc) f s.sync).lineCnt.toNat + 1 <
      (smpSync c (c.mode s.ntsc) f s.sync).lineLength.toNat) :
    smp c f c0 c1 a s =
      { s with
        cycleCnt := s.cycleCnt + 1
        audio := (afterAudio c a s).audio
        frame := { s.frame with
          bndFifo := (afterAudio c a s).frame.bndFifo, bndCount := (afterAudio c a s).frame.bndCount }
        sync := { smpSync c (c.mode s.ntsc) f s.sync with
          lineCnt := (smpSync c (c.mode s.ntsc) f s.sync).lineCnt + 1
          lineBuf := (afterLine c f c0 c1 s).lineBuf, lineBufBytes := (afterLine c f c0 c1 s).lineBufBytes
          lineBufGroups := (afterLine c f c0 c1 s).lineBufGroups
          lineFlags := (afterLine c f c0 c1 s).lineFlags } } := by
  have hline := smpLine_frame c (c.mode s.ntsc) f c0 c1 s.sync
  have hsmp : smp c f c0 c1 a s = { afterAudio c a s with
      sync := { smpLine c (c.mode s.ntsc) f c0 c1 s.sync with
        lineCnt := (smpLine c (c.mode s.ntsc) f c0 c1 s.sync).lineCnt + 1 } } :=
    smp_inside (by rw [hline]; exact h)
  rw [hsmp, afterAudio_eq, hline]
  rfl

/-- Settles O52. -/
theorem smpAssemblesLine : Obligations.SmpAssemblesLine := by
  intro f c0 c1 a s y p inWin hinside hsize hbuffer
  obtain ⟨hstart, hpos, _⟩ := cfg0_mode_bounds s.ntsc
  have hwindow : inWindow cfg0 f s ↔ inWin := by rw [inWindow, hstart]; exact Iff.rfl
  have hphase := smpSync_lineCnt (c := cfg0) (by decide) (cfg0.mode s.ntsc) f s.sync
  rw [hpos] at hphase
  have hburst := afterLine_burstFlag cfg0 f c0 c1 s
  have hodd := afterLine_oddFlag cfg0 f c0 c1 s
  rw [isBurstSample_cfg0] at hburst
  rw [hwindow] at hodd
  refine ⟨_, exec_smp f c0 c1 a s, ?_⟩
  rw [smp_insideLine c0 c1 a hinside]
  exact ⟨rfl, hphase, fun h => ((smpSync_vertical (c := cfg0) (by decide) f s).2 h).symm, hburst, hodd,
    fun h => afterLine_appends (by decide) c0 c1 hsize hbuffer (hwindow.mpr h),
    fun h => afterLine_appendsNothing c0 c1 (mt hwindow.mp h)⟩

/-- Settles O24: the case of O52 without sync, in which step 1 only accumulates. -/
theorem smpInsideLineAssembles : Obligations.SmpInsideLineAssembles := by
  intro f c0 c1 a s hsync hinside h7 hsize hbuffer inWin
  have hy := smpSync_noSync cfg0 (cfg0.mode s.ntsc) hsync s.sync
  have hp := smpAudio_accumulates (c := cfg0) a (s := { s with cycleCnt := s.cycleCnt + 1 }) h7
  obtain ⟨t, hexec, ht, _, _, hburst, hodd, happend, hskip⟩ :=
    smpAssemblesLine f c0 c1 a s (by rw [hy]; exact hinside) hsize hbuffer
  rw [hy] at ht hodd happend hskip
  rw [hp] at ht
  rw [burstPattern_iff hsync] at hburst
  exact ⟨t, hexec, ht, hburst, hodd, happend, hskip⟩

/-! ## The end of a line -/

/-- The threshold and the reload of the vertical counter (R136, R137). -/
theorem vsyncThr2_cfg0 (ntsc : Bool) : (cfg0.mode ntsc).vsyncThr2 = if ntsc then 210 else 250 := by
  cases ntsc <;> rfl

theorem vsyncReload_cfg0 (ntsc p : Bool) :
    (BitVec.ofInt 32 ((cfg0.mode ntsc).vsyncReload p)).toInt =
      if ntsc then (if p then -19 else -18) else (if p then -21 else -20) := by
  cases ntsc <;> cases p <;> decide

/-- Where a cycle starts a field, the vertical counter is reloaded as the new parity says (R136). -/
theorem smpSync_reload {f : Byte} {s : State} (h : startsField cfg0 f s = true) :
    (smpSync cfg0 (cfg0.mode s.ntsc) f s.sync).vsyncCnt.toInt =
      if s.ntsc then (if (smpSync cfg0 (cfg0.mode s.ntsc) f s.sync).fieldParity then -19 else -18)
      else (if (smpSync cfg0 (cfg0.mode s.ntsc) f s.sync).fieldParity then -21 else -20) := by
  obtain ⟨hparity, hreload⟩ := (smpSync_vertical (c := cfg0) (by decide) f s).1 h
  rw [hparity, hreload, vsyncReload_cfg0]

/-- Settles O28. -/
theorem lineEndResetsAccumulators : Obligations.LineEndResetsAccumulators := by
  intro f c0 c1 a s y p hend hvsync
  have hline : y = _ := smpLine_frame cfg0 (cfg0.mode s.ntsc) f c0 c1 s.sync
  have hvcnt : y.vsyncCnt = (smpSync cfg0 (cfg0.mode s.ntsc) f s.sync).vsyncCnt := by rw [hline]
  have hparity : y.fieldParity = (smpSync cfg0 (cfg0.mode s.ntsc) f s.sync).fieldParity := by rw [hline]
  have hcur : y.curLine = s.sync.curLine := afterLine_curLine cfg0 f c0 c1 s
  have hcur' := lineAdvance_curLine_toInt cfg0 (by decide) y
  rw [hcur] at hcur'
  refine ⟨_, exec_smp f c0 c1 a s, ?_⟩
  rcases smp_cases cfg0 f c0 c1 a s with ⟨hin, _⟩ | ⟨_, _, e⟩ | ⟨_, hzero, _⟩
  · exact absurd hin (Nat.not_lt.mpr hend)
  · rw [e, afterAudio_eq]
    refine ⟨rfl, hcur, hcur', lineAdvance_vsyncCnt_toInt cfg0 y, fun h => ?_, fun h => ?_, fun h => ?_⟩
    · rw [hvcnt, hparity]
      exact smpSync_reload h
    · rw [hvcnt, hparity]
      exact ((smpSync_vertical (c := cfg0) (by decide) f s).2 h).symm
    · rw [hline, smpSync_noSync cfg0 _ h]
      exact ⟨rfl, rfl⟩
  · exact absurd ((lineAdvance_vsyncCnt_eq_zero cfg0 y).mp hzero) hvsync

end Sys2Proof.Machine
end

section
/-! Sync recovery (42_demodulator.md R133 to R139): the start of a sync run, its later cycles, and the fields a run starts,
with the proofs of O25, O26, O27 and O53. -/

namespace Sys2Proof.Machine

variable {R σ : Type}

/-! ## The sync registers after a cycle -/

/-- The registers that only step 2 of SMP writes (R133, R134, R138). -/
theorem smp_syncRegisters (c : Cfg R σ) (f c0 c1 : Byte) (a : S16) (s : State σ) :
    let y := smpSync c (c.mode s.ntsc) f s.sync
    let t := (smp c f c0 c1 a s).sync
    t.syncLengthCnt = y.syncLengthCnt ∧ t.hsyncCnt = y.hsyncCnt ∧ t.hsyncPeriodInt = y.hsyncPeriodInt ∧
    t.lineLengthFilter = y.lineLengthFilter ∧ t.lineLength = y.lineLength := by
  rcases smp_sync_cases c f c0 c1 a s with ⟨_, e⟩ | e | e <;> rw [e, afterLine_frame] <;>
    exact ⟨rfl, rfl, rfl, rfl, rfl⟩

/-- The line phase goes on by one, or restarts where the cycle ends a line (R139, R146). -/
theorem smp_lineCnt (c : Cfg R σ) (f c0 c1 : Byte) (a : S16) (s : State σ) :
    (smp c f c0 c1 a s).sync.lineCnt =
      if endsLine c f s then 0 else (smpSync c (c.mode s.ntsc) f s.sync).lineCnt + 1 := by
  have hends := endsLine_iff c f c0 c1 s
  rcases smp_cases c f c0 c1 a s with ⟨hin, e⟩ | ⟨hend, _, e⟩ | ⟨hend, _, e⟩
  · rw [e, if_neg (fun h => absurd (hends.mp h) (Nat.not_le.mpr hin)), afterLine_frame]
  · rw [e, if_pos (hends.mpr hend)]
    rfl
  · rw [e, if_pos (hends.mpr hend), frameDone_frame]
    rfl

/-- The line phase does not wrap below the period. -/
theorem lineCnt_succ_toNat {y : SyncState} (h : y.lineCnt.toNat < y.lineLength.toNat) :
    (y.lineCnt + 1).toNat = y.lineCnt.toNat + 1 := by
  have := y.lineLength.isLt
  rw [BitVec.toNat_add, show (1 : U32).toNat = 1 from rfl, Nat.mod_eq_of_lt (by omega)]

/-- Below the period, a cycle ends a line exactly where it brings the phase to the period (R139). -/
theorem endsLine_iff_of_lt {c : Cfg R σ} {f : Byte} {s : State σ}
    (h : (smpSync c (c.mode s.ntsc) f s.sync).lineCnt.toNat < (smpSync c (c.mode s.ntsc) f s.sync).lineLength.toNat) :
    endsLine c f s = true ↔ (smpSync c (c.mode s.ntsc) f s.sync).lineCnt.toNat + 1 =
      (smpSync c (c.mode s.ntsc) f s.sync).lineLength.toNat := by
  rw [endsLine, decide_eq_true_iff, lineCnt_succ_toNat h]
  omega

/-! ## The start of a sync run -/

theorem roundedLength_eq {m : ModeCfg} (h : m.lineLenMin ≤ m.lineLenMax) (filter : Nat) :
    roundedLength m filter = max m.lineLenMin (min ((filter + 0x8000) / 65536) m.lineLenMax) := by
  rw [roundedLength, clampInt_eq (by omega)]
  omega

/-- After the reference is taken, the cycle goes on at the phase after the reference position (R134, R139). -/
theorem smp_lineCnt_of_reference {f : Byte} (c0 c1 : Byte) (a : S16) {s : State}
    (hcnt : (smpSync cfg0 (cfg0.mode s.ntsc) f s.sync).lineCnt = BitVec.ofNat 32 (cfg0.mode s.ntsc).hsyncPos)
    (hlength : 110 ≤ (smpSync cfg0 (cfg0.mode s.ntsc) f s.sync).lineLength.toNat) :
    (smp cfg0 f c0 c1 a s).sync.lineCnt = 7 := by
  rw [(cfg0_mode_bounds s.ntsc).2.1] at hcnt
  have h6 : (smpSync cfg0 (cfg0.mode s.ntsc) f s.sync).lineCnt.toNat = 6 := congrArg BitVec.toNat hcnt
  have hlt : 6 < (smpSync cfg0 (cfg0.mode s.ntsc) f s.sync).lineLength.toNat := lt_of_lt_of_le (by decide) hlength
  have hne : 6 + 1 ≠ (smpSync cfg0 (cfg0.mode s.ntsc) f s.sync).lineLength.toNat :=
    (lt_of_lt_of_le (by decide) hlength).ne
  have hends : ¬ endsLine cfg0 f s = true := by
    rwa [endsLine_iff_of_lt (h6.trans_lt hlt), h6]
  rw [smp_lineCnt, if_neg hends, hcnt]
  rfl

/-- Settles O25: the three cases of HSYNC_REACQ. -/
theorem syncRunStartReacquires : Obligations.SyncRunStartReacquires := by
  intro f c0 c1 a s mc k hf h0 hline hcount hmc hk
  obtain ⟨_, _, _, hmin, hmin', hmax, hmax', _⟩ := cfg0_mode_bounds s.ntsc
  have hstart := smpSync_start (c := cfg0) (by decide) (cfg0.mode s.ntsc) hf h0
  obtain ⟨hrun, hhsync, hperiod, hfilter, hlength⟩ := smp_syncRegisters cfg0 f c0 c1 a s
  obtain ⟨⟨hL, _⟩, hperiodInv, hfilterInv, _⟩ := hline
  have hminmax : (cfg0.mode s.ntsc).lineLenMin ≤ (cfg0.mode s.ntsc).lineLenMax := by omega
  have hstale : dropStale s.sync.hsyncCnt.toNat (cfg0.mode s.ntsc).lineLenMax s.sync.lineLength.toNat = mc := by
    rw [hcount]
    exact dropStale_eq (by omega) hmc hk
  have hcases := hsyncReacq_cases (cfg0.mode s.ntsc) s.sync
  rw [hstale] at hcases
  refine ⟨_, exec_smp f c0 c1 a s, by rw [hrun, hstart], ?_⟩
  rcases hcases with ⟨haccept, e⟩ | ⟨hlow, hold, e⟩ | ⟨hlow, hnew, e⟩ <;> rw [e] at hstart
  · refine ⟨fun _ => ?_, fun hlow => absurd haccept (Nat.not_le.mpr hlow)⟩
    obtain ⟨hp, hfl, hln, _⟩ := updatePeriod_spec (y := s.sync) haccept hmc (by omega) hperiodInv hfilterInv
    have hge := (roundedLength_bounds (cfg0.mode s.ntsc) hminmax _).1.trans_eq hln.symm
    rw [roundedLength_eq hminmax] at hln
    rw [periodStage1] at hp
    rw [periodStage2] at hfl
    have hperiod' := hperiod.trans (congrArg SyncState.hsyncPeriodInt hstart)
    have hfilter' := hfilter.trans (congrArg SyncState.lineLengthFilter hstart)
    have hlength' := hlength.trans (congrArg SyncState.lineLength hstart)
    dsimp only [takeReference] at hperiod' hfilter' hlength'
    rw [hperiod', hfilter', hlength', hhsync]
    exact ⟨hp, hfl, hln, by rw [hstart]; rfl,
      smp_lineCnt_of_reference c0 c1 a (by rw [hstart]; rfl) (by rw [hstart]; exact hmin.trans hge)⟩
  · refine ⟨fun h => absurd h (Nat.not_le.mpr hlow), fun _ => ?_⟩
    rw [hperiod, hfilter, hlength, hhsync]
    refine ⟨by rw [hstart]; rfl, by rw [hstart]; rfl, by rw [hstart]; rfl, fun _ => ⟨by rw [hstart]; rfl, ?_⟩, ?_⟩
    · exact smp_lineCnt_of_reference c0 c1 a (by rw [hstart]; rfl) (by rw [hstart]; exact hmin.trans hL)
    · rintro rfl
      omega
  · refine ⟨fun h => absurd h (Nat.not_le.mpr hlow), fun _ => ?_⟩
    rw [hperiod, hfilter, hlength, hhsync]
    refine ⟨by rw [hstart], by rw [hstart], by rw [hstart], fun hpos => ?_, fun _ => ⟨by rw [hstart], fun hin => ?_⟩⟩
    · have := Nat.le_mul_of_pos_left s.sync.lineLength.toNat hpos
      omega
    · have hends : ¬ endsLine cfg0 f s = true := by
        rw [endsLine_iff_of_lt (by rw [hstart]; exact Nat.lt_of_succ_lt hin), hstart]
        exact Nat.ne_of_lt hin
      rw [smp_lineCnt, if_neg hends, hstart]

/-! ## The later cycles of a sync run -/

/-- Step 2 on a later cycle of a run: the run and the count since the reference go on, the phase stays (R133, R136). -/
theorem smpSync_later {c : Cfg R σ} (m : ModeCfg) {f : Byte} (hf : flagSync f = true) {y : SyncState}
    (h : y.syncLengthCnt ≠ 0) :
    smpSync c m f y =
      { y with
        syncLengthCnt := countSync y.syncLengthCnt, hsyncCnt := y.hsyncCnt + 1
        fieldParity := (smpSync c m f y).fieldParity, vsyncCnt := (smpSync c m f y).vsyncCnt } := by
  by_cases hn : c.vsyncRun ≤ (countSync y.syncLengthCnt).toNat ∧ m.vsyncThr2 ≤ y.vsyncCnt.toInt
  · rw [smpSync_field m hf h hn]
  · rw [smpSync_run m hf h hn]

/-- A cycle starts a field from the 26th of its run on, with the vertical counter at its threshold (R136). -/
theorem startsField_cfg0 {f : Byte} (hf : flagSync f = true) (s : State) :
    startsField cfg0 f s = true ↔
      25 ≤ s.sync.syncLengthCnt.toNat ∧ (if s.ntsc then 210 else 250) ≤ s.sync.vsyncCnt.toInt := by
  rw [startsField, hf, Bool.true_and, Bool.and_eq_true, decide_eq_true_iff, decide_eq_true_iff, cfg0_vsyncRun,
    countSync_toNat, vsyncThr2_cfg0]
  omega

/-- The parity that FIELD_START latches, in natural numbers (R136). -/
theorem parityOf_iff {n len pos : Nat} (h : pos ≤ len) :
    parityOf n len pos = true ↔ len / 4 ≤ (n + len - pos) % len ∧ (n + len - pos) % len < 3 * len / 4 := by
  have hphase : parityPhase n len pos = ((n + len - pos) % len : Nat) := by
    rw [parityPhase, Int.natCast_mod, Int.natCast_sub (by omega), Int.natCast_add]
  simp only [parityOf, hphase, Bool.and_eq_true, decide_eq_true_iff, Int.ofNat_le, Int.ofNat_lt]

/-- The vertical counter after a cycle that starts no field: one line more where the cycle ends a line (R146, R148). -/
theorem smp_vsyncCnt_of_noField {f : Byte} (c0 c1 : Byte) (a : S16) {s : State} (h : startsField cfg0 f s = false) :
    (smp cfg0 f c0 c1 a s).sync.vsyncCnt.toInt =
      min (s.sync.vsyncCnt.toInt + bit (endsLine cfg0 f s)) (2 ^ 31 - 1) := by
  obtain ⟨_, hv, _⟩ := smp_vertical cfg0 f c0 c1 a s
  rw [hv, ((smpSync_vertical (c := cfg0) (by decide) f s).2 h).2]

/-- The vertical counter after a cycle that starts a field counts from the reload (R136). -/
theorem smp_vsyncCnt_of_field {f : Byte} (c0 c1 : Byte) (a : S16) {s : State} (h : startsField cfg0 f s = true) :
    (smp cfg0 f c0 c1 a s).sync.vsyncCnt.toInt =
      (if s.ntsc then (if (smp cfg0 f c0 c1 a s).sync.fieldParity then -19 else -18)
        else (if (smp cfg0 f c0 c1 a s).sync.fieldParity then -21 else -20)) + bit (endsLine cfg0 f s) := by
  obtain ⟨hp, hv, _⟩ := smp_vertical cfg0 f c0 c1 a s
  rw [hv, hp, smpSync_reload h]
  have hbit := bit_le_one (endsLine cfg0 f s)
  split_ifs <;> omega

/-- Settles O26. -/
theorem verticalSyncStartsField : Obligations.VerticalSyncStartsField := by
  intro f c0 c1 a s hf h0 h6 hlt ends
  have hlater := smpSync_later (c := cfg0) (cfg0.mode s.ntsc) hf h0
  have hcnt : (smpSync cfg0 (cfg0.mode s.ntsc) f s.sync).lineCnt = s.sync.lineCnt := by rw [hlater]
  have hlen : (smpSync cfg0 (cfg0.mode s.ntsc) f s.sync).lineLength = s.sync.lineLength := by rw [hlater]
  obtain ⟨hrun, hhsync, hperiod, hfilter, hlength⟩ := smp_syncRegisters cfg0 f c0 c1 a s
  have hends : endsLine cfg0 f s = true ↔ ends := by
    rw [endsLine_iff_of_lt (by rwa [hcnt, hlen]), hcnt, hlen]
  have hbit : (bit (endsLine cfg0 f s) : Int) = if ends then 1 else 0 := by
    simp only [bit, hends]
    split <;> rfl
  have hphase := smp_lineCnt cfg0 f c0 c1 a s
  simp only [hends, hcnt] at hphase
  have hparity := (smp_vertical cfg0 f c0 c1 a s).1
  refine ⟨_, exec_smp f c0 c1 a s, ?_, ?_, ?_, ?_, ?_, hphase, fun h25 hthr => ⟨?_, ?_⟩, fun hnone => ?_⟩
  · rw [hrun, hlater, countSync_toNat]
  · rw [hhsync, hlater]
  · rw [hperiod, hlater]
  · rw [hfilter, hlater]
  · rw [hlength, hlen]
  · obtain ⟨hp, _⟩ := (smpSync_vertical (c := cfg0) (by decide) f s).1 ((startsField_cfg0 hf s).mpr ⟨h25, hthr⟩)
    rw [hparity, hp, (cfg0_mode_bounds s.ntsc).2.1]
    exact parityOf_iff h6
  · rw [smp_vsyncCnt_of_field c0 c1 a ((startsField_cfg0 hf s).mpr ⟨h25, hthr⟩), hbit]
  · have hfalse : startsField cfg0 f s = false := by
      rw [Bool.eq_false_iff, Ne, startsField_cfg0 hf]
      omega
    rw [smp_vsyncCnt_of_noField c0 c1 a hfalse, hbit, hparity]
    exact ⟨((smpSync_vertical (c := cfg0) (by decide) f s).2 hfalse).1, rfl⟩

/-! ## The fields that runs start -/

theorem lineEnds_dropLast_cons (c : Cfg R σ) (x : Byte × Byte × Byte × S16) {l : List (Byte × Byte × Byte × S16)}
    (h : l ≠ []) (s : State σ) :
    lineEnds c (x :: l).dropLast s =
      bit (endsLine c x.1 s) + lineEnds c l.dropLast (smp c x.1 x.2.1 x.2.2.1 x.2.2.2 s) := by
  rw [List.dropLast_cons_of_ne_nil h]
  rfl

theorem lineEnds_cons (c : Cfg R σ) (x : Byte × Byte × Byte × S16) (l : List (Byte × Byte × Byte × S16))
    (s : State σ) :
    lineEnds c (x :: l) s = bit (endsLine c x.1 s) + lineEnds c l (smp c x.1 x.2.1 x.2.2.1 x.2.2.2 s) := rfl

theorem fieldStarts_cons (c : Cfg R σ) (x : Byte × Byte × Byte × S16) (l : List (Byte × Byte × Byte × S16))
    (s : State σ) :
    fieldStarts c (x :: l) s = bit (startsField c x.1 s) + fieldStarts c l (smp c x.1 x.2.1 x.2.2.1 x.2.2.2 s) := rfl

theorem smp_ntsc (c : Cfg R σ) (f c0 c1 : Byte) (a : S16) (s : State σ) : (smp c f c0 c1 a s).ntsc = s.ntsc :=
  (smp_vertical c f c0 c1 a s).2.2.2

/-- A cycle below the threshold starts no field. -/
theorem startsField_of_below {f : Byte} {s : State} (h : s.sync.vsyncCnt.toInt < if s.ntsc then 210 else 250) :
    startsField cfg0 f s = false := by
  rw [startsField, vsyncThr2_cfg0, decide_eq_false (Int.not_le.mpr h), Bool.and_false]

/-- As long as the lines that end keep the vertical counter below its threshold, no cycle starts a field. -/
theorem fieldStarts_of_below (l : List (Byte × Byte × Byte × S16)) {s : State}
    (h : s.sync.vsyncCnt.toInt + lineEnds cfg0 l.dropLast s < if s.ntsc then 210 else 250) :
    fieldStarts cfg0 l s = 0 := by
  induction l generalizing s with
  | nil => rfl
  | cons x l ih =>
    have hnone : startsField cfg0 x.1 s = false := startsField_of_below (by omega)
    rw [fieldStarts_cons, hnone]
    by_cases hl : l = []
    · rw [hl]
      rfl
    · rw [lineEnds_dropLast_cons cfg0 x hl] at h
      refine (Nat.zero_add _).trans (ih ?_)
      rw [smp_vsyncCnt_of_noField _ _ _ hnone, smp_ntsc]
      omega

/-- After a cycle that starts a field none does until the lines from the reload to the threshold are through (R137). -/
theorem fieldStarts_of_field (x : Byte × Byte × Byte × S16) (l : List (Byte × Byte × Byte × S16)) {s : State}
    (hfield : startsField cfg0 x.1 s = true) (h : lineEnds cfg0 (x :: l).dropLast s < if s.ntsc then 228 else 270) :
    fieldStarts cfg0 (x :: l) s = 1 := by
  rw [fieldStarts_cons, hfield]
  by_cases hl : l = []
  · rw [hl]
    rfl
  · rw [lineEnds_dropLast_cons cfg0 x hl] at h
    rw [fieldStarts_of_below]
    · rfl
    · rw [smp_vsyncCnt_of_field _ _ _ hfield, smp_ntsc]
      split_ifs at h ⊢ <;> omega

/-- Settles O53. -/
theorem noFieldStartBelowThreshold : Obligations.NoFieldStartBelowThreshold :=
  ⟨fun l _ => fieldStarts_of_below l, fun x l _ => fieldStarts_of_field x l⟩

/-- The length of the run after a cycle at sync level (R133). -/
theorem smp_syncLengthCnt_toNat {f : Byte} (c0 c1 : Byte) (a : S16) {s : State} (hf : flagSync f = true) :
    (smp cfg0 f c0 c1 a s).sync.syncLengthCnt.toNat = min (s.sync.syncLengthCnt.toNat + 1) (2 ^ 32 - 1) := by
  rw [(smp_syncRegisters cfg0 f c0 c1 a s).1]
  by_cases h0 : s.sync.syncLengthCnt = 0
  · rw [smpSync_start (by decide) _ hf h0, h0]
    rfl
  · rw [smpSync_later _ hf h0, countSync_toNat]

theorem smp_syncLengthCnt_ne_zero {f : Byte} (c0 c1 : Byte) (a : S16) {s : State} (hf : flagSync f = true) :
    (smp cfg0 f c0 c1 a s).sync.syncLengthCnt ≠ 0 := by
  have hcount := smp_syncLengthCnt_toNat c0 c1 a (s := s) hf
  intro h
  rw [h, show (0 : U32).toNat = 0 from rfl] at hcount
  omega

/-- What is left of a sync run, from any of its cycles on, starts one field if the run reaches 26 cycles and the vertical
counter its threshold before the last cycle ends, and else none. -/
theorem fieldStarts_of_run (l : List (Byte × Byte × Byte × S16)) {s : State} (hl : l ≠ [])
    (hsync : ∀ x ∈ l, flagSync x.1 = true)
    (h : lineEnds cfg0 l.dropLast s < if s.ntsc then 228 else 270) :
    fieldStarts cfg0 l s =
      if 26 ≤ s.sync.syncLengthCnt.toNat + l.length ∧
        (if s.ntsc then 210 else 250) ≤ s.sync.vsyncCnt.toInt + lineEnds cfg0 l.dropLast s then 1 else 0 := by
  induction l generalizing s with
  | nil => exact absurd rfl hl
  | cons x l ih =>
    obtain ⟨hx, hrest⟩ := List.forall_mem_cons.mp hsync
    have hstarts := startsField_cfg0 hx s
    cases hfield : startsField cfg0 x.1 s with
    | true =>
      obtain ⟨h25, hthr⟩ := hstarts.mp hfield
      rw [fieldStarts_of_field x l hfield h, if_pos]
      rw [List.length_cons]
      omega
    | false =>
      have hnone : ¬(25 ≤ s.sync.syncLengthCnt.toNat ∧ (if s.ntsc then 210 else 250) ≤ s.sync.vsyncCnt.toInt) :=
        fun hboth => absurd (hfield.symm.trans (hstarts.mpr hboth)) (by decide)
      rw [fieldStarts_cons, hfield]
      by_cases hl' : l = []
      · subst hl'
        rw [if_neg]
        · rfl
        · rintro ⟨hlong, hthr⟩
          exact hnone ⟨Nat.le_of_succ_le_succ hlong, hthr.trans_eq (Int.add_zero _)⟩
      · rw [lineEnds_dropLast_cons cfg0 x hl'] at h ⊢
        refine (Nat.zero_add _).trans ?_
        rw [ih hl' hrest (by rw [smp_ntsc]; omega), smp_syncLengthCnt_toNat _ _ _ hx,
          smp_vsyncCnt_of_noField _ _ _ hfield, smp_ntsc]
        have hlen := List.length_pos_of_ne_nil hl'
        refine if_congr ?_ rfl rfl
        rw [List.length_cons]
        omega

/-- Within a run the period is fixed, and a line ends every `lineLength` cycles. -/
theorem lineEnds_of_run (l : List (Byte × Byte × Byte × S16)) {s : State} (hsync : ∀ x ∈ l, flagSync x.1 = true)
    (hrun : s.sync.syncLengthCnt ≠ 0) (hlt : s.sync.lineCnt.toNat < s.sync.lineLength.toNat) :
    s.sync.lineLength.toNat * lineEnds cfg0 l s ≤ l.length + s.sync.lineCnt.toNat := by
  induction l generalizing s with
  | nil => exact Nat.zero_le _
  | cons x l ih =>
    obtain ⟨hx, hrest⟩ := List.forall_mem_cons.mp hsync
    have hlater := smpSync_later (c := cfg0) (cfg0.mode s.ntsc) hx hrun
    have hcnt : (smpSync cfg0 (cfg0.mode s.ntsc) x.1 s.sync).lineCnt = s.sync.lineCnt := by rw [hlater]
    have hlen : (smpSync cfg0 (cfg0.mode s.ntsc) x.1 s.sync).lineLength = s.sync.lineLength := by rw [hlater]
    have hends : endsLine cfg0 x.1 s = true ↔ s.sync.lineCnt.toNat + 1 = s.sync.lineLength.toNat := by
      rw [endsLine_iff_of_lt (by rwa [hcnt, hlen]), hcnt, hlen]
    obtain ⟨_, _, _, _, hlength⟩ := smp_syncRegisters cfg0 x.1 x.2.1 x.2.2.1 x.2.2.2 s
    have hphase := smp_lineCnt cfg0 x.1 x.2.1 x.2.2.1 x.2.2.2 s
    have hnext := ih (s := smp cfg0 x.1 x.2.1 x.2.2.1 x.2.2.2 s) hrest
      (smp_syncLengthCnt_ne_zero _ _ _ hx)
    rw [hlength, hlen, hphase, hcnt] at hnext
    rw [lineEnds_cons, List.length_cons, Nat.mul_add]
    cases he : endsLine cfg0 x.1 s with
    | true =>
      rw [if_pos he] at hnext
      have hend := hends.mp he
      have hnext' := hnext (by rw [show (0 : U32).toNat = 0 from rfl]; omega)
      rw [show (0 : U32).toNat = 0 from rfl] at hnext'
      rw [show bit true = 1 from rfl]
      omega
    | false =>
      have hne : s.sync.lineCnt.toNat + 1 ≠ s.sync.lineLength.toNat := fun h => by simp [hends.mpr h] at he
      rw [if_neg (by simp [he]), lineCnt_succ_toNat hlt] at hnext
      rw [show bit false = 0 from rfl]
      have hnext' := hnext (by omega)
      omega

/-- After the first cycle of a run the rest of it ends a line every `lineLength` cycles, at least 110 (R25, R134). -/
theorem lineEnds_of_runStart (l : List (Byte × Byte × Byte × S16)) {s : State} (hsync : ∀ x ∈ l, flagSync x.1 = true)
    (hline : s.sync.lineInv (cfg0.mode s.ntsc)) : 110 * lineEnds cfg0 l s ≤ l.length + 110 := by
  cases l with
  | nil => exact Nat.zero_le _
  | cons x l =>
    obtain ⟨hx, hrest⟩ := List.forall_mem_cons.mp hsync
    obtain ⟨_, _, _, hmin, _, _, hmax, _⟩ := cfg0_mode_bounds s.ntsc
    obtain ⟨⟨hL, _⟩, _, _, hlt⟩ := smpSync_lineInv cfg0 (m := cfg0.mode s.ntsc) x.1 hline (by omega) (by omega)
    obtain ⟨_, _, _, _, hlength⟩ := smp_syncRegisters cfg0 x.1 x.2.1 x.2.2.1 x.2.2.2 s
    have hphase := smp_lineCnt cfg0 x.1 x.2.1 x.2.2.1 x.2.2.2 s
    have hends := endsLine_iff_of_lt hlt
    have hrun := lineEnds_of_run l (s := smp cfg0 x.1 x.2.1 x.2.2.1 x.2.2.2 s) hrest
      (smp_syncLengthCnt_ne_zero _ _ _ hx)
    rw [hlength, hphase] at hrun
    rw [lineEnds_cons, List.length_cons]
    generalize lineEnds cfg0 l (smp cfg0 x.1 x.2.1 x.2.2.1 x.2.2.2 s) = n at hrun
    cases he : endsLine cfg0 x.1 s with
    | true =>
      rw [if_pos he, show (0 : U32).toNat = 0 from rfl] at hrun
      have hle := (Nat.mul_le_mul_right n (hmin.trans hL)).trans (hrun (by omega))
      rw [show bit true = 1 from rfl]
      omega
    | false =>
      have hne : ¬ endsLine cfg0 x.1 s = true := by simp [he]
      rw [if_neg hne, lineCnt_succ_toNat hlt] at hrun
      have hlt' := Nat.lt_of_le_of_ne (Nat.succ_le_of_lt hlt) (mt hends.mpr hne)
      have hle := hrun hlt'
      rw [show bit false = 0 from rfl]
      rcases Nat.eq_zero_or_pos n with rfl | hpos
      · omega
      · obtain ⟨n, rfl⟩ : ∃ k, n = k + 1 := ⟨n - 1, by omega⟩
        have hmul := Nat.mul_le_mul_right n (hmin.trans hL)
        rw [Nat.mul_add] at hle
        omega

/-- Settles O27. -/
theorem syncRunStartsOneField : Obligations.SyncRunStartsOneField := by
  intro l s hsync h0
  refine ⟨fun h => ?_, lineEnds_of_runStart l hsync⟩
  by_cases hl : l = []
  · subst hl
    rfl
  · rw [fieldStarts_of_run l hl hsync h, h0, show (0 : U32).toNat = 0 from rfl, Nat.zero_add]

end Sys2Proof.Machine
end

section
/-! Line decode (42_demodulator.md R150 to R157): the proofs of O31 and O32. -/

namespace Sys2Proof.Machine

variable {R σ : Type}

theorem Memory.read_toArray {w : Nat} {l : List (BitVec w)} {i : Nat} {v : BitVec w} (h : l[i]? = some v) :
    Memory.read l.toArray i = v := by
  rw [Memory.read, Array.getD_eq_getD_getElem?, List.getElem?_toArray, h]
  rfl

/-- The source pixels of the line as the state holds it (R118, R150). -/
def sourcePixels (c : Cfg R σ) (s : State σ) : Memory 32 :=
  (decodeGroups c s (!burstFlag s.sync.lineFlags) s.sync.lineBufGroups.toNat 0).toArray

theorem size_sourcePixels (c : Cfg R σ) (s : State σ) :
    (sourcePixels c s).size = 4 * s.sync.lineBufGroups.toNat := by
  rw [sourcePixels, List.size_toArray, decodeGroups_length]

/-- Source pixel `x` is one of the four pixels of group `x / 4` (R118, R150). -/
theorem read_sourcePixels {c : Cfg R σ} {s : State σ} {gs : List (Byte × Byte × Byte)} {x : Nat} {f c0 c1 : Byte}
    (hlen : gs.length = s.sync.lineBufGroups.toNat) (h : holdsGroups s.sync.lineBuf 0 gs)
    (hx : gs[x / 4]? = some (f, c0, c1)) :
    Memory.read (sourcePixels c s) x =
      cmPix c s f (if x % 4 < 2 ∨ flagHalfWidth f = false then c0 else c1) (!burstFlag s.sync.lineFlags) := by
  rw [sourcePixels, ← hlen]
  exact Memory.read_toArray (decodeGroups_getElem h hx)

/-- The row of a visible line lies in the picture (R54, R150). -/
theorem row_fits {line : Int} (h : line < 576) : (line / 2).toNat * 384 + 384 ≤ 110592 := by omega

/-- A pixel of the row that DECODE_LINE writes (R150). -/
theorem read_decodeLine_row {s : State} (hsize : s.videoBuf.size = 110592) (h0 : 0 ≤ s.sync.curLine.toInt)
    (h576 : s.sync.curLine.toInt < 576) (hgroups : s.sync.lineBufGroups.toNat ≠ 0) {x : Nat} (hx : x < 384) :
    Memory.read (decodeLine cfg0 s).videoBuf ((s.sync.curLine.toInt / 2).toNat * 384 + x) =
      rowPixel cfg0 (oddFlag s.sync.lineFlags) (sourcePixels cfg0 s) (4 * s.sync.lineBufGroups.toNat) x := by
  have hwrite := decodeLine_write (c := cfg0) (s := s)
    (by rw [cfg0_videoHeight]; omega)
  rw [hwrite]
  exact Memory.read_writeRange_inside s.videoBuf _ hx (hsize ▸ row_fits h576)

/-- Settles O31. -/
theorem decodeLineWritesExactlyOneRow : Obligations.DecodeLineWritesExactlyOneRow := by
  intro s hsize nc src
  refine ⟨fun ⟨h0, h576, hgroups⟩ => ?_, fun hskip => ?_⟩
  · have hne : s.sync.lineBufGroups.toNat ≠ 0 := fun h => hgroups (BitVec.eq_of_toNat_eq h)
    have hsrc : src.size = 4 * s.sync.lineBufGroups.toNat := size_sourcePixels cfg0 s
    refine ⟨decodeLine_frame cfg0 s, (decodeLine_size cfg0 s).trans hsize, hsrc,
      fun gs x f c0 c1 hlen h hx => read_sourcePixels hlen h hx, fun x hx => ?_, fun k => decodeLine_outside cfg0 s⟩
    rw [read_decodeLine_row hsize h0 h576 hne hx, ← hsrc]
    rfl
  · refine decodeLine_skip ?_
    rcases hskip with hneg | hbelow | hnone
    · exact .inl hneg
    · exact .inr (.inl hbelow)
    · exact .inr (.inr (congrArg BitVec.toNat hnone))

/-- With 384 source pixels both paths of DECODE_LINE give the source pixels themselves (R151, R157). -/
theorem rowPixel_nominal (odd : Bool) (src : Memory 32) (x : Nat) :
    rowPixel cfg0 odd src 384 x = Memory.read src x := by
  unfold rowPixel
  split
  · rfl
  · have hblend (a b : Pixel) : blend cfg0 a b 0 384 = a :=
      (blendStaysBetweenPixels _ _ cfg0 a b 0 384 (.inl rfl) (by decide)).1
    rw [resampledPixel, cfg0_videoWidth, Nat.mul_div_cancel x (by decide), Nat.mul_mod_left]
    exact hblend _ _

/-- Settles O32. -/
theorem nominalLineRoundTrip : Obligations.NominalLineRoundTrip := by
  intro s gs x f c0 c1 hsize h0 h576 hgroups hlen h hx hgs
  have hcount : s.sync.lineBufGroups.toNat = 96 := congrArg BitVec.toNat hgroups
  rw [read_decodeLine_row hsize h0 h576 (by omega) hx, hcount, rowPixel_nominal]
  exact read_sourcePixels (hlen.trans hcount.symm) h hgs

end Sys2Proof.Machine
end

section
/-! The completion of a raw frame (43_frame_resampler.md R173 to R182): what each pending boundary emits and what is left
in the accumulator, with the proof of O29. -/

namespace Sys2Proof.Machine

variable {R σ : Type}

/-! ## The drain of the pending boundaries, boundary by boundary -/

/-- The end of the interval before boundary `j`: the boundary before it, or `start` for the oldest (R174). -/
def lastBoundary (fifo : Memory 64) (start : U64) (j : Nat) : U64 := if j = 0 then start else Memory.read fifo (j - 1)

/-- The accumulated sum of an element up to the time `upTo`, after `j` boundaries (R177): what stood in the accumulator
counts for the oldest boundary only. -/
def partSum (fifo : Memory 64) (interpTime : U64) (held : Memory 8) (acc : Memory 32) (j : Nat) (upTo : U64)
    (k : Nat) : U32 :=
  BitVec.ofNat 32 ((if j = 0 then (Memory.read acc k).toNat else 0) +
    (Memory.read held k).toNat * ((upTo - lastBoundary fifo interpTime j).toNat % 2 ^ 32))

/-- An element of the picture of boundary `j` (R175): the average over the interval that ends there. -/
def intervalByte (fifo : Memory 64) (interpTime outTime : U64) (held : Memory 8) (acc : Memory 32) (j k : Nat) : Byte :=
  if Memory.read fifo j = lastBoundary fifo outTime j then Memory.read held k
  else finalByte (partSum fifo interpTime held acc j (Memory.read fifo j) k)
    (Memory.read fifo j - lastBoundary fifo outTime j).toNat

theorem drain_frameBuf0 (c : Cfg R σ) (n : Nat) (s : State σ) :
    (drainBoundaries c n s).frame.frameBuf0 = s.frame.frameBuf0 := by rw [drain_frame]

/-- After `j` boundaries both times stand at the newest of them (R174). -/
theorem drain_times (c : Cfg R σ) {s : State σ} (h8 : s.frame.bndFifo.size = 8) (hb : s.frame.bndCount ≤ 8) {j : Nat}
    (hj : j ≤ s.frame.bndCount) :
    (drainBoundaries c j s).frame.interpTime = lastBoundary s.frame.bndFifo s.frame.interpTime j ∧
    (drainBoundaries c j s).frame.outTime = lastBoundary s.frame.bndFifo s.frame.outTime j := by
  cases j with
  | zero => exact ⟨rfl, rfl⟩
  | succ j => exact (drain_restarts c j h8 hb hj).2

section
variable {c : Cfg R σ} {s : State σ} (h8 : s.frame.bndFifo.size = 8) (hb : s.frame.bndCount ≤ 8) {j : Nat}
  (hj : j ≤ s.frame.bndCount) {plane : Planes 32 → Memory 32} (hplane : ∀ k, Memory.read (plane (Planes.fill c 0)) k = 0)
include h8 hb hj hplane

/-- The accumulator is empty after a boundary (R174). -/
theorem read_drain_interpBuf (k : Nat) :
    (Memory.read (plane (drainBoundaries c j s).frame.interpBuf) k).toNat =
      if j = 0 then (Memory.read (plane s.frame.interpBuf) k).toNat else 0 := by
  cases j with
  | zero => rfl
  | succ j =>
    rw [(drain_restarts c j h8 hb hj).1, hplane]
    rfl

/-- An element accumulated after `j` boundaries. -/
theorem read_drain_accum (held : Memory 8) (upTo : U64) {k : Nat}
    (hk : k < (plane (drainBoundaries c j s).frame.interpBuf).size) :
    Memory.read (accumPlane held (upTo - (drainBoundaries c j s).frame.interpTime)
        (plane (drainBoundaries c j s).frame.interpBuf)) k =
      partSum s.frame.bndFifo s.frame.interpTime held (plane s.frame.interpBuf) j upTo k := by
  rw [read_accumPlane _ _ _ hk, accum_element, read_drain_interpBuf h8 hb hj hplane, (drain_times c h8 hb hj).1]
  rfl

/-- An element of a plane cut at boundary `j`. -/
theorem read_drain_cut (held : Memory 8) {out : Memory 8} {k : Nat}
    (hk : k < (plane (drainBoundaries c j s).frame.interpBuf).size) (ho : k < out.size) :
    Memory.read (finalizePlane (Memory.read s.frame.bndFifo j - (drainBoundaries c j s).frame.outTime) held
        (accumPlane held (Memory.read s.frame.bndFifo j - (drainBoundaries c j s).frame.interpTime)
          (plane (drainBoundaries c j s).frame.interpBuf)) out) k =
      intervalByte s.frame.bndFifo s.frame.interpTime s.frame.outTime held (plane s.frame.interpBuf) j k := by
  obtain ⟨hinterp, hout⟩ := drain_times c h8 hb hj
  rw [read_cutPlane _ _ _ hk ho, read_drain_interpBuf h8 hb hj hplane, hinterp, hout]
  rfl

end

/-- The picture of boundary `j`, the next to be drained (R174). -/
def boundaryPicture (c : Cfg R σ) (s : State σ) (j : Nat) : Planes 8 :=
  (cutAt c (Memory.read s.frame.bndFifo j) (drainBoundaries c j s).frame).outBuf

/-- The output planes hold the picture of the newest drained boundary (R174). -/
theorem drain_outBuf (c : Cfg R σ) {s : State σ} (h8 : s.frame.bndFifo.size = 8) (hb : s.frame.bndCount ≤ 8) {j : Nat}
    (hj : j < s.frame.bndCount) : (drainBoundaries c (j + 1) s).frame.outBuf = boundaryPicture c s j := by
  have h := drain_fifo c j h8 hb (i := 0) hj
  rw [Nat.add_zero] at h
  rw [drain_succ, boundaryPicture, ← h]
  rfl

/-- The picture of boundary `j`, element by element (R175, R177). -/
theorem boundaryPicture_elements {s : State} (hwf : s.frame.sizesWf cfg0) (hb : s.frame.bndCount ≤ 8) {j : Nat}
    (hj : j ≤ s.frame.bndCount) :
    (boundaryPicture cfg0 s j).wf cfg0 = true ∧
    (∀ k, k < 110592 → Memory.read (boundaryPicture cfg0 s j).y k =
      intervalByte s.frame.bndFifo s.frame.interpTime s.frame.outTime s.frame.frameBuf0.y s.frame.interpBuf.y j k) ∧
    (∀ k, k < 27648 →
      Memory.read (boundaryPicture cfg0 s j).v k =
        intervalByte s.frame.bndFifo s.frame.interpTime s.frame.outTime s.frame.frameBuf0.v s.frame.interpBuf.v j k ∧
      Memory.read (boundaryPicture cfg0 s j).u k =
        intervalByte s.frame.bndFifo s.frame.interpTime s.frame.outTime s.frame.frameBuf0.u s.frame.interpBuf.u j k) := by
  have h8 := (Memory.wf_iff _ _).mp hwf.1
  obtain ⟨_, _, _, hinterp, hout⟩ := drain_sizes j hwf
  obtain ⟨hiy, hiv, hiu⟩ := Planes.sizes_cfg0 hinterp
  obtain ⟨hoy, hov, hou⟩ := Planes.sizes_cfg0 hout
  rw [← drain_frameBuf0 cfg0 j s]
  refine ⟨(cutAt_wf _ hout).1, fun k hk => ?_, fun k hk => ⟨?_, ?_⟩⟩
  · exact read_drain_cut h8 hb hj (plane := Planes.y) (fun _ => read_fill_zero _ _) _ (hk.trans_eq hiy.symm)
      (hk.trans_eq hoy.symm)
  · exact read_drain_cut h8 hb hj (plane := Planes.v) (fun _ => read_fill_zero _ _) _ (hk.trans_eq hiv.symm)
      (hk.trans_eq hov.symm)
  · exact read_drain_cut h8 hb hj (plane := Planes.u) (fun _ => read_fill_zero _ _) _ (hk.trans_eq hiu.symm)
      (hk.trans_eq hou.symm)

/-- The samples of boundary `j`: the `j`-th `APF` of the queue (R203). -/
theorem drain_audioSlice {c : Cfg R σ} (hc : 0 < c.apf) {s : State σ} (h : s.ringInv c) {j : Nat}
    (hj : j < s.frame.bndCount) :
    (audioSlice c (drainBoundaries c j s).audio).toList = ((s.audio.live c).drop (c.apf * j)).take c.apf := by
  obtain ⟨_, _, _, _, _, _, hcount, _⟩ := drain_ringInv hc j (Nat.le_of_lt hj) h
  have hone : 1 ≤ s.frame.bndCount - j := by omega
  have hle : c.apf ≤ (drainBoundaries c j s).audio.ringCount := by
    rw [hcount, drain_bndCount]
    exact (Nat.le_mul_of_pos_left c.apf hone).trans (Nat.le_add_right _ _)
  rw [audioSlice_live hle, drain_live hc j (Nat.le_of_lt hj) h]

/-! ## FRAME_DONE -/

/-- The state FRAME_DONE drains: the generations have swapped (R173). -/
def swapped (c : Cfg R σ) (q : State σ) : State σ :=
  { q with frame := swapGenerations c q.videoBuf q.cycleCnt q.frame }

theorem swapped_sizes {c : Cfg R σ} {q : State σ} (h : q.frame.sizesWf c) : (swapped c q).frame.sizesWf c := by
  obtain ⟨hfifo, _, hnew, hinterp, hout⟩ := h
  exact ⟨hfifo, hnew, planar_wf c _, hinterp, hout⟩

theorem bndCount_le_of_ringInv {c : Cfg R σ} {s : State σ} (h : s.ringInv c) : s.frame.bndCount ≤ 8 := by
  obtain ⟨_, _, _, _, _, _, _, hle⟩ := h
  exact hle

/-- The output frames FRAME_DONE emits, one for each pending boundary, oldest first (R173 to R181). -/
theorem frameDone_pictures {q : State} (hwf : q.frame.sizesWf cfg0) (hring : q.ringInv cfg0) : ∃ evs : List Event,
    (frameDone cfg0 q).events = q.events ++ evs ∧ evs.length = q.frame.bndCount ∧
    ∀ j, j < q.frame.bndCount → ∃ (py pv pu : Memory 8) (audio : Memory 16),
      evs[j]? = some (.frameOut py pv pu audio) ∧
      py.size = 110592 ∧ pv.size = 27648 ∧ pu.size = 27648 ∧ audio.size = 960 ∧
      audio.toList = ((q.audio.live cfg0).drop (960 * j)).take 960 ∧
      (∀ k, k < 110592 → Memory.read py k = intervalByte q.frame.bndFifo q.frame.interpTime q.frame.outTime
        q.frame.frameBuf1.y q.frame.interpBuf.y j k) ∧
      (∀ k, k < 27648 →
        Memory.read pv k = intervalByte q.frame.bndFifo q.frame.interpTime q.frame.outTime
          q.frame.frameBuf1.v q.frame.interpBuf.v j k ∧
        Memory.read pu k = intervalByte q.frame.bndFifo q.frame.interpTime q.frame.outTime
          q.frame.frameBuf1.u q.frame.interpBuf.u j k) ∧
      (j + 1 = q.frame.bndCount → (frameDone cfg0 q).frame.outBuf = { y := py, v := pv, u := pu }) := by
  have hb : (swapped cfg0 q).frame.bndCount ≤ 8 := bndCount_le_of_ringInv hring
  have hwf' := swapped_sizes hwf
  have h8 := (Memory.wf_iff _ _).mp hwf'.1
  obtain ⟨evs, hevents, hlen, hevent⟩ := drain_event cfg0 q.frame.bndCount h8 hb (Nat.le_refl _)
  refine ⟨evs, hevents, hlen, fun j hj => ?_⟩
  obtain ⟨hpic, hy, hvu⟩ := boundaryPicture_elements hwf' hb (Nat.le_of_lt hj)
  obtain ⟨hsy, hsv, hsu⟩ := Planes.sizes_cfg0 hpic
  refine ⟨_, _, _, _, hevent j hj, hsy, hsv, hsu, size_audioSlice cfg0 _,
    drain_audioSlice (c := cfg0) (s := swapped cfg0 q) (by decide) hring hj, hy, hvu, fun hlast => ?_⟩
  have hout := drain_outBuf cfg0 h8 hb hj
  rw [hlast] at hout
  exact hout

/-- What FRAME_DONE leaves in the accumulator: the part of the newest interval up to this cycle (R173, R177); and the end
of the last interval (R174). -/
theorem frameDone_remainder {q : State} (hwf : q.frame.sizesWf cfg0) (hb : q.frame.bndCount ≤ 8) :
    (∀ k, k < 110592 → Memory.read (frameDone cfg0 q).frame.interpBuf.y k =
      partSum q.frame.bndFifo q.frame.interpTime q.frame.frameBuf1.y q.frame.interpBuf.y q.frame.bndCount
        q.cycleCnt k) ∧
    (∀ k, k < 27648 →
      Memory.read (frameDone cfg0 q).frame.interpBuf.v k =
        partSum q.frame.bndFifo q.frame.interpTime q.frame.frameBuf1.v q.frame.interpBuf.v q.frame.bndCount
          q.cycleCnt k ∧
      Memory.read (frameDone cfg0 q).frame.interpBuf.u k =
        partSum q.frame.bndFifo q.frame.interpTime q.frame.frameBuf1.u q.frame.interpBuf.u q.frame.bndCount
          q.cycleCnt k) ∧
    (frameDone cfg0 q).frame.outTime = lastBoundary q.frame.bndFifo q.frame.outTime q.frame.bndCount := by
  have hwf' := swapped_sizes hwf
  have h8 := (Memory.wf_iff _ _).mp hwf'.1
  have hle : q.frame.bndCount ≤ (swapped cfg0 q).frame.bndCount := Nat.le_refl _
  obtain ⟨_, _, _, hinterp, _⟩ := drain_sizes q.frame.bndCount hwf'
  obtain ⟨hiy, hiv, hiu⟩ := Planes.sizes_cfg0 hinterp
  have hcycle : (drainBoundaries cfg0 q.frame.bndCount (swapped cfg0 q)).cycleCnt = q.cycleCnt := by
    rw [drain_frame]
    rfl
  have hbuf : (frameDone cfg0 q).frame.interpBuf =
      (accum (q.cycleCnt - (drainBoundaries cfg0 q.frame.bndCount (swapped cfg0 q)).frame.interpTime)
        (drainBoundaries cfg0 q.frame.bndCount (swapped cfg0 q)).frame).interpBuf := by
    rw [← hcycle]
    rfl
  rw [hbuf, accum, drain_frameBuf0]
  refine ⟨fun k hk => ?_, fun k hk => ⟨?_, ?_⟩, (drain_times cfg0 h8 hb hle).2⟩
  · exact read_drain_accum h8 hb hle (plane := Planes.y) (fun _ => read_fill_zero _ _) _ _ (hk.trans_eq hiy.symm)
  · exact read_drain_accum h8 hb hle (plane := Planes.v) (fun _ => read_fill_zero _ _) _ _ (hk.trans_eq hiv.symm)
  · exact read_drain_accum h8 hb hle (plane := Planes.u) (fun _ => read_fill_zero _ _) _ _ (hk.trans_eq hiu.symm)

/-- The ring after FRAME_DONE: only its read side has moved (R203). -/
theorem frameDone_audio {c : Cfg R σ} (hc : 0 < c.apf) {q : State σ} (hring : q.ringInv c) :
    (frameDone c q).audio = { q.audio with
      ringRd := (frameDone c q).audio.ringRd, ringCount := q.audio.ringCount - c.apf * q.frame.bndCount } := by
  have hframe := congrArg State.audio (frameDone_frame c q)
  obtain ⟨_, _, _, _, _, _, hcount', _⟩ := frameDone_ringInv hc hring
  obtain ⟨_, _, _, _, _, _, hcount, _⟩ := hring
  have hacc : (frameDone c q).audio.accCnt = q.audio.accCnt := by rw [hframe]
  have hringCount : (frameDone c q).audio.ringCount = q.audio.ringCount - c.apf * q.frame.bndCount := by
    rw [hcount', (frameDone_counts c q).1, hacc, hcount, Nat.mul_comm c.apf]
    omega
  rw [← hringCount]
  exact hframe

/-! ## The cycle that completes a frame -/

/-- The top of a field, where the line brought the vertical counter to 0 (R146). -/
theorem topOfField_lineAdvance {c : Cfg R σ} {y : SyncState} (h : (lineAdvance c y).vsyncCnt = 0) :
    topOfField (lineAdvance c y) =
      { y with
        lineCnt := 0, lineBufBytes := 0, lineBufGroups := 0, lineFlags := 0, vsyncCnt := 0
        curLine := if y.fieldParity then 1 else 0 } := by
  have hcur : BitVec.ofNat 32 (bit y.fieldParity) = if y.fieldParity then 1 else 0 := by
    cases y.fieldParity <;> rfl
  rw [topOfField, h, ← hcur]
  rfl

/-- The state that a cycle completing a frame hands to FRAME_DONE (R146). -/
def beforeFrameDone (c : Cfg R σ) (f c0 c1 : Byte) (a : S16) (s : State σ) : State σ :=
  { afterAudio c a s with
    videoBuf := afterDecode c f c0 c1 s, sync := topOfField (lineAdvance c (afterLine c f c0 c1 s)) }

/-- A cycle whose line brings the vertical counter to 0 completes a frame (R146). -/
theorem smp_completesFrame {c : Cfg R σ} {f c0 c1 : Byte} {a : S16} {s : State σ}
    (hend : (afterLine c f c0 c1 s).lineLength.toNat ≤ ((afterLine c f c0 c1 s).lineCnt + 1).toNat)
    (hzero : (lineAdvance c (afterLine c f c0 c1 s)).vsyncCnt = 0) :
    smp c f c0 c1 a s = frameDone c (beforeFrameDone c f c0 c1 a s) := by
  rcases smp_cases c f c0 c1 a s with ⟨hin, _⟩ | ⟨_, hne, _⟩ | ⟨_, _, e⟩
  · exact absurd hin (Nat.not_lt.mpr hend)
  · exact absurd hzero hne
  · exact e

section
variable (c : Cfg R σ) (f c0 c1 : Byte) (a : S16) (s : State σ)

theorem beforeFrameDone_frame : (beforeFrameDone c f c0 c1 a s).frame = (afterAudio c a s).frame := rfl
theorem beforeFrameDone_audio : (beforeFrameDone c f c0 c1 a s).audio = (afterAudio c a s).audio := rfl
theorem beforeFrameDone_events : (beforeFrameDone c f c0 c1 a s).events = (afterAudio c a s).events := rfl
theorem beforeFrameDone_cycleCnt : (beforeFrameDone c f c0 c1 a s).cycleCnt = (afterAudio c a s).cycleCnt := rfl

end

/-- Of the Frame Resampler step 1 changes the boundary FIFO only (R199). -/
theorem afterAudio_keepsFrame (c : Cfg R σ) (a : S16) (s : State σ) :
    (afterAudio c a s).frame.frameBuf1 = s.frame.frameBuf1 ∧
    (afterAudio c a s).frame.frame1Time = s.frame.frame1Time ∧
    (afterAudio c a s).frame.interpBuf = s.frame.interpBuf ∧
    (afterAudio c a s).frame.interpTime = s.frame.interpTime ∧
    (afterAudio c a s).frame.outTime = s.frame.outTime ∧
    (afterAudio c a s).frame.framesOut = s.frame.framesOut ∧
    (afterAudio c a s).events = s.events ∧ (afterAudio c a s).cycleCnt = s.cycleCnt + 1 := by
  rw [afterAudio_frame]
  exact ⟨rfl, rfl, rfl, rfl, rfl, rfl, rfl, rfl⟩

/-- Settles O29: FRAME_DONE on the state that the audio step, the line and its decode leave. -/
theorem frameCompletionEmitsPendingFrames : Obligations.FrameCompletionEmitsPendingFrames := by
  intro f c0 c1 a s y p n held boundary since sum out hend hvsync hmem hring
  have hzero := (lineAdvance_vsyncCnt_eq_zero cfg0 y).mpr hvsync
  have hsmp : smp cfg0 f c0 c1 a s = frameDone cfg0 (beforeFrameDone cfg0 f c0 c1 a s) := smp_completesFrame hend hzero
  have hring' := afterAudio_ringInv (by decide) a hring
  obtain ⟨_, _, _, _, _, _, _, _, hwf⟩ := afterAudio_memoryWf a hmem
  obtain ⟨hheld, htime, hinterpBuf, hinterp, hout, hframes, hevents, hcycle⟩ := afterAudio_keepsFrame cfg0 a s
  obtain ⟨evs, hevs, hlen, hpictures⟩ := frameDone_pictures (q := beforeFrameDone cfg0 f c0 c1 a s) hwf hring'
  obtain ⟨hremY, hremVU, houtTime⟩ :=
    frameDone_remainder (q := beforeFrameDone cfg0 f c0 c1 a s) hwf (bndCount_le_of_ringInv hring')
  obtain ⟨hgen0, htime0, hgen1, htime1, hnow⟩ := frameDone_generations cfg0 (beforeFrameDone cfg0 f c0 c1 a s)
  obtain ⟨hnone, hcount⟩ := frameDone_counts cfg0 (beforeFrameDone cfg0 f c0 c1 a s)
  have haudio := frameDone_audio (c := cfg0) (q := beforeFrameDone cfg0 f c0 c1 a s) (by decide) hring'
  have hlive := frameDone_live (c := cfg0) (s := beforeFrameDone cfg0 f c0 c1 a s) (by decide) hring'
  have hvideo : (frameDone cfg0 (beforeFrameDone cfg0 f c0 c1 a s)).videoBuf = afterDecode cfg0 f c0 c1 s := by
    rw [frameDone_frame]
    rfl
  have hsync := (congrArg State.sync (frameDone_frame cfg0 (beforeFrameDone cfg0 f c0 c1 a s))).trans
    (topOfField_lineAdvance hzero)
  rw [beforeFrameDone_frame, beforeFrameDone_audio, hheld, hinterpBuf, hinterp, hout] at hpictures
  rw [beforeFrameDone_frame, beforeFrameDone_cycleCnt, hheld, hinterpBuf, hinterp, hcycle] at hremY hremVU
  rw [beforeFrameDone_frame, hout] at houtTime
  rw [beforeFrameDone_frame] at hgen0 htime0 hcount
  rw [beforeFrameDone_events, hevents] at hevs
  rw [beforeFrameDone_cycleCnt, hcycle] at htime1 hnow
  refine ⟨_, evs, exec_smp f c0 c1 a s, ?_⟩
  rw [hsmp]
  refine ⟨?_, fun h7 => ?_, hlen, hpictures, haudio, hlive, hgen0.trans hheld, htime0.trans htime,
    hgen1.trans (congrArg (planar cfg0) hvideo.symm), htime1, hremY, hremVU, hnow, houtTime, hnone,
    hcount.trans (congrArg (· + BitVec.ofNat 32 n) hframes)⟩
  · have hstate := smp_frame cfg0 f c0 c1 a s
    rw [hsmp, hsync, hvideo, hevs] at hstate
    exact hstate
  · have hp : p = _ := smpAudio_accumulates (c := cfg0) a (s := { s with cycleCnt := s.cycleCnt + 1 }) h7
    rw [hp]
    exact ⟨rfl, rfl⟩

end Sys2Proof.Machine
end
